-- ==== Sys2Proof/Word.lean ====
section
/-! DEFINITION. The word types of the block: bytes, 32-bit operation words and 32-bit values (00_scope R21). -/

namespace Sys2Proof

/-- An 8-bit unsigned value (R21). -/
abbrev Byte := BitVec 8

/-- One 32-bit operation word: a head word or an operand word (30_encoding R100). -/
abbrev Word := BitVec 32

/-- A 32-bit two's-complement value (R21); its integer value is `toInt`. -/
abbrev I32 := BitVec 32

/-- A 32-bit unsigned value (R21); its value is `toNat`. -/
abbrev U32 := BitVec 32

end Sys2Proof
end

