-- ==== Sys2Proof/Types.lean ====
section
/-! DEFINITION. The closed enumerations and records of the spec: agents, encoder modes, event and flag
sets, motion commands, output events. What is computed from them stands in Machine/Operands.lean. -/

namespace Sys2Proof

/-- The four agents that drive the block (00_scope R8). -/
inductive Agent where
  | main   -- MAIN, the mainline execution context
  | sisr   -- SISR, the serial interrupt context
  | eisr   -- EISR, the encoder pulse callback
  | chan   -- CHAN, the transmit side of the byte channel
  deriving DecidableEq, Repr, Inhabited

/-- Encoder modes (10_state R44). -/
inductive Mode where
  | universal
  | feedRate
  | rapidRate
  | spindleRPM
  | mpg                     -- MPG, all axes
  | mpgAxis (k : Nat)       -- MPG_k, bound to axis k
  deriving DecidableEq, Repr, Inhabited

/-- The event set of an encoder (10_state R49), also the `EV` operand of ENC_EVENT (30_encoding R106). -/
structure EncEvents where
  posChanged  : Bool := false
  click       : Bool := false
  doubleClick : Bool := false
  deriving DecidableEq, Repr, Inhabited

/-- The three levels of the rapid ratchet (10_state R52). -/
inductive RapidLevel where
  | default
  | medium
  | low
  deriving DecidableEq, Repr, Inhabited

/-- Which read variant GET_BYTE performs (10_state R39). -/
inductive Reader where
  | normal
  | null
  deriving DecidableEq, Repr, Inhabited

/-- The distance multiplier of an axis, one of 1, 10, 100 (10_state R57). -/
inductive Scale where
  | x1
  | x10
  | x100
  deriving DecidableEq, Repr, Inhabited

/-- The event set of an MPG axis (10_state R58). -/
structure AxisEvents where
  posChanged : Bool := false
  zero       : Bool := false
  lock       : Bool := false
  reset      : Bool := false
  scale      : Bool := false
  stop       : Bool := false
  deriving DecidableEq, Repr, Inhabited

/-- The flag set of an MPG axis (10_state R59). -/
structure AxisFlags where
  moving : Bool := false
  zero   : Bool := false
  lock   : Bool := false
  reset  : Bool := false
  deriving DecidableEq, Repr, Inhabited

/-- The answers of the draw `MachineState()` (42 R212): every state but Idle and Jogging is `other`. -/
inductive MachineState where
  | idle
  | jogging
  | other
  deriving DecidableEq, Repr, Inhabited

/-- The movement-generation strategy of the block (42 R220). -/
inductive MoveStrategy where
  | absoluteMove
  | relativeJog
  deriving DecidableEq, Repr, Inhabited

/-- A structured motion command (42 R222). -/
inductive MotionCmd where
  | zeroAxis (k : Nat)
  | move (rel : Bool) (axes : List (Nat × I32)) (feed : U32)
  | jog (axes : List (Nat × I32)) (feed : U32)
  deriving DecidableEq, Repr, Inhabited

/-- The externally visible outputs (00_scope R17). -/
inductive OutEvent where
  | txByte (b : Byte)
  | rtRx (b : Byte)
  | rtCmd (b : Byte)
  | motion (cmd : MotionCmd) (accepted : Bool)
  | counterReset (id : Nat)
  | statusMsg (m : Mode)
  deriving DecidableEq, Repr, Inhabited

/-- The fields of one encoder's settings record (10_state R60, 43 R250). -/
inductive SettingField where
  | mode
  | cpr
  | cpd
  | dclick
  deriving DecidableEq, Repr, Inhabited

/-- One encoder's settings record (10_state R60). -/
structure Settings where
  mode   : U32
  cpr    : U32
  cpd    : U32
  dclick : U32
  deriving DecidableEq, Repr, Inhabited

end Sys2Proof
end

