-- ==== Sys2Proof/Config.lean ====
section
/-! DEFINITION. The parameters of an implementation (00_scope R19), the named constants of the spec (R20,
30_encoding R114, R115), and the free values of what the spec leaves open. -/

namespace Sys2Proof

/-- The parameters of 00_scope R19. `rtClass` is the predicate RT_CLASS as a 256-bit mask: bit `b` says whether
byte `b` is a real-time command (log 15). SET_MAX is computed from the others (`Params.setMax`). -/
structure Params where
  txCap            : Nat
  rxCap            : Nat
  nAxis            : Nat
  nEnc             : Nat
  setBase          : Nat
  setStride        : Nat
  rtClass          : BitVec 256
  toolAck          : Byte
  rtFeedFinePlus   : Byte
  rtFeedFineMinus  : Byte
  rtFeedReset      : Byte
  rtSpindleFinePlus  : Byte
  rtSpindleFineMinus : Byte
  rtSpindleReset   : Byte
  rtRapidReset     : Byte
  rtRapidMedium    : Byte
  rtRapidLow       : Byte
  rtJogCancel      : Byte
  eolSeq           : List Byte
  moveStrategy     : MoveStrategy
  mpgIntervalMs    : Nat
  deriving DecidableEq, Repr, Inhabited

namespace Config

/-- Default counts-per-revolution on restore (R19, 43 R256). -/
def defaultCpr : U32 := 400
/-- Default counts-per-detent on restore (R19, 43 R256). -/
def defaultCpd : U32 := 4
/-- Default double-click window in ms on restore (R19, 43 R256). -/
def defaultDclick : U32 := 500
/-- Smallest accepted double-click window in ms (43 R251). -/
def dclickMin : Nat := 100
/-- Largest accepted double-click window in ms (43 R251). -/
def dclickMax : Nat := 900
/-- The factor of the normalized count (41 R181). -/
def normFactor : Int := 100
/-- The three distance multipliers (10_state R57). -/
def scaleFactor1 : Int := 1
def scaleFactor10 : Int := 10
def scaleFactor100 : Int := 100
/-- `NO_DATA` (30_encoding R114). -/
def noData : I32 := BitVec.ofInt 32 (-1)
/-- Setting status codes (30_encoding R115). -/
def stOk : I32 := 0
def stInvalid : I32 := 1
def stUnhandled : I32 := 2

/-- The settings record SETTINGS_RESTORE writes (43 R256): mode Universal, and the default values above. -/
def restoredSettings : Settings :=
  ⟨0, defaultCpr, defaultCpd, defaultDclick⟩

/-- RT_CLASS_T of 95_test_vectors section 0: 0x18, 0x21, 0x3F, 0x7E and 0x84 to 0x9F. -/
def resetRtClass : BitVec 256 :=
  (1 <<< 0x18) ||| (1 <<< 0x21) ||| (1 <<< 0x3F) ||| (1 <<< 0x7E) ||| (0xFFFFFFF <<< 0x84)

/-- The parameters State.reset carries. DESIGN CHOICE (log 2, unsafe): the spec leaves them OPEN; these are the
values 95_test_vectors section 0 uses, with the defaults 30_encoding R112 and 00_scope R19 name. No statement about
every state rests on them. -/
def resetParams : Params where
  txCap := 8
  rxCap := 8
  nAxis := 3
  nEnc := 2
  setBase := 400
  setStride := 10
  rtClass := resetRtClass
  toolAck := 0xA3
  rtFeedFinePlus := 0x93
  rtFeedFineMinus := 0x94
  rtFeedReset := 0x90
  rtSpindleFinePlus := 0x9C
  rtSpindleFineMinus := 0x9D
  rtSpindleReset := 0x99
  rtRapidReset := 0x95
  rtRapidMedium := 0x96
  rtRapidLow := 0x97
  rtJogCancel := 0x85
  eolSeq := [0x0D, 0x0A]
  moveStrategy := .absoluteMove
  mpgIntervalMs := 50

/-- The persisted settings State.reset starts from. DESIGN CHOICE (log 3, unsafe): the spec keeps them outside the
block (10_state R67); these are vector F17's, with the restore defaults for the other fields. -/
def resetSettings : List Settings :=
  [restoredSettings, { restoredSettings with mode := 4 }]

/-! Free values: constants with no body, so no proof can use what they are. -/

/-- What a slot of TXBUF that nothing has written holds (10_state R67 "unspecified", I5; log 6). -/
opaque freeTxByte : Nat → Byte
/-- What a slot of RXBUF that nothing has written holds (10_state R67 "unspecified", I5; log 6). -/
opaque freeRxByte : Nat → Byte
/-- The answer of a draw that nobody supplied (30_encoding R117 "unconstrained", I12; log 7), by draw number. -/
opaque freeWait : Nat → Bool
opaque freeMachineState : Nat → MachineState
opaque freeMotionRelative : Nat → Bool
opaque freeMachinePos : Nat → Nat → I32
opaque freeNowMs : Nat → U32
opaque freeMotionAccept : MotionCmd → Nat → Bool
/-- The mode a pending message announces where no encoder is universal, which no run reaches (log 14). -/
opaque freeMessageMode : Mode

end Config
end Sys2Proof
end

