-- ==== Sys2Proof/Syntax.lean ====
section
/-! DEFINITION. The sixteen operations of spec/opcode_table.json (30_encoding R107), one constructor a row.
Encoder ids and setting ids are numbers the block indexes with, so they are naturals; that they fit their
fields is `Instr.WellFormed`. -/

namespace Sys2Proof

inductive Instr where
  | putByte (d : Byte)
  | getByte
  | txCount
  | rxCount
  | rxFree
  | rxOverflow
  | resumeInput
  | isrRx (d : Byte) (ovr fe : Bool)
  | isrTx
  | isrRxErr (ovr fe : Bool)
  | chanTxDone
  | encEvent (enc : Nat) (ev : BitVec 3) (pos : I32) (vel : U32)
  | executeRealtime
  | settingRead (id : Nat)
  | settingWrite (id : Nat) (val : U32)
  | settingsRestore
  deriving DecidableEq, Repr, Inhabited

end Sys2Proof
end

