-- ==== Sys2Proof/Machine/State.lean ====
section
/-! DEFINITION. Why a run can stop, the state of the block (10_state), and the state after reset and
initialization (10_state R67). State is plain data. -/

namespace Sys2Proof.Machine

/-- The faults of 60_exceptions R271. All are safe: the spec itself ends the run there (R23, R275). -/
inductive Fault where
  /-- Code 1. Raised by `step` for a head word that is illegal (30_encoding R109, 60 R272). Safe. -/
  | illegalOperation (w : Word)
  /-- Code 2. Raised by `step` where operand words are missing at the end of the agent's stream (R272). Safe. -/
  | truncatedOperation (w : Word)
  /-- Code 3. Raised by ENC_EVENT for an id that names no encoder (41 R171). Safe. -/
  | badOperand (e : Nat)
  /-- Code 4. Raised by ENC_EVENT where `cpr = 0` in NCOUNT (41 R182). Safe. -/
  | divideByZero (e : Nat)
  /-- Code 5. Raised by ENC_EVENT (41 R182, the encoder id) and EXECUTE_REALTIME (42 R223, the axis id) where a
  value leaves the Int32 range. Safe. -/
  | arithOverflow (x : Nat)
  deriving DecidableEq, Repr, Inhabited

/-- The refusals of 60_exceptions R276 and the model's own. All are safe: a claim about a run that reaches one says
nothing about what would follow. -/
inductive Refusal where
  /-- Raised by an arm of `exec` whose instruction has no meaning yet; no arm does so in this model. Safe. -/
  | notModelled (mnemonic : String)
  /-- Raised by `step`: an operation offered by an agent that is not its own (R276 a). Safe. -/
  | wrongAgent
  /-- Raised by `step`: a MAIN operation other than the held PUT_BYTE while `put_blocked` (R276 b). Safe. -/
  | blocked
  /-- Raised by `State.boot`: settings that break the binding invariants (R276 c, 70 R301). Safe. -/
  | configRefused
  /-- Raised by `step`: ISR_TX or CHAN_TX_DONE offered where the agent has no such step (40 R163, R165, 60 R280);
  the model's own name (log 10). Safe. -/
  | notEnabled
  /-- Raised by `step`: the schedule, or the scheduled agent's stream, holds nothing more; the model's own name
  (log 8). Safe. -/
  | nothingOffered
  /-- Raised by `step` in a state that already carries the refusal mark: no further step (R276); the model's own
  name (log 12). Safe. -/
  | runEnded
  deriving DecidableEq, Repr, Inhabited

/-- A byte storage space (20_memory R80): (index, byte) pairs, indices strictly rising. -/
abbrev Memory := List Host.Cell

/-- What an index that no entry lists reads as: no value, the spec's "unspecified" (10_state R67; log 6). -/
def Memory.unlisted : Option Byte := none

/-- A circular byte buffer: storage and two indices (10_state R33, R34). -/
structure Ring where
  mem  : Memory
  head : Nat
  tail : Nat
  deriving DecidableEq, Repr, Inhabited

/-- The whole receive buffer state, which the backup slot snapshots (10_state R34, R36, R37, R38). -/
structure RxBuffer extends Ring where
  overflow : Bool
  backup   : Bool
  deriving DecidableEq, Repr, Inhabited

/-- One encoder (10_state R45 to R49). Its id is its index (R43). -/
structure Encoder where
  mode     : Mode
  axis     : Option Nat
  position : I32
  velocity : U32
  event    : EncEvents
  deriving DecidableEq, Repr, Inhabited

/-- One MPG axis (10_state R53 to R55, R57 to R59, R61). -/
structure Axis where
  enc       : Option Nat
  position  : I32
  pos       : I32
  scale     : Scale
  event     : AxisEvents
  flags     : AxisFlags
  nextEvent : U32
  deriving DecidableEq, Repr, Inhabited

/-- The operation words each agent still offers (20_memory R95, 30_encoding R100; the model's own field, log 8). -/
structure Streams where
  main : List Word
  sisr : List Word
  eisr : List Word
  chan : List Word
  deriving DecidableEq, Repr, Inhabited

/-- The environment's answers still to be drawn (00_scope R12, R14, R16, 30_encoding R117; the model's own field,
log 7). `draws` counts the answers nobody supplied and picks their free values. -/
structure Env where
  waits         : List Bool
  machineStates : List MachineState
  relatives     : List Bool
  machinePos    : List I32
  nowMs         : List U32
  accepts       : List Bool
  draws         : Nat
  deriving DecidableEq, Repr, Inhabited

/-- The state of the block. -/
structure State where
  /-- The parameters of the run (00_scope R19, 10_state R65); no step writes them (log 1). -/
  cfg : Params
  /-- RES0 and RES1 (10_state R31). -/
  res0 : I32
  res1 : U32
  /-- put_blocked (R32), and the byte of the PUT_BYTE it holds (R276 b; log 9). -/
  putBlocked : Bool
  heldByte : Byte
  /-- TXBUF, tx_head, tx_tail (R33). -/
  tx : Ring
  /-- RXBUF, rx_head, rx_tail, rx_overflow, rx_backup (R34, R36, R37). -/
  rx : RxBuffer
  /-- The backup slot: RXBAK, bak_head, bak_tail, bak_overflow, bak_backup (R38). -/
  bak : RxBuffer
  /-- reader (R39). -/
  reader : Reader
  /-- txie (R40). -/
  txie : Bool
  /-- hw_tx_empty (R42). -/
  hwTxEmpty : Bool
  /-- enc[0 .. N_ENC-1] (R43). -/
  encs : List Encoder
  /-- universal (R50). -/
  universal : Option Nat
  /-- mode_msg_pending (R51). -/
  modeMsgPending : Bool
  /-- rapid_level (R52). -/
  rapidLevel : RapidLevel
  /-- mpg[0 .. N_AXIS-1] (R53). -/
  axes : List Axis
  /-- pending_axes (R56); bits from N_AXIS up are 0. -/
  pendingAxes : BitVec 16
  /-- set[0 .. N_ENC-1] (R60). -/
  settings : List Settings
  /-- guard (R62). -/
  guard : Bool
  /-- fault and refused (R63). -/
  fault : Option Fault
  refused : Bool
  /-- OUT, oldest event first (00_scope R17, 10_state R64). -/
  out : List OutEvent
  /-- The agents the scheduler picks, next one first (00_scope R9; log 8). -/
  sched : List Agent
  /-- What each agent offers (log 8). -/
  streams : Streams
  /-- What the environment answers (log 7). -/
  env : Env
  deriving DecidableEq, Repr, Inhabited

/-- An empty ring (10_state R67): indices 0, contents unspecified. -/
def Ring.initial : Ring := ⟨[], 0, 0⟩

/-- An empty, unintercepted receive buffer (10_state R67). For the backup slot, whose fields are unspecified at
reset, the same values are a DESIGN CHOICE (log 5, unsafe). -/
def RxBuffer.initial : RxBuffer := ⟨Ring.initial, false, false⟩

/-- No answer supplied (30_encoding R117). -/
def Env.initial : Env := ⟨[], [], [], [], [], [], 0⟩

/-- The state after reset and initialization (10_state R67, 70 R300 to R304), with the parameters and the persisted
settings of log 2 and log 3; RES0, RES1, the backup slot and heldByte have no reset value in the spec (log 4, 5, 9).
Nothing is offered yet (log 8). -/
def State.reset : State where
  cfg := Config.resetParams
  res0 := 0
  res1 := 0
  putBlocked := false
  heldByte := 0
  tx := Ring.initial
  rx := RxBuffer.initial
  bak := RxBuffer.initial
  reader := .normal
  txie := false
  hwTxEmpty := true
  encs := [⟨.feedRate, none, 0, 0, EncEvents.mk false false false⟩, ⟨.mpg, some 0, 0, 0, EncEvents.mk false false false⟩]
  universal := some 0
  modeMsgPending := false
  rapidLevel := .default
  axes :=
    [⟨some 1, 0, 0, .x1, AxisEvents.mk false false false false false false, AxisFlags.mk false false false false, 0⟩,
     ⟨none, 0, 0, .x1, AxisEvents.mk false false false false false false, AxisFlags.mk false false false false, 0⟩,
     ⟨none, 0, 0, .x1, AxisEvents.mk false false false false false false, AxisFlags.mk false false false false, 0⟩]
  pendingAxes := 0
  settings := Config.resetSettings
  guard := false
  fault := none
  refused := false
  out := []
  sched := []
  streams := ⟨[], [], [], []⟩
  env := Env.initial

end Sys2Proof.Machine
end

