-- ==== Sys2Proof/Machine/Flags.lean ====
section
/-! DEFINITION. The buffer predicates of 10_state R35 and the conditions the spec computes from the flags. -/

namespace Sys2Proof.Machine

/-- `count(h, t, C) = (h - t) mod C` (R35). -/
def ringCount (h t c : Nat) : Nat := (((h : Int) - (t : Int)) % (c : Int)).toNat

/-- `empty(h, t)` (R35). -/
def ringEmpty (h t : Nat) : Bool := h == t

/-- `next(i, C) = (i + 1) & (C - 1)` (R35). -/
def ringNext (i c : Nat) : Nat := (i + 1) &&& (c - 1)

/-- `full(h, t, C)` (R35). -/
def ringFull (h t c : Nat) : Bool := ringNext h c == t

def State.txEmpty (s : State) : Bool := ringEmpty s.tx.head s.tx.tail
def State.txFull (s : State) : Bool := ringFull s.tx.head s.tx.tail s.cfg.txCap
def State.txCount (s : State) : Nat := ringCount s.tx.head s.tx.tail s.cfg.txCap
def State.rxEmpty (s : State) : Bool := ringEmpty s.rx.head s.rx.tail
def State.rxFull (s : State) : Bool := ringFull s.rx.head s.rx.tail s.cfg.rxCap
def State.rxCount (s : State) : Nat := ringCount s.rx.head s.rx.tail s.cfg.rxCap

/-- Free receive space: `(RX_CAP - 1) - count` (40 R145). -/
def State.rxFree (s : State) : Nat := (s.cfg.rxCap - 1) - s.rxCount

/-- The direct write of a first attempt is legal (40 R131). -/
def State.directLegal (s : State) : Bool := s.txEmpty && !s.txie && s.hwTxEmpty

/-- The transmit-ready interrupt is pending (60 R281). -/
def State.txReadyPending (s : State) : Bool := s.txie && s.hwTxEmpty

/-- The agent of an operation has that step in this state (60 R280): ISR_TX needs the transmit-ready interrupt
pending, CHAN_TX_DONE a byte still being sent; the others are enabled at every step boundary. -/
def State.enabled (s : State) : Instr → Bool
  | .isrTx => s.txReadyPending
  | .chanTxDone => !s.hwTxEmpty
  | .putByte _ => true
  | .getByte => true
  | .txCount => true
  | .rxCount => true
  | .rxFree => true
  | .rxOverflow => true
  | .resumeInput => true
  | .isrRx _ _ _ => true
  | .isrRxErr _ _ => true
  | .encEvent _ _ _ _ => true
  | .executeRealtime => true
  | .settingRead _ => true
  | .settingWrite _ _ => true
  | .settingsRestore => true

/-- RT_CLASS (00_scope R11). -/
def State.isRealtime (s : State) (b : Byte) : Bool := s.cfg.rtClass.getLsbD b.toNat

/-- The byte is the tool acknowledge and no interception is active (40 R156). -/
def State.intercepts (s : State) (b : Byte) : Bool := b == s.cfg.toolAck && !s.rx.backup

/-- The machine state lets pending axis events be processed (42 R212). -/
def gateOpen : MachineState → Bool
  | .idle => true
  | .jogging => true
  | .other => false

/-- No axis has a pending event (42 R212). -/
def State.nothingPending (s : State) : Bool := s.pendingAxes == 0#16

end Sys2Proof.Machine
end

