-- ==== Sys2Proof/WellFormed.lean ====
section
/-! DEFINITION. Well-formed operations (each operand fits its field, 30_encoding R105, R106) and well-formed
parameters (00_scope R19, 30_encoding R112). -/

namespace Sys2Proof

/-- The operands fit their fields: ENC has 8 bits (R106), ID has 16 (R105); the other operands are bit vectors of
their field's width. -/
def Instr.WellFormed : Instr → Bool
  | .encEvent enc _ _ _ => enc < 256
  | .settingRead id => id < 65536
  | .settingWrite id _ => id < 65536
  | .putByte _ => true
  | .getByte => true
  | .txCount => true
  | .rxCount => true
  | .rxFree => true
  | .rxOverflow => true
  | .resumeInput => true
  | .isrRx _ _ _ => true
  | .isrTx => true
  | .isrRxErr _ _ => true
  | .chanTxDone => true
  | .executeRealtime => true
  | .settingsRestore => true

/-- A buffer capacity: a power of two, at least 2 and at most 65536 (R19). -/
def capOk (c : Nat) : Bool :=
  2 ≤ c && c ≤ 65536 && c == 2 ^ c.log2

/-- SET_MAX (R19). -/
def Params.setMax (p : Params) : Nat := p.setBase + p.nEnc * p.setStride - 1

/-- The nine override bytes and RT_JOG_CANCEL (R112). -/
def Params.rtBytes (p : Params) : List Byte :=
  [p.rtFeedFinePlus, p.rtFeedFineMinus, p.rtFeedReset, p.rtSpindleFinePlus, p.rtSpindleFineMinus,
   p.rtSpindleReset, p.rtRapidReset, p.rtRapidMedium, p.rtRapidLow, p.rtJogCancel]

/-- The constraints of R19, and the override and jog-cancel bytes pairwise distinct (R112). -/
def Params.WellFormed (p : Params) : Bool :=
  capOk p.txCap && capOk p.rxCap &&
  1 ≤ p.nAxis && p.nAxis ≤ 16 &&
  1 ≤ p.nEnc && p.nEnc ≤ 256 &&
  4 ≤ p.setStride && p.setMax ≤ 65535 &&
  decide p.rtBytes.Nodup

end Sys2Proof
end

