-- ==== Sys2Proof/Machine/Operands.lean ====
section
/-! DEFINITION. Operand forms and value computations: Int32 narrowing and truncating division (41 R181, 42 R223),
mode codes (10_state R44), event bits (30_encoding R106), the ratchet and the scale (10_state R52, R57), setting ids
and their validation (43 R250, R251), result values (30_encoding R114, R115). -/

namespace Sys2Proof.Machine

/-- The Int32 value of an integer, or nothing where it leaves the range (41 R181, 42 R223). -/
def narrow32 (x : Int) : Option I32 :=
  if -2 ^ 31 ≤ x ∧ x ≤ 2 ^ 31 - 1 then some (BitVec.ofInt 32 x) else none

/-- `zext_32` of a byte (00_scope R21). -/
def zext32 (b : Byte) : I32 := b.setWidth 32

/-- A count as a result value. -/
def countResult (n : Nat) : I32 := BitVec.ofNat 32 n

/-- A truth value as a result value (30_encoding R114). -/
def boolResult (b : Bool) : I32 := if b then 1 else 0

/-- The numeric encoding of modes (10_state R44). -/
def modeCode : Mode → Nat
  | .universal => 0
  | .feedRate => 1
  | .rapidRate => 2
  | .spindleRPM => 3
  | .mpg => 4
  | .mpgAxis k => 5 + k

/-- The mode a stored value names; values above `4 + N_AXIS` are not modes (10_state R44). -/
def modeOfCode (nAxis : Nat) (v : Nat) : Option Mode :=
  if v = 0 then some .universal
  else if v = 1 then some .feedRate
  else if v = 2 then some .rapidRate
  else if v = 3 then some .spindleRPM
  else if v = 4 then some .mpg
  else if v ≤ 4 + nAxis then some (.mpgAxis (v - 5))
  else none

/-- The override modes (10_state R44). -/
def isOverride : Mode → Bool
  | .universal => false
  | .feedRate => true
  | .rapidRate => true
  | .spindleRPM => true
  | .mpg => false
  | .mpgAxis _ => false

/-- The MPG modes (10_state R44). -/
def isMpg : Mode → Bool
  | .universal => false
  | .feedRate => false
  | .rapidRate => false
  | .spindleRPM => false
  | .mpg => true
  | .mpgAxis _ => true

/-- The click cycle of the universal encoder's target (41 R176). A working mode outside the cycle, which no run
gives the universal encoder, stays as it is (log 13). -/
def nextTarget : Mode → Mode
  | .feedRate => .rapidRate
  | .rapidRate => .spindleRPM
  | .spindleRPM => .feedRate
  | .universal => .universal
  | .mpg => .mpg
  | .mpgAxis k => .mpgAxis k

/-- The `EV` operand as an event set (30_encoding R106). -/
def eventsOfBits (ev : BitVec 3) : EncEvents :=
  ⟨ev.getLsbD 0, ev.getLsbD 1, ev.getLsbD 2⟩

/-- One level toward Low (41 R185); Low stays (R186). -/
def towardLow : RapidLevel → RapidLevel
  | .default => .medium
  | .medium => .low
  | .low => .low

/-- One level toward Default (41 R185); Default stays (R186). -/
def towardDefault : RapidLevel → RapidLevel
  | .low => .medium
  | .medium => .default
  | .default => .default

/-- RAPID_BYTE (41 R185). -/
def rapidByte (p : Params) : RapidLevel → Byte
  | .default => p.rtRapidReset
  | .medium => p.rtRapidMedium
  | .low => p.rtRapidLow

/-- The distance multiplier as a number (10_state R57). -/
def scaleFactor : Scale → Int
  | .x1 => Config.scaleFactor1
  | .x10 => Config.scaleFactor10
  | .x100 => Config.scaleFactor100

/-- Times 10, wrapping from 100 to 1 (42 R216). -/
def nextScale : Scale → Scale
  | .x1 => .x10
  | .x10 => .x100
  | .x100 => .x1

/-- NCOUNT (41 R181, R182): `cpr = 0` first, then the product's range, then the quotient truncated toward zero. -/
def ncount (e : Nat) (p : I32) (cpr : U32) : Except Fault Int :=
  if cpr = 0#32 then .error (.divideByZero e)
  else if (narrow32 (p.toInt * Config.normFactor)).isNone then .error (.arithOverflow e)
  else .ok ((p.toInt * Config.normFactor).tdiv cpr.toNat)

/-- The field at an offset inside an encoder's stride (43 R250). -/
def settingFieldAt : Nat → Option SettingField
  | 0 => some .mode
  | 1 => some .cpr
  | 2 => some .cpd
  | 3 => some .dclick
  | _ + 4 => none

/-- DECODE_ID (43 R250): the encoder and field a setting id names, or nothing where it is unhandled. -/
def decodeSettingId (p : Params) (id : Nat) : Option (Nat × SettingField) :=
  if id < p.setBase ∨ p.setMax < id then none
  else
    let e := (id - p.setBase) / p.setStride
    if p.nEnc ≤ e then none
    else (settingFieldAt ((id - p.setBase) % p.setStride)).map (fun f => (e, f))

/-- Validation of a value for a field (43 R251). -/
def settingValid (p : Params) (f : SettingField) (v : U32) : Bool :=
  match f with
  | .mode => v.toNat ≤ 4 + p.nAxis
  | .cpr => true
  | .cpd => true
  | .dclick => Config.dclickMin ≤ v.toNat && v.toNat ≤ Config.dclickMax

/-- Reading one field of a settings record (43 R252). -/
def settingGet (r : Settings) : SettingField → U32
  | .mode => r.mode
  | .cpr => r.cpr
  | .cpd => r.cpd
  | .dclick => r.dclick

/-- Writing one field of a settings record (43 R253). -/
def settingSet (r : Settings) (f : SettingField) (v : U32) : Settings :=
  match f with
  | .mode => { r with mode := v }
  | .cpr => { r with cpr := v }
  | .cpd => { r with cpd := v }
  | .dclick => { r with dclick := v }

/-- FEED (42 R225): the least non-zero velocity, 0 where there is none. -/
def slowestFeed : List U32 → U32
  | [] => 0
  | v :: vs =>
    let m := slowestFeed vs
    if v = 0 then m else if m = 0 then v else if v.toNat ≤ m.toNat then v else m

/-- The axes of a mask, ascending, among those below `n` (42 R214). -/
def maskAxes (n : Nat) (m : BitVec 16) : List Nat := (List.range n).filter (fun k => m.getLsbD k)

/-- Fault codes (60 R271). -/
def faultCode : Fault → Nat
  | .illegalOperation _ => 1
  | .truncatedOperation _ => 2
  | .badOperand _ => 3
  | .divideByZero _ => 4
  | .arithOverflow _ => 5

/-- A fault's info (60 R271). -/
def faultInfo : Fault → Nat
  | .illegalOperation w => w.toNat
  | .truncatedOperation w => w.toNat
  | .badOperand e => e
  | .divideByZero e => e
  | .arithOverflow x => x

end Sys2Proof.Machine
end

