-- ==== Sys2Proof/Machine/Ops.lean ====
section
/-! DEFINITION. The named operations over storage, registers, events, answers and outcomes that the meanings share.
The block has no trap and no return from one (60 R270, R283, R284): the shared operations for what is exceptional
are `raiseFault`, which ends a step, and `State.mark`, which records that a run has ended. -/

namespace Sys2Proof.Machine

/-! ### Storage (20_memory R80, R87) -/

/-- The byte an index holds, or nothing where no write has given it one. -/
def Memory.read (m : Memory) (a : Nat) : Option Byte :=
  match m with
  | [] => Memory.unlisted
  | (b, v) :: rest => if a = b then some v else Memory.read rest a

/-- Store one byte, keeping indices strictly rising. -/
def Memory.write (m : Memory) (a : Nat) (v : Byte) : Memory :=
  match m with
  | [] => [(a, v)]
  | (b, x) :: rest =>
    if a < b then (a, v) :: (b, x) :: rest
    else if a = b then (a, v) :: rest
    else (b, x) :: Memory.write rest a v

/-- Every index of the list is above `lo`, and they rise strictly. -/
def Memory.risesFrom (lo : Nat) (m : Memory) : Bool :=
  match m with
  | [] => true
  | (b, _) :: rest => lo ≤ b && Memory.risesFrom (b + 1) rest

/-- The canonical form: indices strictly rising. An unlisted index reads as no value, which no entry holds, so no
entry equals it. -/
def Memory.wf (m : Memory) : Bool := Memory.risesFrom 0 m

/-- Every listed index is a slot of a space of `c` bytes (20_memory R80). -/
def Memory.within (c : Nat) (m : Memory) : Bool := m.all (fun cell => cell.1 < c)

/-! ### Rings (10_state R35, 20_memory R92): the slot first, then the index -/

/-- Write the slot at `head`, then advance `head`. -/
def Ring.push (r : Ring) (c : Nat) (b : Byte) : Ring :=
  { mem := r.mem.write r.head b, head := ringNext r.head c, tail := r.tail }

/-- Advance `tail`. -/
def Ring.drop (r : Ring) (c : Nat) : Ring := { r with tail := ringNext r.tail c }

/-- The byte of TXBUF at an index; an unwritten slot holds a free value (log 6). -/
def State.txByte (s : State) (i : Nat) : Byte := (s.tx.mem.read i).getD (Config.freeTxByte i)

/-- The byte of RXBUF at an index; an unwritten slot holds a free value (log 6). -/
def State.rxByte (s : State) (i : Nat) : Byte := (s.rx.mem.read i).getD (Config.freeRxByte i)

def State.txPush (s : State) (b : Byte) : State := { s with tx := s.tx.push s.cfg.txCap b }
def State.txDrop (s : State) : State := { s with tx := s.tx.drop s.cfg.txCap }
def State.rxPush (s : State) (b : Byte) : State :=
  { s with rx := { s.rx with toRing := s.rx.toRing.push s.cfg.rxCap b } }
def State.rxDrop (s : State) : State :=
  { s with rx := { s.rx with toRing := s.rx.toRing.drop s.cfg.rxCap } }

/-! ### Events and results -/

/-- `emit E` (00_scope R17, R23). -/
def State.emit (s : State) (e : OutEvent) : State := { s with out := s.out ++ [e] }

/-- `n` times `emit E` (41 R183). -/
def State.emitMany (s : State) (n : Nat) (e : OutEvent) : State := { s with out := s.out ++ List.replicate n e }

/-- `result <- (a, b)` (10_state R31). -/
def State.result2 (s : State) (a : I32) (b : U32) : State := { s with res0 := a, res1 := b }

/-- `result <- a` (10_state R31). -/
def State.result (s : State) (a : I32) : State := s.result2 a 0

/-! ### Encoders, axes, settings -/

/-- `enc[e]`; an index past the array, which no operation uses from a reachable state, reads as an idle encoder
(log 18). -/
def State.enc (s : State) (e : Nat) : Encoder := s.encs.getD e default

/-- `mpg[k]`; see `State.enc` on indices past the array. -/
def State.axis (s : State) (k : Nat) : Axis := s.axes.getD k default

/-- `set[e]`; see `State.enc` on indices past the array. -/
def State.setting (s : State) (e : Nat) : Settings := s.settings.getD e default

def State.modEnc (s : State) (e : Nat) (f : Encoder → Encoder) : State := { s with encs := s.encs.modify e f }
def State.modAxis (s : State) (k : Nat) (f : Axis → Axis) : State := { s with axes := s.axes.modify k f }
def State.modSetting (s : State) (e : Nat) (f : Settings → Settings) : State :=
  { s with settings := s.settings.modify e f }

/-- `enc[e].position <- p` (10_state R47). -/
def State.setEncPosition (s : State) (e : Nat) (p : I32) : State := s.modEnc e (fun x => { x with position := p })

/-- `mpg[k].position <- p` (10_state R54). -/
def State.setAxisPosition (s : State) (k : Nat) (p : I32) : State := s.modAxis k (fun x => { x with position := p })

/-- Zero an encoder's tracked position and ask for a hardware counter reset (00_scope R15, 41 R177, R190, 42 R215). -/
def State.resetEncoder (s : State) (e : Nat) : State := (s.setEncPosition e 0).emit (.counterReset e)

/-- A GUARDED section (41 R189): the flag is held during the statements and released in the same step, so it is
false at every step boundary (10_state R62). -/
def State.guarded (f : State → State) (s : State) : State := { f { s with guard := true } with guard := false }

/-- Set event bits of axis `k` and its pending bit, guarded (41 R188, R191, R192). -/
def State.markAxis (s : State) (k : Nat) (f : AxisEvents → AxisEvents) : State :=
  State.guarded
    (fun t => { t.modAxis k (fun x => { x with event := f x.event }) with
                pendingAxes := t.pendingAxes ||| (1#16 <<< k) }) s

/-! ### Draws (00_scope R12, R14, R16): a supplied answer, or a free value (log 7) -/

/-- Count one answer nobody supplied. -/
def State.countDraw (s : State) : State := { s with env := { s.env with draws := s.env.draws + 1 } }

/-- `draw WaitForSpace()` (R12). -/
def State.drawWait (s : State) : Bool × State :=
  match s.env.waits with
  | b :: bs => (b, { s with env := { s.env with waits := bs } })
  | [] => (Config.freeWait s.env.draws, s.countDraw)

/-- `draw MachineState()` (R16). -/
def State.drawMachineState (s : State) : MachineState × State :=
  match s.env.machineStates with
  | b :: bs => (b, { s with env := { s.env with machineStates := bs } })
  | [] => (Config.freeMachineState s.env.draws, s.countDraw)

/-- `draw MotionRelative()` (R16). -/
def State.drawRelative (s : State) : Bool × State :=
  match s.env.relatives with
  | b :: bs => (b, { s with env := { s.env with relatives := bs } })
  | [] => (Config.freeMotionRelative s.env.draws, s.countDraw)

/-- `draw MachinePos(k)` (R16). -/
def State.drawMachinePos (s : State) (k : Nat) : I32 × State :=
  match s.env.machinePos with
  | b :: bs => (b, { s with env := { s.env with machinePos := bs } })
  | [] => (Config.freeMachinePos k s.env.draws, s.countDraw)

/-- `draw NowMs()` (R16). -/
def State.drawNowMs (s : State) : U32 × State :=
  match s.env.nowMs with
  | b :: bs => (b, { s with env := { s.env with nowMs := bs } })
  | [] => (Config.freeNowMs s.env.draws, s.countDraw)

/-- `draw MotionAccept(cmd)` (R14). -/
def State.drawAccept (s : State) (cmd : MotionCmd) : Bool × State :=
  match s.env.accepts with
  | b :: bs => (b, { s with env := { s.env with accepts := bs } })
  | [] => (Config.freeMotionAccept cmd s.env.draws, s.countDraw)

/-- Pass a motion command to the sink: draw its answer and record both (00_scope R14). -/
def State.sendMotion (s : State) (cmd : MotionCmd) : Bool × State :=
  let (ok, t) := s.drawAccept cmd
  (ok, t.emit (.motion cmd ok))

/-! ### Outcomes -/

/-- `raise` (00_scope R23): the step ends in the fault, and none of its writes is kept. -/
def raiseFault (f : Fault) : Host.Outcome State Fault Refusal := .fault f

/-- A computation that may raise a fault, as the outcome of a step. -/
def outcomeOf (r : Except Fault State) : Host.Outcome State Fault Refusal :=
  match r with
  | .ok t => .next t
  | .error f => raiseFault f

/-- The model marks (10_state R63): the state a run is left in by a step's outcome. A fault or a refusal keeps no
write of its step; the first of either is recorded and never cleared. -/
def State.mark (s : State) (o : Host.Outcome State Fault Refusal) : State :=
  match o with
  | .next t => t
  | .fault f => if s.fault.isNone then { s with fault := some f } else s
  | .refused _ => { s with refused := true }

end Sys2Proof.Machine
end

