-- ==== Sys2Proof/Machine/Encoder.lean ====
section
/-! DEFINITION. The pulse-to-event converter: ENC_EVENT and its paths (41). -/

namespace Sys2Proof.Machine

/-- UNIVERSAL_CYCLE (41 R176). -/
def State.universalCycle (s : State) (e : Nat) : State :=
  { s.modEnc e (fun x => { x with mode := nextTarget x.mode }) with modeMsgPending := true }

/-- MPG_CURSOR (41 R177). An MPG encoder with no axis, which no run reaches, has no cursor to move (log 13). -/
def State.mpgCursor (s : State) (e : Nat) : State :=
  match (s.enc e).axis with
  | none => s
  | some c =>
    let n := (c + 1) % s.cfg.nAxis
    let t := (s.modAxis c (fun x => { x with enc := none })).modAxis n (fun x => { x with enc := some e })
    ((t.modEnc e (fun x => { x with axis := some n })).setAxisPosition n 0).resetEncoder e

/-- Click handling (41 R175): what is left of the event set, and the state. -/
def State.handleClick (s : State) (e : Nat) (ev : EncEvents) : EncEvents × State :=
  if ev.click && s.universal == some e then ({ ev with click := false }, s.universalCycle e)
  else if ev.click && (s.enc e).mode == .mpg then ({ ev with click := false }, s.mpgCursor e)
  else (ev, s)

/-- FINE_STEPS (41 R183): one command a unit step; the two command bytes are those of the override. -/
def State.fineSteps (s : State) (e : Nat) (plus minus : Byte) (p : I32) : Except Fault State :=
  match ncount e (s.enc e).position (s.setting e).cpr with
  | .error f => .error f
  | .ok nOld =>
    match ncount e p (s.setting e).cpr with
    | .error f => .error f
    | .ok nNew =>
      let up := s.emitMany (nNew - nOld).toNat (.rtCmd plus)
      .ok ((up.emitMany (nOld - nNew).toNat (.rtCmd minus)).setEncPosition e p)

/-- The raw delta of the ratchet reaches the counts-per-detent (41 R185, C1). -/
def State.detentReached (s : State) (e : Nat) (d : Int) : Bool := (s.setting e).cpd.toNat ≤ d.natAbs

/-- Move the ratchet to a level and announce it (41 R185). -/
def State.setRapidLevel (s : State) (l : RapidLevel) : State :=
  ({ s with rapidLevel := l }).emit (.rtCmd (rapidByte s.cfg l))

/-- The level change of a delta (41 R185, R186): toward Low below zero, toward Default above, none at the end. -/
def State.turnRatchet (s : State) (d : Int) : State :=
  if d < 0 ∧ s.rapidLevel ≠ .low then s.setRapidLevel (towardLow s.rapidLevel)
  else if 0 < d ∧ s.rapidLevel ≠ .default then s.setRapidLevel (towardDefault s.rapidLevel)
  else s

/-- RAPID_RATCHET (41 R185 to R187). -/
def State.rapidRatchet (s : State) (e : Nat) (p : I32) : State :=
  let d := p.toInt - (s.enc e).position.toInt
  if s.detentReached e d then (s.turnRatchet d).setEncPosition e p else s

/-- MPG_MARK (41 R188, R189). An MPG encoder with no axis, which no run reaches, marks none (log 13). -/
def State.mpgMark (s : State) (e : Nat) (p : I32) (v : U32) : State :=
  let t :=
    match (s.enc e).axis with
    | none => s
    | some k => s.markAxis k (fun x => if v = 0 then { x with stop := true } else { x with posChanged := true })
  t.setEncPosition e p

/-- Position-changed handling (41 R180): the velocity, then the path of the working mode. The working mode is never
Universal in a run (10_state R45); the case has no path (log 13). -/
def State.handlePosition (s : State) (e : Nat) (p : I32) (v : U32) : Except Fault State :=
  let t := s.modEnc e (fun x => { x with velocity := v })
  match (t.enc e).mode with
  | .feedRate => t.fineSteps e t.cfg.rtFeedFinePlus t.cfg.rtFeedFineMinus p
  | .spindleRPM => t.fineSteps e t.cfg.rtSpindleFinePlus t.cfg.rtSpindleFineMinus p
  | .rapidRate => .ok (t.rapidRatchet e p)
  | .mpg => .ok (t.mpgMark e p v)
  | .mpgAxis _ => .ok (t.mpgMark e p v)
  | .universal => .ok t

/-- OVERRIDE_RESET (41 R190): tracked position, hardware counter, and the reset byte of the current target. -/
def State.overrideReset (s : State) (e : Nat) : State :=
  let t := s.resetEncoder e
  match (s.enc e).mode with
  | .feedRate => t.emit (.rtCmd s.cfg.rtFeedReset)
  | .spindleRPM => t.emit (.rtCmd s.cfg.rtSpindleReset)
  | .rapidRate => t.setRapidLevel .default
  | .universal => t
  | .mpg => t
  | .mpgAxis _ => t

/-- MPG_SCALE_EVENT and MPG_ZERO_EVENT (41 R191, R192), each if its bit is set. -/
def State.mpgEvents (s : State) (e : Nat) (ev : EncEvents) : State :=
  match (s.enc e).axis with
  | none => s
  | some k =>
    let t := if ev.click then s.markAxis k (fun x => { x with scale := true }) else s
    if ev.doubleClick then t.markAxis k (fun x => { x with zero := true }) else t

/-- Non-movement events (41 R190 to R193): only without a position change. -/
def State.handleNonMovement (s : State) (e : Nat) (ev : EncEvents) : State :=
  if ev.click || ev.doubleClick then
    if isOverride (s.enc e).mode then s.overrideReset e
    else if isMpg (s.enc e).mode then s.mpgEvents e ev
    else s
  else s

/-- The event set of the encoder is consumed by the step (10_state R49, 41 R170; log 22). -/
def State.consumeEvents (s : State) (e : Nat) : State := s.modEnc e (fun x => { x with event := ⟨false, false, false⟩ })

/-- The three parts of an encoder event, in order (41 R170). -/
def State.takeEncEvent (s : State) (e : Nat) (ev : EncEvents) (p : I32) (v : U32) : Except Fault State :=
  match s.handleClick e ev with
  | (left, t) => if left.posChanged then t.handlePosition e p v else .ok (t.handleNonMovement e left)

/-- ENC_EVENT (41 R170 to R193). -/
def execEncEvent (e : Nat) (ev : BitVec 3) (p : I32) (v : U32) (s : State) : Host.Outcome State Fault Refusal :=
  if s.cfg.nEnc ≤ e then raiseFault (.badOperand e)
  else if ev = 0#3 then .next s
  else outcomeOf ((s.takeEncEvent e (eventsOfBits ev) p v).map (fun t => t.consumeEvents e))

end Sys2Proof.Machine
end

