-- ==== Sys2Proof/Machine/Realtime.lean ====
section
/-! DEFINITION. The real-time dispatcher: EXECUTE_REALTIME, the per-axis actions and the two movement-generation
strategies (42). -/

namespace Sys2Proof.Machine

/-- The mode a pending message announces (42 R211): the universal encoder's target. Where no encoder is universal,
which no run reaches with a message pending, it is a free value (log 14). -/
def State.messageMode (s : State) : Mode :=
  match s.universal with
  | some u => (s.enc u).mode
  | none => Config.freeMessageMode

/-- The one-shot mode message (42 R211). -/
def State.announceMode (s : State) : State :=
  if s.modeMsgPending then { s.emit (.statusMsg s.messageMode) with modeMsgPending := false } else s

/-- The events of the flagged axes, ascending (42 R213, R214). -/
def State.snapshot (s : State) : List (Nat × AxisEvents) :=
  (maskAxes s.cfg.nAxis s.pendingAxes).map (fun k => (k, (s.axis k).event))

/-- Clear the event sets of some axes. -/
def State.clearEvents (s : State) : List Nat → State
  | [] => s
  | k :: ks => State.clearEvents (s.modAxis k (fun x => { x with event := ⟨false, false, false, false, false, false⟩ })) ks

/-- Clear the mask and the flagged axes' event sets, guarded (42 R213). -/
def State.clearPending (s : State) : State :=
  State.guarded (fun t => { t.clearEvents (maskAxes t.cfg.nAxis t.pendingAxes) with pendingAxes := 0 }) s

/-- AXIS_ZERO (42 R215). -/
def State.axisZero (s : State) (k : Nat) : State :=
  match s.sendMotion (.zeroAxis k) with
  | (false, t) => t
  | (true, t) =>
    let u := t.setAxisPosition k 0
    match (u.axis k).enc with
    | none => u
    | some e => u.resetEncoder e

/-- AXIS_SCALE (42 R216). -/
def State.axisScale (s : State) (k : Nat) : State := s.modAxis k (fun x => { x with scale := nextScale x.scale })

/-- AXIS_STOP (42 R217). -/
def State.axisStop (s : State) (k : Nat) : State :=
  if (s.axis k).flags.moving then
    (s.emit (.rtCmd s.cfg.rtJogCancel)).modAxis k (fun x => { x with flags := { x.flags with moving := false } })
  else s

/-- AXIS_START (42 R218): origin, moving flag, deadline, where the axis is not moving yet. -/
def State.axisStart (s : State) (k : Nat) : State :=
  if (s.axis k).flags.moving then s
  else
    match s.drawMachinePos k with
    | (o, t) =>
      match t.drawNowMs with
      | (now, u) =>
        u.modAxis k (fun x =>
          { x with pos := o, flags := { x.flags with moving := true },
                   nextEvent := now + BitVec.ofNat 32 s.cfg.mpgIntervalMs })

/-- The actions of one flagged axis: zero, scale, stop, position-changed (42 R214). -/
def State.axisActions (s : State) (k : Nat) (ev : AxisEvents) : State :=
  let a := if ev.zero then s.axisZero k else s
  let b := if ev.scale then a.axisScale k else a
  let c := if ev.stop then b.axisStop k else b
  if ev.posChanged then c.axisStart k else c

/-- The actions of the flagged axes, in the snapshot's order (42 R214). -/
def State.allActions (s : State) : List (Nat × AxisEvents) → State
  | [] => s
  | (k, ev) :: rest => State.allActions (s.axisActions k ev) rest

/-- The movement set: the flagged axes with a position change, ascending (42 R210, R218). -/
def moveSet (snap : List (Nat × AxisEvents)) : List Nat :=
  (snap.filter (fun x => x.2.posChanged)).map (·.1)

/-- CONTRIB (42 R221): bound axes whose encoder has moved since the last consumption, each with its encoder. -/
def State.contrib (s : State) : List Nat → List (Nat × Nat)
  | [] => []
  | k :: ks =>
    match (s.axis k).enc with
    | none => s.contrib ks
    | some e => if (s.enc e).position = (s.axis k).position then s.contrib ks else (k, e) :: s.contrib ks

/-- AXIS_DELTA (42 R224, R223): the displacement in hundredths. -/
def State.axisDelta (s : State) (k e : Nat) : Except Fault I32 :=
  match narrow32 ((s.enc e).position.toInt - (s.axis k).position.toInt) with
  | none => .error (.arithOverflow k)
  | some delta =>
    match narrow32 (delta.toInt * scaleFactor (s.axis k).scale) with
    | none => .error (.arithOverflow k)
    | some d => .ok d

/-- The displacements of the contributing axes, in order (42 R220). -/
def State.deltas (s : State) : List (Nat × Nat) → Except Fault (List (Nat × I32))
  | [] => .ok []
  | (k, e) :: rest =>
    match s.axisDelta k e with
    | .error f => .error f
    | .ok d =>
      match s.deltas rest with
      | .error f => .error f
      | .ok ds => .ok ((k, d) :: ds)

/-- The feed of a batch (42 R225). -/
def State.feed (s : State) (c : List (Nat × Nat)) : U32 := slowestFeed (c.map (fun x => (s.enc x.2).velocity))

/-- Accumulate displacements into the absolute targets, in order (42 R226, R223). -/
def State.accumulate (s : State) : List (Nat × I32) → Except Fault (List (Nat × I32) × State)
  | [] => .ok ([], s)
  | (k, d) :: rest =>
    match narrow32 ((s.axis k).pos.toInt + d.toInt) with
    | none => .error (.arithOverflow k)
    | some t =>
      match State.accumulate (s.modAxis k (fun x => { x with pos := t })) rest with
      | .error f => .error f
      | .ok (ts, u) => .ok ((k, t) :: ts, u)

/-- ABS_MOVE (42 R226). -/
def State.absMove (s : State) (ds : List (Nat × I32)) (f : U32) : Except Fault (MotionCmd × State) :=
  match s.drawRelative with
  | (true, t) => .ok (.move true ds f, t)
  | (false, t) =>
    match t.accumulate ds with
    | .error e => .error e
    | .ok (ts, u) => .ok (.move false ts f, u)

/-- REL_JOG (42 R227). -/
def State.relJog (s : State) (ds : List (Nat × I32)) (f : U32) : Except Fault (MotionCmd × State) :=
  .ok (.jog ds f, s)

/-- The strategy of the run builds the command (42 R220). -/
def State.buildCommand (s : State) (ds : List (Nat × I32)) (f : U32) : Except Fault (MotionCmd × State) :=
  match s.cfg.moveStrategy with
  | .absoluteMove => s.absMove ds f
  | .relativeJog => s.relJog ds f

/-- Consumption (42 R224): each contributing axis takes its encoder's position. -/
def State.consume (s : State) : List (Nat × Nat) → State
  | [] => s
  | (k, e) :: rest => State.consume (s.setAxisPosition k (s.enc e).position) rest

/-- MOVE (42 R220): a command only where an axis contributes and the feed is not 0; a rejected command is dropped
(R228). -/
def State.move (s : State) (moving : List Nat) : Except Fault State :=
  let c := s.contrib moving
  if c.isEmpty then .ok s
  else
    match s.deltas c with
    | .error f => .error f
    | .ok ds =>
      if s.feed c = 0 then .ok s
      else
        match s.buildCommand ds (s.feed c) with
        | .error f => .error f
        | .ok (cmd, t) => .ok ((t.consume c).sendMotion cmd).2

/-- The drain of the accumulator (42 R212 to R220): the gate, the snapshot, the actions, the batched move. -/
def State.drain (s : State) : Except Fault State :=
  if s.nothingPending then .ok s
  else
    match s.drawMachineState with
    | (st, t) =>
      if gateOpen st then
        let u := t.clearPending.allActions t.snapshot
        if (moveSet t.snapshot).isEmpty then .ok u else u.move (moveSet t.snapshot)
      else .ok t

/-- EXECUTE_REALTIME (42 R210). -/
def execExecuteRealtime (s : State) : Host.Outcome State Fault Refusal :=
  outcomeOf (s.announceMode.drain.map (fun t => t.result 0))

end Sys2Proof.Machine
end

