-- ==== Sys2Proof/Machine/Receive.lean ====
section
/-! DEFINITION. The receive side of the Async FIFO unit: GET_BYTE, RX_COUNT, RX_FREE, RX_OVERFLOW, RESUME_INPUT,
ISR_RX, ISR_RX_ERR (40 sections 2 to 5). -/

namespace Sys2Proof.Machine

/-- GET_BYTE (40 R140). -/
def execGetByte (s : State) : Host.Outcome State Fault Refusal :=
  match s.reader with
  | .null => .next (s.result Config.noData)
  | .normal =>
    if s.rxEmpty then .next (s.result Config.noData)
    else .next (s.rxDrop.result (zext32 (s.rxByte s.rx.tail)))

/-- RX_COUNT (40 R144): the live buffer, whatever the reader. -/
def execRxCount (s : State) : Host.Outcome State Fault Refusal := .next (s.result (countResult s.rxCount))

/-- RX_FREE (40 R145). -/
def execRxFree (s : State) : Host.Outcome State Fault Refusal := .next (s.result (countResult s.rxFree))

/-- RX_OVERFLOW (40 R146): the read does not clear the flag. -/
def execRxOverflow (s : State) : Host.Outcome State Fault Refusal := .next (s.result (boolResult s.rx.overflow))

/-- RESUME_INPUT (40 R155): the snapshot comes back verbatim. -/
def execResumeInput (s : State) : Host.Outcome State Fault Refusal :=
  if s.rx.backup then .next (({ s with rx := s.bak, reader := .normal }).result 1)
  else .next (({ s with reader := .normal }).result 0)

/-- INTERCEPT (40 R150): the whole receive buffer state is snapshotted, the live buffer truncated, the reader
redirected. Copying every slot, stale ones included, is copying the storage. -/
def State.intercept (s : State) : State :=
  { s with bak := s.rx, rx := { s.rx with backup := true, tail := s.rx.head }, reader := .null }

/-- The buffer path of ISR_RX (40 R158). -/
def State.enqueueRx (s : State) (d : Byte) : State :=
  if s.rxFull then { s with rx := { s.rx with overflow := true } } else s.rxPush d

/-- ISR_RX (40 R156 to R159). OVR and FE are acknowledged with no further effect (R160). -/
def execIsrRx (d : Byte) (_ovr _fe : Bool) (s : State) : Host.Outcome State Fault Refusal :=
  if s.intercepts d then .next s.intercept
  else if s.isRealtime d then .next (s.emit (.rtRx d))
  else .next (s.enqueueRx d)

/-- ISR_RX_ERR (40 R160): acknowledged, no block state changes. -/
def execIsrRxErr (_ovr _fe : Bool) (s : State) : Host.Outcome State Fault Refusal := .next s

end Sys2Proof.Machine
end

