-- ==== Sys2Proof/Machine/SettingsOps.lean ====
section
/-! DEFINITION. The encoder settings operations: SETTING_READ, SETTING_WRITE, SETTINGS_RESTORE (43). -/

namespace Sys2Proof.Machine

/-- SETTING_READ (43 R252). -/
def execSettingRead (id : Nat) (s : State) : Host.Outcome State Fault Refusal :=
  match decodeSettingId s.cfg id with
  | none => .next (s.result2 Config.stUnhandled 0)
  | some (e, f) => .next (s.result2 Config.stOk (settingGet (s.setting e) f))

/-- SETTING_WRITE (43 R253). -/
def execSettingWrite (id : Nat) (v : U32) (s : State) : Host.Outcome State Fault Refusal :=
  match decodeSettingId s.cfg id with
  | none => .next (s.result Config.stUnhandled)
  | some (e, f) =>
    if settingValid s.cfg f v then .next ((s.modSetting e (fun r => settingSet r f v)).result Config.stOk)
    else .next (s.result Config.stInvalid)

/-- SETTINGS_RESTORE (43 R256): every record of `0 .. N_ENC-1`. -/
def execSettingsRestore (s : State) : Host.Outcome State Fault Refusal :=
  .next (({ s with settings := List.replicate s.cfg.nEnc Config.restoredSettings }).result Config.stOk)

end Sys2Proof.Machine
end

