-- ==== Sys2Proof/Machine/Transmit.lean ====
section
/-! DEFINITION. The transmit side of the Async FIFO unit: PUT_BYTE, TX_COUNT, ISR_TX, CHAN_TX_DONE (40 sections 1, 3, 6). -/

namespace Sys2Proof.Machine

/-- Write a byte to the channel's transmit data register (40 R132, R163). -/
def State.sendByte (s : State) (b : Byte) : State := { s.emit (.txByte b) with hwTxEmpty := false }

/-- The enqueue of PUT_BYTE (40 R134): slot, head, interrupt enable, then the end of the operation. -/
def State.enqueueTx (s : State) (d : Byte) : State :=
  ({ s.txPush d with txie := true, putBlocked := false }).result 1

/-- One call of the blocking-wait callback (40 R133): an answer `true` holds MAIN at this PUT_BYTE, `false` fails it. -/
def State.waitForSpace (s : State) (d : Byte) : State :=
  match s.drawWait with
  | (true, t) => { t with putBlocked := true, heldByte := d }
  | (false, t) => ({ t with putBlocked := false }).result 0

/-- PUT_BYTE (40 R130 to R135). -/
def execPutByte (d : Byte) (s : State) : Host.Outcome State Fault Refusal :=
  if !s.putBlocked && s.directLegal then .next ((s.sendByte d).result 1)
  else if s.txFull then .next (s.waitForSpace d)
  else .next (s.enqueueTx d)

/-- TX_COUNT (40 R143). -/
def execTxCount (s : State) : Host.Outcome State Fault Refusal := .next (s.result (countResult s.txCount))

/-- `txie <- false` where the transmit buffer is empty (40 R163, R164). -/
def State.quietIfEmpty (s : State) : State := if s.txEmpty then { s with txie := false } else s

/-- ISR_TX (40 R163, R164). -/
def execIsrTx (s : State) : Host.Outcome State Fault Refusal :=
  if s.txEmpty then .next { s with txie := false }
  else .next (State.quietIfEmpty (s.txDrop.sendByte (s.txByte s.tx.tail)))

/-- CHAN_TX_DONE (40 R165). -/
def execChanTxDone (s : State) : Host.Outcome State Fault Refusal := .next { s with hwTxEmpty := true }

end Sys2Proof.Machine
end

