-- ==== Sys2Proof/Machine/Dispatch.lean ====
section
/-! DEFINITION. One arm per operation of the opcode table. -/

namespace Sys2Proof.Machine

def exec (i : Instr) (s : State) : Host.Outcome State Fault Refusal :=
  match i with
  | .putByte d => Sys2Proof.Machine.execPutByte d s
  | .getByte => Sys2Proof.Machine.execGetByte s
  | .txCount => Sys2Proof.Machine.execTxCount s
  | .rxCount => Sys2Proof.Machine.execRxCount s
  | .rxFree => Sys2Proof.Machine.execRxFree s
  | .rxOverflow => Sys2Proof.Machine.execRxOverflow s
  | .resumeInput => Sys2Proof.Machine.execResumeInput s
  | .isrRx d ovr fe => Sys2Proof.Machine.execIsrRx d ovr fe s
  | .isrTx => Sys2Proof.Machine.execIsrTx s
  | .isrRxErr ovr fe => Sys2Proof.Machine.execIsrRxErr ovr fe s
  | .chanTxDone => Sys2Proof.Machine.execChanTxDone s
  | .encEvent enc ev pos vel => Sys2Proof.Machine.execEncEvent enc ev pos vel s
  | .executeRealtime => Sys2Proof.Machine.execExecuteRealtime s
  | .settingRead id => Sys2Proof.Machine.execSettingRead id s
  | .settingWrite id val => Sys2Proof.Machine.execSettingWrite id val s
  | .settingsRestore => Sys2Proof.Machine.execSettingsRestore s

end Sys2Proof.Machine
end

