-- ==== Sys2Proof/Decode.lean ====
section
/-! DEFINITION. The opcode table (30_encoding R107), the decoder of operation words and of bytes, total and
rejecting by name, and the encoder, both written from R101 to R107. -/

namespace Sys2Proof

/-- The sixteen rows of R107, by name. -/
inductive Opcode where
  | putByte | getByte | txCount | rxCount | rxFree | rxOverflow | resumeInput
  | isrRx | isrTx | isrRxErr | chanTxDone | encEvent | executeRealtime
  | settingRead | settingWrite | settingsRestore
  deriving DecidableEq, Repr, Inhabited

/-- One row of the opcode map: the operation, its match, its mask and how many operand words follow. -/
structure Row where
  op           : Opcode
  pattern      : Word
  mask         : Word
  operandWords : Nat
  deriving DecidableEq, Repr

/-- The opcode map of R107. -/
def opcodeTable : List Row :=
  [ ⟨.putByte,         0x01000000, 0xFFFFFF00, 0⟩,
    ⟨.getByte,         0x02000000, 0xFFFFFFFF, 0⟩,
    ⟨.txCount,         0x03000000, 0xFFFFFFFF, 0⟩,
    ⟨.rxCount,         0x04000000, 0xFFFFFFFF, 0⟩,
    ⟨.rxFree,          0x05000000, 0xFFFFFFFF, 0⟩,
    ⟨.rxOverflow,      0x06000000, 0xFFFFFFFF, 0⟩,
    ⟨.resumeInput,     0x07000000, 0xFFFFFFFF, 0⟩,
    ⟨.isrRx,           0x10000000, 0xFFFCFF00, 0⟩ ] ++
  [ ⟨.isrTx,           0x11000000, 0xFFFFFFFF, 0⟩,
    ⟨.isrRxErr,        0x12000000, 0xFFFCFFFF, 0⟩,
    ⟨.chanTxDone,      0x18000000, 0xFFFFFFFF, 0⟩,
    ⟨.encEvent,        0x20000000, 0xFF00FFF8, 2⟩,
    ⟨.executeRealtime, 0x30000000, 0xFFFFFFFF, 0⟩,
    ⟨.settingRead,     0x40000000, 0xFFFF0000, 0⟩,
    ⟨.settingWrite,    0x41000000, 0xFFFF0000, 1⟩,
    ⟨.settingsRestore, 0x42000000, 0xFFFFFFFF, 0⟩ ]

/-- A head word selects a row iff its masked bits equal the row's match (R107). -/
def Row.selects (r : Row) (w : Word) : Bool := w &&& r.mask == r.pattern

/-- The row a head word selects, if any. -/
def selectRow (w : Word) : Option Row := opcodeTable.find? (·.selects w)

/-- Field `B[7:0]`, the data byte of format BY (R104). -/
def fieldD (w : Word) : Byte := w.extractLsb' 0 8
/-- Field `A[0]`, OVR (R104). -/
def fieldOvr (w : Word) : Bool := w.getLsbD 16
/-- Field `A[1]`, FE (R104). -/
def fieldFe (w : Word) : Bool := w.getLsbD 17
/-- Field `A`, the encoder id of format E (R106). -/
def fieldEnc (w : Word) : Nat := (w.extractLsb' 16 8).toNat
/-- Field `B[2:0]`, the event bits of format E (R106). -/
def fieldEv (w : Word) : BitVec 3 := w.extractLsb' 0 3
/-- Field `B`, the setting id of format S (R105). -/
def fieldId (w : Word) : Nat := (w.extractLsb' 0 16).toNat

/-- What decoding a stream of words gives: an operation and the words after it, or why there is none. -/
inductive Decoded where
  | ok (i : Instr) (rest : List Word)
  | illegal (w : Word)      -- the head word is illegal (R109)
  | truncated (w : Word)    -- operand words are missing at the end of the stream (R102, R272)
  | empty                   -- the stream holds no head word
  deriving DecidableEq, Repr

/-- The operation a selected head word and the words after it stand for. -/
def assemble (op : Opcode) (w : Word) (rest : List Word) : Decoded :=
  match op with
  | .putByte => .ok (.putByte (fieldD w)) rest
  | .getByte => .ok .getByte rest
  | .txCount => .ok .txCount rest
  | .rxCount => .ok .rxCount rest
  | .rxFree => .ok .rxFree rest
  | .rxOverflow => .ok .rxOverflow rest
  | .resumeInput => .ok .resumeInput rest
  | .isrRx => .ok (.isrRx (fieldD w) (fieldOvr w) (fieldFe w)) rest
  | .isrTx => .ok .isrTx rest
  | .isrRxErr => .ok (.isrRxErr (fieldOvr w) (fieldFe w)) rest
  | .chanTxDone => .ok .chanTxDone rest
  | .encEvent =>
    match rest with
    | pos :: vel :: rest' => .ok (.encEvent (fieldEnc w) (fieldEv w) pos vel) rest'
    | [_] => .truncated w
    | [] => .truncated w
  | .executeRealtime => .ok .executeRealtime rest
  | .settingRead => .ok (.settingRead (fieldId w)) rest
  | .settingWrite =>
    match rest with
    | val :: rest' => .ok (.settingWrite (fieldId w) val) rest'
    | [] => .truncated w
  | .settingsRestore => .ok .settingsRestore rest

/-- Decode the operation at the head of a stream of words: the row first, then its operand words (R102, R109). -/
def decode : List Word → Decoded
  | [] => .empty
  | w :: rest =>
    match selectRow w with
    | none => .illegal w
    | some r => assemble r.op w rest

/-- A word from its four bytes, least significant first (20_memory R84). -/
def wordOfBytes (b0 b1 b2 b3 : Byte) : Word := b3 ++ b2 ++ b1 ++ b0

/-- The four bytes of a word, least significant first (20_memory R84). -/
def bytesOfWord (w : Word) : List Byte :=
  [w.extractLsb' 0 8, w.extractLsb' 8 8, w.extractLsb' 16 8, w.extractLsb' 24 8]

/-- The whole words at the head of a byte stream; bytes that do not fill a word are no word (log 20). -/
def wordsOfBytes : List Byte → List Word
  | b0 :: b1 :: b2 :: b3 :: rest => wordOfBytes b0 b1 b2 b3 :: wordsOfBytes rest
  | [_, _, _] => []
  | [_, _] => []
  | [_] => []
  | [] => []

/-- The serialization of a stream of words as bytes. -/
def bytesOfWords : List Word → List Byte
  | [] => []
  | w :: rest => bytesOfWord w ++ bytesOfWords rest

/-- Decode the operation at the head of a byte stream. -/
def decodeBytes (bs : List Byte) : Decoded := decode (wordsOfBytes bs)

/-- The `n` bytes of a number, least significant first. -/
def bytesOfNat : Nat → Nat → List Byte
  | 0, _ => []
  | n + 1, v => BitVec.ofNat 8 v :: bytesOfNat n (v / 256)

/-- The bytes an operation of at most three words occupies, its bits numbered as spec/opcode_table.json numbers
them and every bit from `nbits` up zero. -/
def tableBytes (nbits w : Nat) : List Byte := bytesOfNat 12 (w % 2 ^ nbits)

/-- The operation the decoder reads from an operation whose bits are `w`, numbered as the opcode table does. -/
def decodeTableWord (nbits w : Nat) : Option Instr :=
  match decodeBytes (tableBytes nbits w) with
  | .ok i _ => some i
  | .illegal _ => none
  | .truncated _ => none
  | .empty => none

/-- A head word from its fields `OPC`, `A` and `B` (R101). -/
def headWord (opc : BitVec 8) (a : BitVec 8) (b : BitVec 16) : Word := opc ++ a ++ b

/-- The `A` field of formats BY and BE: OVR is bit 0, FE is bit 1 (R104). -/
def errBits (ovr fe : Bool) : BitVec 8 := 0#6 ++ BitVec.ofBool fe ++ BitVec.ofBool ovr

/-- The words of an operation (R103 to R107). -/
def encode : Instr → List Word
  | .putByte d => [headWord 0x01 0 (0#8 ++ d)]
  | .getByte => [headWord 0x02 0 0]
  | .txCount => [headWord 0x03 0 0]
  | .rxCount => [headWord 0x04 0 0]
  | .rxFree => [headWord 0x05 0 0]
  | .rxOverflow => [headWord 0x06 0 0]
  | .resumeInput => [headWord 0x07 0 0]
  | .isrRx d ovr fe => [headWord 0x10 (errBits ovr fe) (0#8 ++ d)]
  | .isrTx => [headWord 0x11 0 0]
  | .isrRxErr ovr fe => [headWord 0x12 (errBits ovr fe) 0]
  | .chanTxDone => [headWord 0x18 0 0]
  | .encEvent enc ev pos vel => [headWord 0x20 (BitVec.ofNat 8 enc) (0#13 ++ ev), pos, vel]
  | .executeRealtime => [headWord 0x30 0 0]
  | .settingRead id => [headWord 0x40 0 (BitVec.ofNat 16 id)]
  | .settingWrite id val => [headWord 0x41 0 (BitVec.ofNat 16 id), val]
  | .settingsRestore => [headWord 0x42 0 0]

/-- The agent an operation belongs to (R107, R108). -/
def Instr.agent : Instr → Agent
  | .putByte _ => .main
  | .getByte => .main
  | .txCount => .main
  | .rxCount => .main
  | .rxFree => .main
  | .rxOverflow => .main
  | .resumeInput => .main
  | .isrRx _ _ _ => .sisr
  | .isrTx => .sisr
  | .isrRxErr _ _ => .sisr
  | .chanTxDone => .chan
  | .encEvent _ _ _ _ => .eisr
  | .executeRealtime => .main
  | .settingRead _ => .main
  | .settingWrite _ _ => .main
  | .settingsRestore => .main

end Sys2Proof
end

