-- ==== Sys2Proof/Machine/Fetch.lean ====
section
/-! DEFINITION. How an operation reaches the block (00_scope R9, 30_encoding R100, 60 R274, R276, R280): the next
offer of the scheduled agent, and whether it is admitted. -/

namespace Sys2Proof.Machine

/-- The words an agent still offers. -/
def Streams.ofAgent (w : Streams) : Agent → List Word
  | .main => w.main
  | .sisr => w.sisr
  | .eisr => w.eisr
  | .chan => w.chan

/-- Replace the words an agent still offers. -/
def Streams.setAgent (w : Streams) (a : Agent) (ws : List Word) : Streams :=
  match a with
  | .main => { w with main := ws }
  | .sisr => { w with sisr := ws }
  | .eisr => { w with eisr := ws }
  | .chan => { w with chan := ws }

/-- The state after the scheduler's choice and the offered words are taken: `sched` and `streams` move on, nothing
of the block changes (log 8, log 9). -/
def State.takeOffer (s : State) (a : Agent) (later : List Agent) (rest : List Word) : State :=
  { s with sched := later, streams := s.streams.setAgent a rest }

/-- While `put_blocked`, the only MAIN operation is the held PUT_BYTE (60 R276 b). -/
def State.heldOperation (s : State) (i : Instr) : Bool :=
  !s.putBlocked || i == .putByte s.heldByte

/-- The refusals of an offer, in order (60 R276, R280): the agent's own operation, the held PUT_BYTE, an enabled
step. -/
def State.admission (s : State) (a : Agent) (i : Instr) : Option Refusal :=
  if i.agent ≠ a then some .wrongAgent
  else if a = .main ∧ s.heldOperation i = false then some .blocked
  else if s.enabled i = false then some .notEnabled
  else none

/-- What the next step is offered: an operation with the state it runs in, or the fault or refusal that comes
first (60 R274: decode faults before refusals). -/
inductive Offer where
  | run (i : Instr) (t : State)
  | fault (f : Fault)
  | refused (r : Refusal)
  deriving DecidableEq, Repr

/-- The scheduled agent's next operation (log 8): decode its stream, then see whether it is admitted. -/
def State.offerOf (s : State) (a : Agent) (later : List Agent) : Offer :=
  match decode (s.streams.ofAgent a) with
  | .empty => .refused .nothingOffered
  | .illegal w => .fault (.illegalOperation w)
  | .truncated w => .fault (.truncatedOperation w)
  | .ok i rest =>
    match s.admission a i with
    | some r => .refused r
    | none => .run i (s.takeOffer a later rest)

/-- The next offer. A state that carries a fault or a refusal mark has none (10_state R63, 60 R275, R276; log 12). -/
def State.nextOffer (s : State) : Offer :=
  match s.fault with
  | some f => .fault f
  | none =>
    if s.refused then .refused .runEnded
    else
      match s.sched with
      | [] => .refused .nothingOffered
      | a :: later => s.offerOf a later

/-- The condition an interrupt or channel step waits for (60 R280), raised so that the step can be taken (log 11). -/
def State.raiseCondition (s : State) : Instr → State
  | .isrTx => { s with txie := true, hwTxEmpty := true }
  | .chanTxDone => { s with hwTxEmpty := false }
  | .putByte _ => s
  | .getByte => s
  | .txCount => s
  | .rxCount => s
  | .rxFree => s
  | .rxOverflow => s
  | .resumeInput => s
  | .isrRx _ _ _ => s
  | .isrRxErr _ _ => s
  | .encEvent _ _ _ _ => s
  | .executeRealtime => s
  | .settingRead _ => s
  | .settingWrite _ _ => s
  | .settingsRestore => s

/-- Put words at the head of an agent's stream and schedule it next. -/
def State.offerWords (s : State) (a : Agent) (ws : List Word) : State :=
  { s with sched := a :: s.sched, streams := s.streams.setAgent a (ws ++ s.streams.ofAgent a) }

/-- Offer the operation whose bits the opcode table numbers as `w` (log 11): the words it decodes from, to its own
agent, with the condition it waits for raised. A word that is no operation is offered by MAIN as it stands. -/
def State.placeTableWord (s : State) (nbits w : Nat) : State :=
  let ws := wordsOfBytes (tableBytes nbits w)
  match decode ws with
  | .ok i rest => (s.raiseCondition i).offerWords i.agent (ws.take (ws.length - rest.length))
  | .illegal h => s.offerWords .main [h]
  | .truncated h => s.offerWords .main [h]
  | .empty => s

end Sys2Proof.Machine
end

