-- ==== Sys2Proof/Machine/Step.lean ====
section
/-! DEFINITION. One step of the machine: the scheduled agent's next operation, taken atomically (20_memory R87, R91). -/

namespace Sys2Proof.Machine

/-- One step: the next offer is refused, faults, or runs. -/
def step (s : State) : Host.Outcome State Fault Refusal :=
  match s.nextOffer with
  | .run i t => exec i t
  | .fault f => raiseFault f
  | .refused r => .refused r

/-- The state with an operation of the opcode table offered next (log 11). -/
def State.withFetchWord (s : State) (nbits w : Nat) : State := s.placeTableWord nbits w

end Sys2Proof.Machine
end

