-- ==== Sys2Proof/Machine/Boot.lean ====
section
/-! DEFINITION. Initialization (70 R300 to R305): the configuration check and the state a run starts in, for any
parameters and any persisted settings. -/

namespace Sys2Proof.Machine

/-- The modes the store names; `none` where a value is no mode (70 R301). -/
def storedModes (p : Params) (store : List Settings) : List (Option Mode) :=
  store.map (fun r => modeOfCode p.nAxis r.mode.toNat)

/-- The configuration check accepts (70 R301): every value is a mode; at most one Universal; no two MPG_k for one
k; an MPG (all axes) encoder is the only encoder in an MPG mode. -/
def bindingsOk (p : Params) (store : List Settings) : Bool :=
  let ms := storedModes p store
  ms.all (fun m => m.isSome) &&
  ms.count (some .universal) ≤ 1 &&
  (List.range p.nAxis).all (fun k => ms.count (some (.mpgAxis k)) ≤ 1) &&
  (ms.count (some .mpg) == 0 || (ms.filterMap id).countP isMpg ≤ 1)

/-- One encoder from its stored mode (70 R302). -/
def initEncoder (m : Mode) : Encoder :=
  match m with
  | .universal => ⟨.feedRate, none, 0, 0, ⟨false, false, false⟩⟩
  | .feedRate => ⟨.feedRate, none, 0, 0, ⟨false, false, false⟩⟩
  | .rapidRate => ⟨.rapidRate, none, 0, 0, ⟨false, false, false⟩⟩
  | .spindleRPM => ⟨.spindleRPM, none, 0, 0, ⟨false, false, false⟩⟩
  | .mpg => ⟨.mpg, some 0, 0, 0, ⟨false, false, false⟩⟩
  | .mpgAxis k => ⟨.mpgAxis k, some k, 0, 0, ⟨false, false, false⟩⟩

/-- The first encoder that satisfies a test. -/
def firstEncoder (test : Encoder → Bool) : List Encoder → Option Nat
  | [] => none
  | x :: xs => if test x then some 0 else (firstEncoder test xs).map (· + 1)

/-- The index of the encoder configured Universal (70 R302). -/
def universalIndex : List Mode → Option Nat
  | [] => none
  | m :: ms => if m = .universal then some 0 else (universalIndex ms).map (· + 1)

/-- One MPG axis from the encoders (70 R303). -/
def initAxis (encs : List Encoder) (k : Nat) : Axis :=
  { enc := firstEncoder (fun x => x.axis == some k) encs
    position := 0
    pos := 0
    scale := .x1
    event := ⟨false, false, false, false, false, false⟩
    flags := ⟨false, false, false, false⟩
    nextEvent := 0 }

/-- The state after initialization (70 R304), from the parameters, the store and its modes. What the spec leaves
unspecified takes State.reset's values (log 4, 5, 6, 9). -/
def bootState (p : Params) (store : List Settings) (modes : List Mode) : State :=
  { State.reset with
    cfg := p
    encs := modes.map initEncoder
    universal := universalIndex modes
    axes := (List.range p.nAxis).map (initAxis (modes.map initEncoder))
    settings := store }

/-- Initialization (70 R304): the configuration check, then the state the run starts in. -/
def State.boot (p : Params) (store : List Settings) : Host.Outcome State Fault Refusal :=
  if bindingsOk p store then .next (bootState p store ((storedModes p store).filterMap id))
  else .refused .configRefused

end Sys2Proof.Machine
end

