-- ==== Sys2Proof/Machine/Pseudo.lean ====
section
/-! DEFINITION. The pseudo-operations WRITE_STRING and WRITE_LINE (30_encoding R118) and the written form of
operations (R116). Both are MAIN's own, outside the block: they say which operation MAIN offers next. -/

namespace Sys2Proof.Machine

/-- MAIN's progress through a WRITE_STRING: the bytes still to be put, and whether every PUT_BYTE so far returned 1. -/
structure Writer where
  todo : List Byte
  ok   : Bool
  deriving DecidableEq, Repr, Inhabited

/-- WRITE_STRING s (R118). -/
def writeString (bs : List Byte) : Writer := ⟨bs, true⟩

/-- WRITE_LINE s (R118): the text, then EOL_SEQ if every PUT_BYTE of the text succeeded; since the expansion stops at
the first failure, it is the expansion of the text followed by EOL_SEQ. -/
def writeLine (p : Params) (bs : List Byte) : Writer := writeString (bs ++ p.eolSeq)

/-- The PUT_BYTE the writer offers next; none once it has failed or is done. -/
def Writer.next (w : Writer) : Option Instr :=
  if w.ok then w.todo.head?.map Instr.putByte else none

/-- The writer after the step of its PUT_BYTE left the state `t`: a held PUT_BYTE is offered again, a failed one ends
the expansion, a completed one moves on. -/
def Writer.after (w : Writer) (t : State) : Writer :=
  if t.putBlocked then w
  else if t.res0 = 1 then ⟨w.todo.tail, w.ok⟩
  else ⟨w.todo, false⟩

/-- The result of the pseudo-operation once there is no PUT_BYTE left to offer: 1 if every one returned 1, else 0. -/
def Writer.result (w : Writer) : Option I32 :=
  if w.next.isSome then none else some (if w.ok then 1 else 0)

/-- The written name of an agent (R116). -/
def agentName : Agent → String
  | .main => "MAIN"
  | .sisr => "SISR"
  | .eisr => "EISR"
  | .chan => "CHAN"

/-- Operands joined by a comma. -/
def operands : List String → String
  | [] => ""
  | [x] => " " ++ x
  | x :: y :: rest => " " ++ x ++ "," ++ operands (y :: rest)

/-- The `ovr` and `fe` operands that are set (R116). -/
def errorOperands (ovr fe : Bool) : List String :=
  (if ovr then ["ovr"] else []) ++ (if fe then ["fe"] else [])

/-- The event operand: a subset of `pc`, `click`, `dclick` joined by bars, or `0` (R116). -/
def eventOperand (ev : EncEvents) : String :=
  let names := (if ev.posChanged then ["pc"] else []) ++ (if ev.click then ["click"] else []) ++
    (if ev.doubleClick then ["dclick"] else [])
  if names.isEmpty then "0" else String.intercalate "|" names

/-- An operation as R116 writes it, numbers in decimal. -/
def renderInstr (i : Instr) : String :=
  agentName i.agent ++ ": " ++
  match i with
  | .putByte d => "PUT_BYTE" ++ operands [toString d.toNat]
  | .getByte => "GET_BYTE"
  | .txCount => "TX_COUNT"
  | .rxCount => "RX_COUNT"
  | .rxFree => "RX_FREE"
  | .rxOverflow => "RX_OVERFLOW"
  | .resumeInput => "RESUME_INPUT"
  | .isrRx d ovr fe => "ISR_RX" ++ operands (toString d.toNat :: errorOperands ovr fe)
  | .isrTx => "ISR_TX"
  | .isrRxErr ovr fe => "ISR_RX_ERR" ++ operands (errorOperands ovr fe)
  | .chanTxDone => "CHAN_TX_DONE"
  | .encEvent enc ev pos vel =>
    "ENC_EVENT" ++ operands [toString enc, eventOperand (eventsOfBits ev), toString pos.toInt, toString vel.toNat]
  | .executeRealtime => "EXECUTE_REALTIME"
  | .settingRead id => "SETTING_READ" ++ operands [toString id]
  | .settingWrite id val => "SETTING_WRITE" ++ operands [toString id, toString val.toNat]
  | .settingsRestore => "SETTINGS_RESTORE"

end Sys2Proof.Machine
end

