-- ==== Sys2Proof/Safety.lean ====
section
/-! DEFINITION. What claims are stated in: the contents of the buffers, the invariants the spec states of its state,
and the parts of the state an operation leaves alone. -/

namespace Sys2Proof.Machine

/-! ### The buffers as queues (10_state R33 to R35) -/

/-- `n` consecutive slots from `i`, wrapping at capacity `c`. -/
def slots (byteAt : Nat → Byte) (c : Nat) : Nat → Nat → List Byte
  | _, 0 => []
  | i, n + 1 => byteAt i :: slots byteAt c (ringNext i c) n

/-- The queued transmit bytes, oldest first. -/
def State.txQueue (s : State) : List Byte := slots s.txByte s.cfg.txCap s.tx.tail s.txCount

/-- The queued receive bytes of the live buffer, oldest first. -/
def State.rxQueue (s : State) : List Byte := slots s.rxByte s.cfg.rxCap s.rx.tail s.rxCount

/-- The byte of a TxByte event. -/
def txByteOf : OutEvent → Option Byte
  | .txByte b => some b
  | .rtRx _ => none
  | .rtCmd _ => none
  | .motion _ _ => none
  | .counterReset _ => none
  | .statusMsg _ => none

/-- The bytes a history wrote to the channel, in order (00_scope R17). -/
def sentBytes (out : List OutEvent) : List Byte := out.filterMap txByteOf

/-! ### Invariants -/

/-- A ring of capacity `c` (10_state R33, R34, R38, 20_memory R80): canonical storage, slots below `c`, indices below
`c`. -/
def Ring.Ok (c : Nat) (r : Ring) : Prop :=
  r.mem.wf = true ∧ r.mem.within c = true ∧ r.head < c ∧ r.tail < c

/-- The parameters meet R19 and the three rings are rings of their capacity. -/
def State.BuffersOk (s : State) : Prop :=
  s.cfg.WellFormed = true ∧ Ring.Ok s.cfg.txCap s.tx ∧ Ring.Ok s.cfg.rxCap s.rx.toRing ∧
  Ring.Ok s.cfg.rxCap s.bak.toRing

/-- `txie = not empty(tx_head, tx_tail)` (40 R166). -/
def State.TransmitOk (s : State) : Prop := s.txie = !s.txEmpty

/-- `reader = Null` iff `rx_backup` (10_state R39), and a held snapshot was taken outside an interception (R37). -/
def State.ReaderOk (s : State) : Prop :=
  (s.reader = .null ↔ s.rx.backup = true) ∧ (s.rx.backup = true → s.bak.backup = false)

/-- The arrays keep their build-time sizes (10_state R43, R53, R60). -/
def State.ArraysOk (s : State) : Prop :=
  s.encs.length = s.cfg.nEnc ∧ s.axes.length = s.cfg.nAxis ∧ s.settings.length = s.cfg.nEnc

/-- One encoder's mode and axis (10_state R45, R46) and its consumed event set (R49). -/
def Encoder.Ok (nAxis : Nat) (x : Encoder) : Prop :=
  x.event = ⟨false, false, false⟩ ∧
  (match x.mode with
   | .universal => False
   | .feedRate => x.axis = none
   | .rapidRate => x.axis = none
   | .spindleRPM => x.axis = none
   | .mpg => ∃ c, c < nAxis ∧ x.axis = some c
   | .mpgAxis k => k < nAxis ∧ x.axis = some k)

/-- Every encoder is well formed; the universal encoder is one of them in an override mode (10_state R45, R50); a
message is pending only where there is one (R51). -/
def State.EncodersOk (s : State) : Prop :=
  (∀ e, e < s.cfg.nEnc → Encoder.Ok s.cfg.nAxis (s.enc e)) ∧
  (∀ u, s.universal = some u → u < s.cfg.nEnc ∧ isOverride (s.enc u).mode = true) ∧
  (s.modeMsgPending = true → s.universal.isSome = true)

/-- The back-references (10_state R53), and the exclusion that keeps them unique (70 R301): an MPG (all axes) encoder
is the only encoder in an MPG mode. -/
def State.BindingOk (s : State) : Prop :=
  (∀ k e, k < s.cfg.nAxis →
    ((s.axis k).enc = some e ↔ e < s.cfg.nEnc ∧ (s.enc e).axis = some k ∧ isMpg (s.enc e).mode = true)) ∧
  (∀ e e', e < s.cfg.nEnc → e' < s.cfg.nEnc → (s.enc e).mode = .mpg → isMpg (s.enc e').mode = true → e' = e)

/-- The pending mask has `N_AXIS` bits (10_state R56); an axis whose bit is clear has no event (42 R213); lock and reset
events and the unused flags are never set (10_state R58, R59). -/
def State.PendingOk (s : State) : Prop :=
  (∀ k, s.cfg.nAxis ≤ k → s.pendingAxes.getLsbD k = false) ∧
  (∀ k, k < s.cfg.nAxis → s.pendingAxes.getLsbD k = false →
    (s.axis k).event = ⟨false, false, false, false, false, false⟩) ∧
  (∀ k, k < s.cfg.nAxis → (s.axis k).event.lock = false ∧ (s.axis k).event.reset = false ∧
    (s.axis k).flags.zero = false ∧ (s.axis k).flags.lock = false ∧ (s.axis k).flags.reset = false)

/-- Every stored mode is a mode (10_state R60, 43 R251). -/
def State.SettingsOk (s : State) : Prop :=
  ∀ e, e < s.cfg.nEnc → (s.setting e).mode.toNat ≤ 4 + s.cfg.nAxis

/-- The invariant of the block: what the spec states of every step boundary of a run. -/
structure State.Inv (s : State) : Prop where
  buffers  : s.BuffersOk
  transmit : s.TransmitOk
  reader   : s.ReaderOk
  arrays   : s.ArraysOk
  encoders : s.EncodersOk
  binding  : s.BindingOk
  pending  : s.PendingOk
  settings : s.SettingsOk
  guard    : s.guard = false

/-- A run that can go on: the invariant, and no fault or refusal recorded (10_state R63). -/
def State.Safe (s : State) : Prop := s.Inv ∧ s.fault = none ∧ s.refused = false

/-! ### What an operation leaves alone: every field of the state stands in exactly one of these groups -/

/-- RES0 and RES1. -/
def SameResults (s t : State) : Prop := t.res0 = s.res0 ∧ t.res1 = s.res1

/-- The blocked PUT_BYTE. -/
def SameBlocked (s t : State) : Prop := t.putBlocked = s.putBlocked ∧ t.heldByte = s.heldByte

/-- The transmit buffer: its indices and every byte of TXBUF. -/
def SameTxBuffer (s t : State) : Prop :=
  t.tx.head = s.tx.head ∧ t.tx.tail = s.tx.tail ∧ ∀ a, t.tx.mem.read a = s.tx.mem.read a

/-- The channel's flags. -/
def SameChannel (s t : State) : Prop := t.txie = s.txie ∧ t.hwTxEmpty = s.hwTxEmpty

/-- The receive buffer: its indices and flags and every byte of RXBUF. -/
def SameRxBuffer (s t : State) : Prop :=
  t.rx.head = s.rx.head ∧ t.rx.tail = s.rx.tail ∧ t.rx.overflow = s.rx.overflow ∧ t.rx.backup = s.rx.backup ∧
  ∀ a, t.rx.mem.read a = s.rx.mem.read a

/-- The backup slot: its fields and every byte of RXBAK. -/
def SameBackup (s t : State) : Prop :=
  t.bak.head = s.bak.head ∧ t.bak.tail = s.bak.tail ∧ t.bak.overflow = s.bak.overflow ∧
  t.bak.backup = s.bak.backup ∧ ∀ a, t.bak.mem.read a = s.bak.mem.read a

/-- The encoders, the override selector, the message request, the ratchet. -/
def SameEncoders (s t : State) : Prop :=
  t.encs = s.encs ∧ t.universal = s.universal ∧ t.modeMsgPending = s.modeMsgPending ∧ t.rapidLevel = s.rapidLevel

/-- The MPG axes and the pending mask. -/
def SameAxes (s t : State) : Prop := t.axes = s.axes ∧ t.pendingAxes = s.pendingAxes

/-- The parameters, the marks, the schedule and the offered words: no operation's meaning writes them. -/
def SameRun (s t : State) : Prop :=
  t.cfg = s.cfg ∧ t.fault = s.fault ∧ t.refused = s.refused ∧ t.sched = s.sched ∧
  t.streams = s.streams

/-- All of the transport. -/
def SameTransport (s t : State) : Prop :=
  SameBlocked s t ∧ SameTxBuffer s t ∧ SameChannel s t ∧ SameRxBuffer s t ∧ SameBackup s t ∧ t.reader = s.reader

/-- All of the encoder engine, the settings included. -/
def SameEngine (s t : State) : Prop := SameEncoders s t ∧ SameAxes s t ∧ t.settings = s.settings

/-! ### Head words by their fields (30_encoding R101) -/

def opcOf (w : Word) : Nat := w.toNat / 2 ^ 24
def aOf (w : Word) : Nat := w.toNat / 2 ^ 16 % 2 ^ 8
def bOf (w : Word) : Nat := w.toNat % 2 ^ 16

/-- The head words that formats N, BY, BE, S and E allow (R103 to R106), with the opcodes R107 gives each format. -/
def LegalHead (w : Word) : Prop :=
  (opcOf w ∈ [0x02, 0x03, 0x04, 0x05, 0x06, 0x07, 0x11, 0x18, 0x30, 0x42] ∧ aOf w = 0 ∧ bOf w = 0) ∨
  (opcOf w = 0x01 ∧ aOf w = 0 ∧ bOf w < 2 ^ 8) ∨
  (opcOf w = 0x10 ∧ aOf w < 2 ^ 2 ∧ bOf w < 2 ^ 8) ∨
  (opcOf w = 0x12 ∧ aOf w < 2 ^ 2 ∧ bOf w = 0) ∨
  (opcOf w = 0x20 ∧ bOf w < 2 ^ 3) ∨
  (opcOf w ∈ [0x40, 0x41] ∧ aOf w = 0)

/-! ### Sequences of operations -/

/-- Perform operations one after another; nothing where one of them does not end in a next state. -/
def runOps : List Instr → State → Option State
  | [], s => some s
  | i :: is, s =>
    match exec i s with
    | .next t => runOps is t
    | .fault _ => none
    | .refused _ => none

/-- `n` GET_BYTE in a row: their results in order, and the state after them. -/
def readBytes : Nat → State → Option (List I32 × State)
  | 0, s => some ([], s)
  | n + 1, s =>
    match exec .getByte s with
    | .next t => (readBytes n t).map (fun r => (t.res0 :: r.1, r.2))
    | .fault _ => none
    | .refused _ => none

/-- The byte a completed operation took for transmission: that of a PUT_BYTE that ended with result 1. -/
def acceptedByte (i : Instr) (t : State) : List Byte :=
  match i with
  | .putByte d => if t.putBlocked = false ∧ t.res0 = 1 then [d] else []
  | .getByte => []
  | .txCount => []
  | .rxCount => []
  | .rxFree => []
  | .rxOverflow => []
  | .resumeInput => []
  | .isrRx _ _ _ => []
  | .isrTx => []
  | .isrRxErr _ _ => []
  | .chanTxDone => []
  | .encEvent _ _ _ _ => []
  | .executeRealtime => []
  | .settingRead _ => []
  | .settingWrite _ _ => []
  | .settingsRestore => []

/-- The bytes accepted for transmission along a sequence of operations, in order, and the state after it. -/
def runAccepting : List Instr → State → Option (List Byte × State)
  | [], s => some ([], s)
  | i :: is, s =>
    match exec i s with
    | .next t => (runAccepting is t).map (fun r => (acceptedByte i t ++ r.1, r.2))
    | .fault _ => none
    | .refused _ => none

/-! ### Values the statements compute on their own -/

/-- The value lies in the Int32 range (00_scope R21). -/
def InInt32 (x : Int) : Prop := -2 ^ 31 ≤ x ∧ x ≤ 2 ^ 31 - 1

/-- The normalized count `position*100 / cpr`, truncated toward zero (41 R181). -/
def normalized (p : I32) (cpr : U32) : Int := (p.toInt * 100).tdiv cpr.toNat

/-- The axes a tick moves (42 R218, R221): flagged for a position change, bound, and with an encoder that has moved
since the last consumption; ascending. -/
def State.movingAxes (s : State) : List Nat :=
  (List.range s.cfg.nAxis).filter (fun k =>
    s.pendingAxes.getLsbD k && (s.axis k).event.posChanged &&
    (match (s.axis k).enc with
     | none => false
     | some e => (s.enc e).position != (s.axis k).position))

/-- The encoder bound to an axis. -/
def State.boundEncoder (s : State) (k : Nat) : Encoder := s.enc ((s.axis k).enc.getD 0)

/-- The displacement of an axis in hundredths (42 R224): `delta * scale`. -/
def State.displacement (s : State) (k : Nat) : Int :=
  ((s.boundEncoder k).position.toInt - (s.axis k).position.toInt) * scaleFactor (s.axis k).scale

/-- `f` is the least non-zero velocity among some axes (42 R225). -/
def State.IsSlowest (s : State) (ks : List Nat) (f : U32) : Prop :=
  f ≠ 0 ∧ (∃ k, k ∈ ks ∧ (s.boundEncoder k).velocity = f) ∧
  ∀ k, k ∈ ks → (s.boundEncoder k).velocity ≠ 0 → f.toNat ≤ (s.boundEncoder k).velocity.toNat

/-- No zero, scale or stop event is flagged: what a tick finds pending is position changes. -/
def State.OnlyMovement (s : State) : Prop :=
  ∀ k, k < s.cfg.nAxis → s.pendingAxes.getLsbD k = true →
    (s.axis k).event.zero = false ∧ (s.axis k).event.scale = false ∧ (s.axis k).event.stop = false

/-- Exactly axis `k` is flagged, with the event set `ev`. -/
def State.OnlyAxis (s : State) (k : Nat) (ev : AxisEvents) : Prop :=
  k < s.cfg.nAxis ∧ k < 16 ∧ s.pendingAxes = 1#16 <<< k ∧ (s.axis k).event = ev

/-- The displacements of some axes as the motion command carries them (42 R222). -/
def State.displacements (s : State) (ks : List Nat) : List (Nat × I32) :=
  ks.map (fun k => (k, BitVec.ofInt 32 (s.displacement k)))

/-- The absolute targets of some axes as the motion command carries them (42 R226). -/
def State.targets (s : State) (ks : List Nat) : List (Nat × I32) :=
  ks.map (fun k => (k, BitVec.ofInt 32 ((s.axis k).pos.toInt + s.displacement k)))

/-- The next machine state the environment reports lets events be processed (42 R212). -/
def State.gateWillOpen (s : State) : Prop := s.drawMachineState.1 = .idle ∨ s.drawMachineState.1 = .jogging

/-! ### A whole tick in closed form: what the actions of all flagged axes leave (42 R213 to R219) -/

/-- What the environment answers to the actions of each axis: whether its zeroing is accepted (00_scope R14), its machine
position and the time (R16). -/
structure TickAnswers where
  accepted : Nat → Bool
  origin   : Nat → I32
  now      : Nat → U32

/-- The axes flagged, ascending (42 R213, R214). -/
def State.flagged (s : State) : List Nat := (List.range s.cfg.nAxis).filter (fun k => s.pendingAxes.getLsbD k)

/-- The axis starts in this tick (42 R218, R219 a): a position change finds it at rest, or stopped just before it. -/
def State.starts (s : State) (k : Nat) : Bool :=
  (s.axis k).event.posChanged && (!(s.axis k).flags.moving || (s.axis k).event.stop)

/-- The answers to the actions of some axes in their order (42 R214), drawn from the state `d` on, and the state after
the draws: for each axis the answer to its zeroing if it zeroes, then its origin and the time if it starts. -/
def State.answersFrom (s : State) : List Nat → State → TickAnswers × State
  | [], d => (⟨fun _ => false, fun _ => 0, fun _ => 0⟩, d)
  | k :: ks, d =>
    let a := if (s.axis k).event.zero then d.drawAccept (.zeroAxis k) else (false, d)
    let o := if s.starts k then a.2.drawMachinePos k else (0, a.2)
    let n := if s.starts k then o.2.drawNowMs else (0, o.2)
    let w := s.answersFrom ks n.2
    (⟨fun j => if j = k then a.1 else w.1.accepted j, fun j => if j = k then o.1 else w.1.origin j,
      fun j => if j = k then n.1 else w.1.now j⟩, w.2)

/-- The answers of a tick whose gate opens: the machine state first (42 R212), then those to the flagged axes. -/
def State.tickAnswers (s : State) : TickAnswers × State := s.answersFrom s.flagged s.drawMachineState.2

/-- A flagged axis after its actions. Zero: an accepted zeroing zeroes the last-consumed position (42 R215). Scale: times
10, wrapping (R216). Stop, then position-changed: the axis ends moving if its position changed, or if it moved and was
not stopped; one that starts takes the machine position as origin and a new deadline (R217 to R219). -/
def State.axisAfter (s : State) (w : TickAnswers) (k : Nat) : Axis :=
  let x := s.axis k
  { enc := x.enc
    position := if x.event.zero && w.accepted k then 0 else x.position
    pos := if s.starts k then w.origin k else x.pos
    scale := if x.event.scale
      then (match x.scale with
            | .x1 => .x10
            | .x10 => .x100
            | .x100 => .x1)
      else x.scale
    event := ⟨false, false, false, false, false, false⟩
    flags := { x.flags with moving := x.event.posChanged || (x.flags.moving && !x.event.stop) }
    nextEvent := if s.starts k then BitVec.ofNat 32 ((w.now k).toNat + s.cfg.mpgIntervalMs) else x.nextEvent }

/-- A flagged axis had its zeroing accepted and is bound to the encoder (42 R215). -/
def State.encoderZeroed (s : State) (w : TickAnswers) (e : Nat) : Bool :=
  s.flagged.any (fun k => (s.axis k).event.zero && w.accepted k && (s.axis k).enc == some e)

/-- What the actions of a flagged axis emit, in order (42 R214): the zeroing command with its answer and, where it is
accepted and an encoder is bound, the counter reset (R215, R219 c); then the jog cancel where a moving axis stops
(R217). -/
def State.actionEvents (s : State) (w : TickAnswers) (k : Nat) : List OutEvent :=
  let x := s.axis k
  (if x.event.zero then .motion (.zeroAxis k) (w.accepted k) ::
      (if w.accepted k then x.enc.toList.map .counterReset else [])
    else []) ++
  (if x.event.stop && x.flags.moving then [.rtCmd s.cfg.rtJogCancel] else [])

/-- The state after the actions of every flagged axis, before the batched move (42 R213 to R219): the pending mask and
the flagged axes' event sets are consumed, each flagged axis is as its actions leave it, the others are as they were,
the encoders of accepted zeroings stand at 0, and the events follow one another in ascending axis order. -/
def State.afterActions (s : State) : State :=
  let w := s.tickAnswers.1
  { s with
    axes := (List.range s.cfg.nAxis).map (fun k => if s.pendingAxes.getLsbD k then s.axisAfter w k else s.axis k)
    encs := (List.range s.cfg.nEnc).map (fun e => if s.encoderZeroed w e then { s.enc e with position := 0 } else s.enc e)
    pendingAxes := 0
    guard := false
    env := s.tickAnswers.2.env
    out := s.out ++ s.flagged.flatMap (s.actionEvents w) }

/-- The axis is bound, and its encoder stands elsewhere than the last-consumed position (42 R221). -/
def State.hasMoved (s : State) (k : Nat) : Bool :=
  match (s.axis k).enc with
  | none => false
  | some e => (s.enc e).position != (s.axis k).position

/-- The axes the batched move of a tick takes in (42 R221), ascending: flagged for a position change, and moved as the
actions of the tick leave them. -/
def State.contributors (s : State) : List Nat :=
  s.flagged.filter (fun k => (s.axis k).event.posChanged && s.afterActions.hasMoved k)

/-- The delta and the displacement of an axis are Int32 values (42 R223, R224). -/
def State.MoveInRange (s : State) (k : Nat) : Prop :=
  InInt32 ((s.boundEncoder k).position.toInt - (s.axis k).position.toInt) ∧ InInt32 (s.displacement k)

end Sys2Proof.Machine
end

