-- ==== Sys2Proof/Certificates/Slice0/Obligations.lean ====
section
/-! DEFINITION. The statements for the provers. Each docstring names the rules of spec/ it formalises. -/

open Sys2Proof Sys2Proof.Machine

/-! ### Encoding (30_encoding) -/

/-- Decoding the words of a well-formed operation gives it back, with what follows it left over (R101 to R107), and so
does decoding their bytes, least significant first (20_memory R84).
Rests also on 92_eei_decisions D8, D9; the spec's own derivations in R107. -/
def Obligations.DecodeOfEncodeIsTheInstruction : Prop :=
  ∀ (i : Instr) (rest : List Word), i.WellFormed = true →
    decode (encode i ++ rest) = .ok i rest ∧ decodeBytes (bytesOfWords (encode i ++ rest)) = .ok i rest

/-- What decodes is a well-formed operation, and the words it was read from are its encoding: no word has two
meanings and no bit of a word is ignored (R107, R109).
Rests also on 92_eei_decisions D8, D10; the spec's own derivations in R107. -/
def Obligations.DecodedWordsAreTheEncoding : Prop :=
  ∀ (ws : List Word) (i : Instr) (rest : List Word),
    decode ws = .ok i rest → i.WellFormed = true ∧ ws = encode i ++ rest

/-- A head word is illegal exactly when its opcode is not in the map or a reserved field is not zero (R109), the
fields being those of formats N, BY, BE, S and E; and at most one row of the map matches any word (R107).
Rests also on 92_eei_decisions D8, D10; the spec's own derivations in R107. -/
def Obligations.IllegalExactlyOutsideTheFormats : Prop :=
  (∀ (w : Word) (rest : List Word), decode (w :: rest) = .illegal w ↔ ¬ LegalHead w) ∧
  (∀ (w : Word) (r r' : Row), r ∈ opcodeTable → r' ∈ opcodeTable → r.selects w = true → r'.selects w = true → r = r')

/-- Words of 95_test_vectors decode to the operations written beside them there, one at least of every family.
Rests also on 92_eei_decisions D8, D10; the spec's own derivations in R107. -/
def Obligations.SampleWordsDecode : Prop :=
  decode [0x01000041] = .ok (.putByte 0x41) [] ∧
  decode [0x02000000] = .ok .getByte [] ∧
  decode [0x10030041] = .ok (.isrRx 0x41 true true) [] ∧
  decode [0x12030000] = .ok (.isrRxErr true true) [] ∧
  decode [0x11000000] = .ok .isrTx [] ∧
  decode [0x18000000] = .ok .chanTxDone [] ∧
  decode [0x20020001, 0x00000028, 0x0000012C] = .ok (.encEvent 2 1 40 300) [] ∧
  decode [0x30000000] = .ok .executeRealtime [] ∧
  decode [0x4000019B] = .ok (.settingRead 411) [] ∧
  decode [0x41000193, 0x000003B6] = .ok (.settingWrite 403 950) [] ∧
  decode [0x42000000] = .ok .settingsRestore [] ∧
  decode [0x10040041] = .illegal 0x10040041 ∧
  decode [0x20000001, 0x00000005] = .truncated 0x20000001

/-! ### The step: scheduling, faults, refusals (00_scope R9, 60_exceptions) -/

/-- When the scheduled agent's stream decodes to an operation of its own, MAIN is not blocked by another, and the
step is enabled, `step` is `exec` of that operation, in the state whose schedule and stream have moved past it.
Rests also on 92_eei_decisions D2, D3, D8, D48, D51; log 8, 9, 10. -/
def Obligations.StepRunsTheOfferedOperation : Prop :=
  ∀ (s : State) (a : Agent) (later : List Agent) (i : Instr) (rest : List Word),
    s.fault = none → s.refused = false → s.sched = a :: later →
    decode (s.streams.ofAgent a) = .ok i rest → i.agent = a →
    (a = .main → s.putBlocked = true → i = .putByte s.heldByte) →
    s.enabled i = true →
    step s = exec i { s with sched := later, streams := s.streams.setAgent a rest }

/-- What an offer meets, in this order (R274): an illegal head word faults `IllegalOperation`, a head word whose operand
words are missing `TruncatedOperation`, whichever agent offers it (R272); an operation that is not the agent's own is
refused; so is a MAIN operation other than the held PUT_BYTE while `put_blocked` (R276 a, b).
Rests also on 92_eei_decisions D2, D10, D45, D49; log 8, 12. -/
def Obligations.OffersAreJudgedInOrder : Prop :=
  ∀ (s : State) (a : Agent) (later : List Agent),
    s.fault = none → s.refused = false → s.sched = a :: later →
    (∀ w, decode (s.streams.ofAgent a) = .illegal w → step s = .fault (.illegalOperation w)) ∧
    (∀ w, decode (s.streams.ofAgent a) = .truncated w → step s = .fault (.truncatedOperation w)) ∧
    (∀ i rest, decode (s.streams.ofAgent a) = .ok i rest → i.agent ≠ a → step s = .refused .wrongAgent) ∧
    (∀ i rest, decode (s.streams.ofAgent a) = .ok i rest → i.agent = a → a = .main → s.putBlocked = true →
      i ≠ .putByte s.heldByte → step s = .refused .blocked)

/-- SISR has an ISR_TX step exactly while `txie` and `hw_tx_empty`, CHAN a CHAN_TX_DONE step exactly while
`hw_tx_empty` is false (R280, R281); an offer outside that is refused under the model's own name (log 10).
Rests also on 92_eei_decisions D1, D14, D48, D51; log 10. -/
def Obligations.TransmitStepsOnlyWhileEnabled : Prop :=
  ∀ (s : State) (later : List Agent) (rest : List Word),
    s.fault = none → s.refused = false →
    (s.sched = .sisr :: later → decode s.streams.sisr = .ok .isrTx rest →
      (step s = .refused .notEnabled ↔ ¬ (s.txie = true ∧ s.hwTxEmpty = true))) ∧
    (s.sched = .chan :: later → decode s.streams.chan = .ok .chanTxDone rest →
      (step s = .refused .notEnabled ↔ s.hwTxEmpty = true))

/-- A fault keeps no write of its step and is never cleared: the state a faulting step leaves is the state before it
with the fault recorded, and every later step faults the same way and changes nothing (10_state R63, 60 R275). A
refusal keeps no write, and no step follows it (60 R276).
Rests also on 92_eei_decisions D2, D45, D49; log 12. -/
def Obligations.StopsKeepNoWriteAndStick : Prop :=
  ∀ s : State,
    (∀ f, step s = .fault f →
      s.mark (step s) = { s with fault := some f } ∧
      step (s.mark (step s)) = .fault f ∧
      (s.mark (step s)).mark (step (s.mark (step s))) = s.mark (step s)) ∧
    (∀ r, step s = .refused r →
      s.mark (step s) = { s with refused := true } ∧ step (s.mark (step s)) = .refused .runEnded)

/-- No meaning refuses; only ENC_EVENT and EXECUTE_REALTIME fault, with the faults R273 gives them, each naming its
encoder.
Rests also on 92_eei_decisions D49; the spec's own derivations in R273, R285. -/
def Obligations.OnlyTwoOperationsFault : Prop :=
  ∀ (i : Instr) (s : State),
    (∀ r, exec i s ≠ .refused r) ∧
    ∀ f, exec i s = .fault f →
      (∃ e ev p v, i = .encEvent e ev p v ∧ (f = .badOperand e ∨ f = .divideByZero e ∨ f = .arithOverflow e)) ∨
      (i = .executeRealtime ∧ ∃ k, f = .arithOverflow k)

/-! ### Reset, initialization and the invariant (10_state R67, 70) -/

/-- The invariant of the block holds after every step that has a next state, from every state that meets it.
Rests also on 92_eei_decisions D21, D31, D46; the spec's own derivations in R35, R37, R39, R80, R166; log 18. -/
def Obligations.StepKeepsTheInvariant : Prop :=
  ∀ s t : State, s.Inv → step s = .next t → t.Inv

/-- State.reset meets the invariant. Its parameters and settings are the model's choice (log 2, log 3).
Rests also on 92_eei_decisions D50, D51; log 2, 3, 4, 5, 6, 8. -/
def Obligations.ResetMeetsTheInvariant : Prop := State.reset.Inv

/-- Whatever parameters and persisted settings initialization accepts, the state it leaves meets the invariant
(70 R301 to R304).
Rests also on 92_eei_decisions D31, D32, D45, D50; log 1. -/
def Obligations.BootMeetsTheInvariant : Prop :=
  ∀ (p : Params) (store : List Settings) (t : State),
    p.WellFormed = true → store.length = p.nEnc → State.boot p store = .next t → t.Inv

/-- The reset values R67 states, for whatever parameters and settings initialization accepts.
Rests also on 92_eei_decisions D31, D32, D50, D51; log 6. -/
def Obligations.BootLeavesTheResetValues : Prop :=
  ∀ (p : Params) (store : List Settings) (t : State), State.boot p store = .next t →
    t.cfg = p ∧ t.settings = store ∧
    t.tx.head = 0 ∧ t.tx.tail = 0 ∧ t.rx.head = 0 ∧ t.rx.tail = 0 ∧
    t.rx.overflow = false ∧ t.rx.backup = false ∧ t.reader = .normal ∧
    t.txie = false ∧ t.putBlocked = false ∧ t.hwTxEmpty = true ∧
    t.modeMsgPending = false ∧ t.rapidLevel = .default ∧ t.pendingAxes = 0 ∧ t.guard = false ∧
    t.fault = none ∧ t.refused = false ∧ t.out = [] ∧
    (∀ a, t.tx.mem.read a = none ∧ t.rx.mem.read a = none ∧ t.bak.mem.read a = none) ∧
    (∀ e, e < t.encs.length → (t.enc e).position = 0 ∧ (t.enc e).velocity = 0 ∧
      (t.enc e).event = ⟨false, false, false⟩) ∧
    (∀ k, k < p.nAxis → (t.axis k).position = 0 ∧ (t.axis k).pos = 0 ∧ (t.axis k).scale = .x1 ∧
      (t.axis k).event = ⟨false, false, false, false, false, false⟩ ∧
      (t.axis k).flags = ⟨false, false, false, false⟩ ∧ (t.axis k).nextEvent = 0)

/-- Initialization is refused exactly for the four broken configurations of 70 R301.
Rests also on 92_eei_decisions D45. -/
def Obligations.BootRefusesBrokenBindings : Prop :=
  ∀ (p : Params) (store : List Settings), p.WellFormed = true → store.length = p.nEnc →
    let m := fun e => (store.getD e default).mode.toNat
    (State.boot p store = .refused .configRefused ↔
      (∃ e, e < p.nEnc ∧ 4 + p.nAxis < m e) ∨
      (∃ e e', e < p.nEnc ∧ e' < p.nEnc ∧ e ≠ e' ∧ m e = 0 ∧ m e' = 0) ∨
      (∃ e e', e < p.nEnc ∧ e' < p.nEnc ∧ e ≠ e' ∧ 5 ≤ m e ∧ m e = m e') ∨
      (∃ e e', e < p.nEnc ∧ e' < p.nEnc ∧ e ≠ e' ∧ m e = 4 ∧ 4 ≤ m e'))

/-- Initialization binds encoders and axes from the stored modes (70 R302, R303).
Rests also on 92_eei_decisions D31, D32, D50. -/
def Obligations.BootBindsEncodersAndAxes : Prop :=
  ∀ (p : Params) (store : List Settings) (t : State),
    p.WellFormed = true → store.length = p.nEnc → State.boot p store = .next t →
    let m := fun e => (store.getD e default).mode.toNat
    (∀ e, e < p.nEnc →
      (m e = 0 → (t.enc e).mode = .feedRate ∧ (t.enc e).axis = none ∧ t.universal = some e) ∧
      (m e = 1 → (t.enc e).mode = .feedRate ∧ (t.enc e).axis = none) ∧
      (m e = 2 → (t.enc e).mode = .rapidRate ∧ (t.enc e).axis = none) ∧
      (m e = 3 → (t.enc e).mode = .spindleRPM ∧ (t.enc e).axis = none) ∧
      (m e = 4 → (t.enc e).mode = .mpg ∧ (t.enc e).axis = some 0) ∧
      (∀ k, m e = 5 + k → (t.enc e).mode = .mpgAxis k ∧ (t.enc e).axis = some k)) ∧
    ((∀ e, e < p.nEnc → m e ≠ 0) → t.universal = none) ∧
    (∀ k e, k < p.nAxis → ((t.axis k).enc = some e ↔ e < p.nEnc ∧ (t.enc e).axis = some k))

/-- A step changes no parameter (00_scope R19) and only appends to the event history (10_state R64).
Rests also on 92_eei_decisions D5, D6, D7, D11, D16, D39, D40; log 1. -/
def Obligations.StepExtendsHistoryOnly : Prop :=
  ∀ s t : State, step s = .next t → t.cfg = s.cfg ∧ ∃ es, t.out = s.out ++ es

/-- Encoder bindings are fixed for the session (43 R254, 70 R306): no step changes which encoder is universal, nor the
mode of another encoder, nor the axis of an encoder that is not in mode MPG.
Rests also on 92_eei_decisions D31, D58; the spec's own derivations in R254. -/
def Obligations.BindingsAreFixedForTheSession : Prop :=
  ∀ s t : State, step s = .next t →
    t.universal = s.universal ∧
    (∀ e, s.universal ≠ some e → (t.enc e).mode = (s.enc e).mode) ∧
    (∀ e, (s.enc e).mode ≠ .mpg → (t.enc e).axis = (s.enc e).axis)

/-- SISR, EISR and CHAN steps write neither result register (10_state R31) and never hold (60 R285).
Rests also on 92_eei_decisions D12, D13, D15; the spec's own derivations in R285. -/
def Obligations.InterruptStepsLeaveResultsAndNeverHold : Prop :=
  ∀ (i : Instr) (s t : State), i.agent ≠ .main → exec i s = .next t → SameResults s t ∧ SameBlocked s t

/-- Each buffer index is advanced by its own context only (20_memory R86): `tx_head` by MAIN, `tx_tail` by SISR,
`rx_head` by SISR but for a resume, `rx_tail` by MAIN but for an interception. -/
def Obligations.IndexOwnership : Prop :=
  ∀ (i : Instr) (s t : State), exec i s = .next t →
    (i.agent ≠ .main → t.tx.head = s.tx.head) ∧
    (i.agent ≠ .sisr → t.tx.tail = s.tx.tail) ∧
    (i.agent ≠ .sisr → i ≠ .resumeInput → t.rx.head = s.rx.head) ∧
    (i.agent ≠ .main → (∀ ovr fe, i ≠ .isrRx s.cfg.toolAck ovr fe) → t.rx.tail = s.rx.tail)

/-- Between two MAIN steps `tx_count` can only fall, `rx_count` can only rise or drop to 0, and `rx_overflow` can only
become true (70 R318).
Rests also on the spec's own derivations in R318. -/
def Obligations.CountsGoStaleInOneDirection : Prop :=
  ∀ (i : Instr) (s t : State), s.BuffersOk → i.agent ≠ .main → exec i s = .next t →
    t.txCount ≤ s.txCount ∧ (s.rxCount ≤ t.rxCount ∨ t.rxCount = 0) ∧
    (s.rx.overflow = true → t.rx.overflow = true)

/-! ### Transmit (40 sections 1 and 6) -/

/-- PUT_BYTE's direct path (R131, R132): the byte goes to the channel, no index moves, `txie` is unchanged, the result
is 1, and nothing else changes. -/
def Obligations.PutByteDirectPath : Prop :=
  ∀ (d : Byte) (s : State),
    s.putBlocked = false → s.tx.head = s.tx.tail → s.txie = false → s.hwTxEmpty = true →
    exec (.putByte d) s =
      .next { s with out := s.out ++ [.txByte d], hwTxEmpty := false, res0 := 1, res1 := 0 }

/-- PUT_BYTE's enqueue (R131, R134): where the direct path is not taken and the buffer is not full, the byte goes to the
slot at `tx_head`, `tx_head` advances with wrap-around, `txie` is set and the result is 1; every other byte of TXBUF,
and all else, is unchanged. -/
def Obligations.PutByteEnqueue : Prop :=
  ∀ (d : Byte) (s : State), s.BuffersOk →
    (s.putBlocked = true ∨ s.tx.head ≠ s.tx.tail ∨ s.txie = true ∨ s.hwTxEmpty = false) →
    (s.tx.head + 1) % s.cfg.txCap ≠ s.tx.tail →
    ∃ t, exec (.putByte d) s = .next t ∧
      t.tx.mem.read s.tx.head = some d ∧ (∀ a, a ≠ s.tx.head → t.tx.mem.read a = s.tx.mem.read a) ∧
      t.tx.head = (s.tx.head + 1) % s.cfg.txCap ∧ t.tx.tail = s.tx.tail ∧
      t.txie = true ∧ t.hwTxEmpty = s.hwTxEmpty ∧
      t.putBlocked = false ∧ t.heldByte = s.heldByte ∧ t.res0 = 1 ∧ t.res1 = 0 ∧
      SameRxBuffer s t ∧ SameBackup s t ∧ t.reader = s.reader ∧ SameEngine s t ∧ SameRun s t ∧
      t.guard = s.guard ∧ t.out = s.out ∧ t.env = s.env

/-- PUT_BYTE with a full buffer asks the wait callback once (R133): `true` holds it, with no result; `false` ends it with
result 0; the buffer, its indices and `txie` are unchanged, and of the rest only the environment's answers move on.
Rests also on 92_eei_decisions D15; log 7, 9. -/
def Obligations.PutByteWaitsWhileFull : Prop :=
  ∀ (d : Byte) (s : State), s.BuffersOk →
    (s.putBlocked = true ∨ s.tx.head ≠ s.tx.tail ∨ s.txie = true ∨ s.hwTxEmpty = false) →
    (s.tx.head + 1) % s.cfg.txCap = s.tx.tail →
    s.drawWait.2 = { s with env := s.drawWait.2.env } ∧
    exec (.putByte d) s =
      .next (if s.drawWait.1 = true
        then { s with env := s.drawWait.2.env, putBlocked := true, heldByte := d }
        else { s with env := s.drawWait.2.env, putBlocked := false, res0 := 0, res1 := 0 })

/-- ISR_TX sends exactly one queued byte and disables the interrupt when the buffer becomes empty (R163); on an empty
buffer it sends nothing and disables it (R164). CHAN_TX_DONE makes the channel's register empty (R165). No byte of
storage changes, and nothing else does.
Rests also on 92_eei_decisions D1, D17; log 6. -/
def Obligations.IsrTxSendsOneByteAndChannelFinishes : Prop :=
  ∀ s : State, s.BuffersOk →
    exec .chanTxDone s = .next { s with hwTxEmpty := true } ∧
    (s.tx.head ≠ s.tx.tail → exec .isrTx s =
      .next { s with
        tx := { s.tx with tail := (s.tx.tail + 1) % s.cfg.txCap },
        out := s.out ++ [.txByte (s.txByte s.tx.tail)],
        hwTxEmpty := false,
        txie := if (s.tx.tail + 1) % s.cfg.txCap = s.tx.head then false else s.txie }) ∧
    (s.tx.head = s.tx.tail → exec .isrTx s = .next { s with txie := false })

/-- `txie = not empty(tx_head, tx_tail)` holds in every state initialization leaves, and every step keeps it (R166).
Rests also on the spec's own derivations in R166. -/
def Obligations.TransmitInterruptFollowsTheBuffer : Prop :=
  (∀ (p : Params) (store : List Settings) (t : State), State.boot p store = .next t → t.TransmitOk) ∧
  ∀ s t : State, s.TransmitOk → step s = .next t → t.TransmitOk

/-- Submission order (R136): along any sequence of operations from a state with nothing sent and nothing queued, the bytes
sent followed by the bytes queued are the bytes the completed PUT_BYTE took, in that order.
Rests also on the spec's own derivations in R136. -/
def Obligations.BytesLeaveInSubmissionOrder : Prop :=
  ∀ (is : List Instr) (s t : State) (bs : List Byte),
    s.BuffersOk → s.out = [] → s.tx.head = s.tx.tail → runAccepting is s = some (bs, t) →
    sentBytes t.out ++ t.txQueue = bs

/-! ### Receive (40 sections 2 to 5) -/

/-- GET_BYTE (R140): the null reader and an empty buffer answer NO_DATA; otherwise the byte at `rx_tail`, zero-extended,
is the result and `rx_tail` advances with wrap-around. Nothing else changes.
Rests also on log 6. -/
def Obligations.GetByteReadsTheOldest : Prop :=
  ∀ s : State, s.BuffersOk →
    (s.reader = .null ∨ s.rx.head = s.rx.tail →
      exec .getByte s = .next { s with res0 := BitVec.ofInt 32 (-1), res1 := 0 }) ∧
    (s.reader = .normal → s.rx.head ≠ s.rx.tail → exec .getByte s =
      .next { s with
        rx := { s.rx with tail := (s.rx.tail + 1) % s.cfg.rxCap },
        res0 := (s.rxByte s.rx.tail).setWidth 32, res1 := 0 })

/-- TX_COUNT, RX_COUNT, RX_FREE and RX_OVERFLOW (R143 to R146) answer from the indices and the flag, whatever the reader,
and change only the result registers.
Rests also on 92_eei_decisions D23, D24, D25. -/
def Obligations.CountsAndFlagAreReported : Prop :=
  ∀ s : State, s.BuffersOk →
    exec .txCount s =
      .next { s with res0 := BitVec.ofInt 32 (((s.tx.head : Int) - s.tx.tail) % s.cfg.txCap), res1 := 0 } ∧
    exec .rxCount s =
      .next { s with res0 := BitVec.ofInt 32 (((s.rx.head : Int) - s.rx.tail) % s.cfg.rxCap), res1 := 0 } ∧
    exec .rxFree s =
      .next { s with
        res0 := BitVec.ofInt 32 ((s.cfg.rxCap : Int) - 1 - ((s.rx.head : Int) - s.rx.tail) % s.cfg.rxCap),
        res1 := 0 } ∧
    exec .rxOverflow s = .next { s with res0 := if s.rx.overflow = true then 1 else 0, res1 := 0 }

/-- A buffer holds at most `C - 1` bytes (10_state R35), and RX_FREE answers 0 exactly when the receive buffer is full and
`RX_CAP - 1` exactly when it is empty (R145).
Rests also on 92_eei_decisions D24; the spec's own derivations in R35. -/
def Obligations.FreeSpaceMatchesFullAndEmpty : Prop :=
  ∀ s : State, s.BuffersOk →
    s.txCount ≤ s.cfg.txCap - 1 ∧ s.rxCount ≤ s.cfg.rxCap - 1 ∧
    (s.rxFree = 0 ↔ (s.rx.head + 1) % s.cfg.rxCap = s.rx.tail) ∧
    (s.rxFree = s.cfg.rxCap - 1 ↔ s.rx.head = s.rx.tail)

/-- A tool-acknowledge byte outside an interception snapshots the whole receive buffer state, truncates the live buffer,
redirects reads to the null reader, and is itself neither classified nor queued (R150).
Rests also on 92_eei_decisions D19, D20. -/
def Obligations.ToolAcknowledgeIntercepts : Prop :=
  ∀ (s : State) (ovr fe : Bool), s.rx.backup = false →
    exec (.isrRx s.cfg.toolAck ovr fe) s =
      .next { s with bak := s.rx, rx := { s.rx with backup := true, tail := s.rx.head }, reader := .null }

/-- Any other byte, and a tool acknowledge during a suspension (R153): a real-time byte is dispatched and never queued
(R157); a byte that is not is appended (R158), or dropped with the overflow flag set where the buffer is full. OVR and
FE make no difference (R159 b).
Rests also on 92_eei_decisions D19, D20; the spec's own derivations in R157. -/
def Obligations.ReceivedByteIsDispatchedQueuedOrDropped : Prop :=
  ∀ (d : Byte) (ovr fe : Bool) (s : State), s.BuffersOk → (d ≠ s.cfg.toolAck ∨ s.rx.backup = true) →
    (s.cfg.rtClass.getLsbD d.toNat = true →
      exec (.isrRx d ovr fe) s = .next { s with out := s.out ++ [.rtRx d] }) ∧
    (s.cfg.rtClass.getLsbD d.toNat = false → (s.rx.head + 1) % s.cfg.rxCap = s.rx.tail →
      exec (.isrRx d ovr fe) s = .next { s with rx := { s.rx with overflow := true } }) ∧
    (s.cfg.rtClass.getLsbD d.toNat = false → (s.rx.head + 1) % s.cfg.rxCap ≠ s.rx.tail →
      ∃ t, exec (.isrRx d ovr fe) s = .next t ∧
        t.rx.mem.read s.rx.head = some d ∧ (∀ a, a ≠ s.rx.head → t.rx.mem.read a = s.rx.mem.read a) ∧
        t.rx.head = (s.rx.head + 1) % s.cfg.rxCap ∧ t.rx.tail = s.rx.tail ∧
        t.rx.overflow = s.rx.overflow ∧ t.rx.backup = s.rx.backup ∧
        SameResults s t ∧ SameBlocked s t ∧ SameTxBuffer s t ∧ SameChannel s t ∧ SameBackup s t ∧
        t.reader = s.reader ∧ SameEngine s t ∧ SameRun s t ∧ t.guard = s.guard ∧ t.out = s.out ∧ t.env = s.env)

/-- ISR_RX_ERR acknowledges the condition and changes no state (R160).
Rests also on 92_eei_decisions D18. -/
def Obligations.ReceiveErrorChangesNothing : Prop :=
  ∀ (ovr fe : Bool) (s : State), exec (.isrRxErr ovr fe) s = .next s

/-- RESUME_INPUT restores the snapshot verbatim, or, with nothing backed up, only sets the reader (R155).
Rests also on 92_eei_decisions D22. -/
def Obligations.ResumeRestoresTheSnapshot : Prop :=
  ∀ s : State,
    (s.rx.backup = true →
      exec .resumeInput s = .next { s with rx := s.bak, reader := .normal, res0 := 1, res1 := 0 }) ∧
    (s.rx.backup = false → exec .resumeInput s = .next { s with reader := .normal, res0 := 0, res1 := 0 })

/-- A queued byte joins the end of the live queue and GET_BYTE takes its front (R140, R158): the queue is first in,
first out. -/
def Obligations.ReceiveQueueIsFirstInFirstOut : Prop :=
  ∀ s : State, s.BuffersOk →
    (∀ (d : Byte) (ovr fe : Bool) (t : State),
      (d ≠ s.cfg.toolAck ∨ s.rx.backup = true) → s.cfg.rtClass.getLsbD d.toNat = false →
      (s.rx.head + 1) % s.cfg.rxCap ≠ s.rx.tail → exec (.isrRx d ovr fe) s = .next t →
      t.rxQueue = s.rxQueue ++ [d]) ∧
    (∀ (b : Byte) (q : List Byte), s.reader = .normal → s.rxQueue = b :: q →
      ∃ t, exec .getByte s = .next t ∧ t.res0 = b.setWidth 32 ∧ t.rxQueue = q)

/-- The FIFO property (R141): from an empty live buffer with the Normal reader, any sequence of at most `RX_CAP - 1`
received bytes, none of them a real-time byte and none intercepted, is read back by as many GET_BYTE in the exact order
it arrived, and the buffer is empty again.
Rests also on the spec's own derivations in R141. -/
def Obligations.ReceivedBytesAreReadBackInOrder : Prop :=
  ∀ (s : State) (bs : List Byte), s.BuffersOk → s.reader = .normal → s.rx.head = s.rx.tail →
    bs.length ≤ s.cfg.rxCap - 1 →
    (∀ b, b ∈ bs → s.cfg.rtClass.getLsbD b.toNat = false ∧ (b ≠ s.cfg.toolAck ∨ s.rx.backup = true)) →
    ∃ t u, runOps (bs.map (fun b => .isrRx b false false)) s = some t ∧
      readBytes bs.length t = some (bs.map (fun b => b.setWidth 32), u) ∧
      u.rx.head = u.rx.tail ∧ u.rx.overflow = s.rx.overflow

/-- The handshake (R150, R151, R155): after an interception, whatever operations other than RESUME_INPUT follow, GET_BYTE
answers NO_DATA, and RESUME_INPUT brings back the receive buffer exactly as it stood before the acknowledge.
Rests also on 92_eei_decisions D20, D22. -/
def Obligations.ResumeBringsBackThePreHandshakeBuffer : Prop :=
  ∀ (s t u : State) (is : List Instr) (ovr fe : Bool), s.rx.backup = false →
    exec (.isrRx s.cfg.toolAck ovr fe) s = .next t → (∀ i, i ∈ is → i ≠ .resumeInput) → runOps is t = some u →
    (∃ v, exec .getByte u = .next v ∧ v.res0 = BitVec.ofInt 32 (-1) ∧ v.rx = u.rx) ∧
    (∃ v, exec .resumeInput u = .next v ∧ v.rx = s.rx ∧ v.reader = .normal ∧ v.res0 = 1)

/-! ### Encoder intake (41) -/

/-- ENC_EVENT naming no encoder faults `BadOperand` (R171); with `EV = 0` it has no effect (R172).
Rests also on 92_eei_decisions D26, D52. -/
def Obligations.UnknownEncoderFaultsAndEmptyEventIsNothing : Prop :=
  ∀ (e : Nat) (ev : BitVec 3) (p : I32) (v : U32) (s : State),
    (s.cfg.nEnc ≤ e → exec (.encEvent e ev p v) s = .fault (.badOperand e)) ∧
    (e < s.cfg.nEnc → exec (.encEvent e 0 p v) s = .next s)

/-- A click of the universal encoder cycles its target and requests a message (R175, R176); what is left of the event
then has the effect of the event without the click, in the state after the cycle.
Rests also on 92_eei_decisions D26, D31, D33. -/
def Obligations.UniversalClickCyclesFirst : Prop :=
  ∀ (e : Nat) (ev : BitVec 3) (p : I32) (v : U32) (s c : State),
    e < s.cfg.nEnc → s.ArraysOk → ev.getLsbD 1 = true → s.universal = some e →
    isOverride (s.enc e).mode = true → (s.enc e).event = ⟨false, false, false⟩ →
    c = { s with
      encs := s.encs.set e { s.enc e with mode := match (s.enc e).mode with
        | .feedRate => .rapidRate
        | .rapidRate => .spindleRPM
        | .spindleRPM => .feedRate
        | .universal => .universal
        | .mpg => .mpg
        | .mpgAxis k => .mpgAxis k },
      modeMsgPending := true } →
    exec (.encEvent e ev p v) s = exec (.encEvent e (ev &&& 0b101) p v) c ∧
    (ev = 0b010 → exec (.encEvent e ev p v) s = .next c)

/-- A click of an MPG (all axes) encoder moves its cursor to the next axis, wrapping, with the back-references, zeroes
that axis's and the encoder's tracked position and asks for a counter reset (R175, R177); what is left of the event
then has the effect of the event without the click.
Rests also on 92_eei_decisions D26, D32, D33. -/
def Obligations.MpgClickMovesTheCursorFirst : Prop :=
  ∀ (e c : Nat) (ev : BitVec 3) (p : I32) (v : U32) (s : State),
    e < s.cfg.nEnc → s.ArraysOk → c < s.cfg.nAxis → ev.getLsbD 1 = true → s.universal ≠ some e →
    (s.enc e).mode = .mpg → (s.enc e).axis = some c → (s.enc e).event = ⟨false, false, false⟩ →
    ∃ t, exec (.encEvent e 0b010 p v) s = .next t ∧
      exec (.encEvent e ev p v) s = exec (.encEvent e (ev &&& 0b101) p v) t ∧
      t.out = s.out ++ [.counterReset e] ∧
      t.enc e = { s.enc e with axis := some ((c + 1) % s.cfg.nAxis), position := 0 } ∧
      (∀ e', e' ≠ e → t.enc e' = s.enc e') ∧
      t.axis ((c + 1) % s.cfg.nAxis) = { s.axis ((c + 1) % s.cfg.nAxis) with enc := some e, position := 0 } ∧
      (c ≠ (c + 1) % s.cfg.nAxis → t.axis c = { s.axis c with enc := none }) ∧
      (∀ k, k ≠ c → k ≠ (c + 1) % s.cfg.nAxis → t.axis k = s.axis k) ∧
      t.pendingAxes = s.pendingAxes ∧ t.modeMsgPending = s.modeMsgPending ∧ t.rapidLevel = s.rapidLevel

/-- FINE_STEPS (R180, R181, R183): in FeedRate and SpindleRPM a position event emits one command a unit between the old
and the new normalized count, plus when it increases and minus when it decreases, and records position and velocity.
Rests also on 92_eei_decisions D27, D28, D34; the spec's own derivations in R183. -/
def Obligations.FineStepsOneCommandAUnit : Prop :=
  ∀ (e : Nat) (ev : BitVec 3) (p : I32) (v : U32) (s : State) (plus minus : Byte),
    e < s.cfg.nEnc → s.ArraysOk → ev.getLsbD 0 = true → (ev.getLsbD 1 = true → s.universal ≠ some e) →
    ((s.enc e).mode = .feedRate ∧ plus = s.cfg.rtFeedFinePlus ∧ minus = s.cfg.rtFeedFineMinus ∨
     (s.enc e).mode = .spindleRPM ∧ plus = s.cfg.rtSpindleFinePlus ∧ minus = s.cfg.rtSpindleFineMinus) →
    (s.setting e).cpr ≠ 0 →
    InInt32 ((s.enc e).position.toInt * 100) → InInt32 (p.toInt * 100) →
    let nOld := normalized (s.enc e).position (s.setting e).cpr
    let nNew := normalized p (s.setting e).cpr
    exec (.encEvent e ev p v) s =
      .next { s with
        encs := s.encs.set e { s.enc e with position := p, velocity := v, event := ⟨false, false, false⟩ },
        out := s.out ++
          (if nOld ≤ nNew then List.replicate (nNew - nOld).toNat (.rtCmd plus)
           else List.replicate (nOld - nNew).toNat (.rtCmd minus)) }

/-- NCOUNT's faults and their order (R182, 60 R274): `cpr = 0` first, then an overflow of the old position's product, then
of the new one's.
Rests also on 92_eei_decisions D28, D49; the spec's own derivations in R182, R183. -/
def Obligations.NormalizedCountFaults : Prop :=
  ∀ (e : Nat) (ev : BitVec 3) (p : I32) (v : U32) (s : State),
    e < s.cfg.nEnc → s.ArraysOk → ev.getLsbD 0 = true → (ev.getLsbD 1 = true → s.universal ≠ some e) →
    ((s.enc e).mode = .feedRate ∨ (s.enc e).mode = .spindleRPM) →
    ((s.setting e).cpr = 0 → exec (.encEvent e ev p v) s = .fault (.divideByZero e)) ∧
    ((s.setting e).cpr ≠ 0 → (¬ InInt32 ((s.enc e).position.toInt * 100) ∨ ¬ InInt32 (p.toInt * 100)) →
      exec (.encEvent e ev p v) s = .fault (.arithOverflow e))

/-- RAPID_RATCHET (R185, R186, R187): the delta from the anchor moves the ratchet at most one level, toward Low below zero
and toward Default above, saturating; the anchor moves exactly when the delta reaches the counts-per-detent.
Rests also on 92_eei_decisions D29; the spec's own derivations in R186. -/
def Obligations.RapidRatchetMovesOneLevel : Prop :=
  ∀ (e : Nat) (ev : BitVec 3) (p : I32) (v : U32) (s : State),
    e < s.cfg.nEnc → s.ArraysOk → ev.getLsbD 0 = true → (ev.getLsbD 1 = true → s.universal ≠ some e) →
    (s.enc e).mode = .rapidRate →
    let d := p.toInt - (s.enc e).position.toInt
    let after (anchor : I32) :=
      s.encs.set e { s.enc e with position := anchor, velocity := v, event := ⟨false, false, false⟩ }
    ((d.natAbs : Int) < (s.setting e).cpd.toNat → exec (.encEvent e ev p v) s =
      .next { s with encs := after (s.enc e).position }) ∧
    (((s.setting e).cpd.toNat : Int) ≤ d.natAbs →
      ((d < 0 → s.rapidLevel = .default → exec (.encEvent e ev p v) s =
        .next { s with encs := after p, rapidLevel := .medium, out := s.out ++ [.rtCmd s.cfg.rtRapidMedium] }) ∧
      (d < 0 → s.rapidLevel = .medium → exec (.encEvent e ev p v) s =
        .next { s with encs := after p, rapidLevel := .low, out := s.out ++ [.rtCmd s.cfg.rtRapidLow] }) ∧
      (0 < d → s.rapidLevel = .low → exec (.encEvent e ev p v) s =
        .next { s with encs := after p, rapidLevel := .medium, out := s.out ++ [.rtCmd s.cfg.rtRapidMedium] }) ∧
      (0 < d → s.rapidLevel = .medium → exec (.encEvent e ev p v) s =
        .next { s with encs := after p, rapidLevel := .default, out := s.out ++ [.rtCmd s.cfg.rtRapidReset] }) ∧
      ((d = 0 ∨ (d < 0 ∧ s.rapidLevel = .low) ∨ (0 < d ∧ s.rapidLevel = .default)) →
        exec (.encEvent e ev p v) s = .next { s with encs := after p })))

/-- MPG_MARK (R180, R188): a position event of an MPG encoder sets the bound axis's stop event where the velocity is 0 and
its position-changed event where it is not, sets the axis's pending bit, and records position and velocity. A click in
the same event of an MPG_k encoder is discarded (R193).
Rests also on 92_eei_decisions D34. -/
def Obligations.MpgPositionMarksTheAxis : Prop :=
  ∀ (e k : Nat) (ev : BitVec 3) (p : I32) (v : U32) (s : State),
    e < s.cfg.nEnc → s.ArraysOk → s.guard = false → k < s.cfg.nAxis → ev.getLsbD 0 = true →
    (ev.getLsbD 1 = true → s.universal ≠ some e) →
    ((s.enc e).mode = .mpg ∧ ev.getLsbD 1 = false ∨ ∃ j, (s.enc e).mode = .mpgAxis j) →
    (s.enc e).axis = some k →
    exec (.encEvent e ev p v) s =
      .next { s with
        encs := s.encs.set e { s.enc e with position := p, velocity := v, event := ⟨false, false, false⟩ },
        axes := s.axes.set k { s.axis k with
          event := if v = 0 then { (s.axis k).event with stop := true }
                   else { (s.axis k).event with posChanged := true } },
        pendingAxes := s.pendingAxes ||| (1#16 <<< k) }

/-- OVERRIDE_RESET (R190): a click or double-click without a position change, in an override mode, zeroes the tracked
position, asks for a counter reset and emits the reset byte of the current target; a rapid reset returns the ratchet to
Default.
Rests also on 92_eei_decisions D30; the spec's own derivations in R190. -/
def Obligations.OverrideResetOnNonMovement : Prop :=
  ∀ (e : Nat) (ev : BitVec 3) (p : I32) (v : U32) (s : State),
    e < s.cfg.nEnc → s.ArraysOk → ev.getLsbD 0 = false → (ev.getLsbD 1 = true ∨ ev.getLsbD 2 = true) →
    (ev.getLsbD 1 = true → s.universal ≠ some e) →
    let zeroed := s.encs.set e { s.enc e with position := 0, event := ⟨false, false, false⟩ }
    ((s.enc e).mode = .feedRate → exec (.encEvent e ev p v) s =
      .next { s with encs := zeroed, out := s.out ++ [.counterReset e, .rtCmd s.cfg.rtFeedReset] }) ∧
    ((s.enc e).mode = .spindleRPM → exec (.encEvent e ev p v) s =
      .next { s with encs := zeroed, out := s.out ++ [.counterReset e, .rtCmd s.cfg.rtSpindleReset] }) ∧
    ((s.enc e).mode = .rapidRate → exec (.encEvent e ev p v) s =
      .next { s with
        encs := zeroed, rapidLevel := .default,
        out := s.out ++ [.counterReset e, .rtCmd s.cfg.rtRapidReset] })

/-- MPG_SCALE_EVENT and MPG_ZERO_EVENT (R191, R192): without a position change, a click of an MPG_k encoder sets its axis's
scale event, and a double-click of an encoder in either MPG mode its axis's zero event, each with the pending bit. -/
def Obligations.MpgClicksSetScaleAndZero : Prop :=
  ∀ (e k : Nat) (ev : BitVec 3) (p : I32) (v : U32) (s : State),
    e < s.cfg.nEnc → s.ArraysOk → s.guard = false → k < s.cfg.nAxis → ev.getLsbD 0 = false →
    (ev.getLsbD 1 = true ∨ ev.getLsbD 2 = true) → (ev.getLsbD 1 = true → s.universal ≠ some e) →
    ((s.enc e).mode = .mpg ∧ ev.getLsbD 1 = false ∨ ∃ j, (s.enc e).mode = .mpgAxis j) →
    (s.enc e).axis = some k →
    exec (.encEvent e ev p v) s =
      .next { s with
        encs := s.encs.set e { s.enc e with event := ⟨false, false, false⟩ },
        axes := s.axes.set k { s.axis k with
          event := { (s.axis k).event with
            scale := (s.axis k).event.scale || ev.getLsbD 1,
            zero := (s.axis k).event.zero || ev.getLsbD 2 } },
        pendingAxes := s.pendingAxes ||| (1#16 <<< k) }

/-- The frame of ENC_EVENT: whatever its path, it leaves alone the whole transport, the result registers, the settings,
the universal selector, the environment's answers, every other encoder, and of the axes everything but the back-reference,
the last-consumed position and the event set.
Rests also on 92_eei_decisions D26, D30, D33, D34; the spec's own derivations in R190. -/
def Obligations.EncoderEventFrame : Prop :=
  ∀ (e : Nat) (ev : BitVec 3) (p : I32) (v : U32) (s t : State), exec (.encEvent e ev p v) s = .next t →
    SameTransport s t ∧ SameResults s t ∧ SameRun s t ∧ t.settings = s.settings ∧ t.universal = s.universal ∧
    t.env = s.env ∧ (t.guard = s.guard ∨ t.guard = false) ∧
    (∀ e', e' ≠ e → t.enc e' = s.enc e') ∧
    (∀ k, (t.axis k).pos = (s.axis k).pos ∧ (t.axis k).scale = (s.axis k).scale ∧
      (t.axis k).flags = (s.axis k).flags ∧ (t.axis k).nextEvent = (s.axis k).nextEvent)

/-! ### Real-time dispatch (42) -/

/-- A pending mode message is emitted first, once, with the universal encoder's mode at that time, whatever the machine
state (R211); the rest of the tick is that of the state after it.
Rests also on 92_eei_decisions D43. -/
def Obligations.ModeMessageIsEmittedOnce : Prop :=
  ∀ (s : State) (u : Nat), s.modeMsgPending = true → s.universal = some u →
    exec .executeRealtime s =
      exec .executeRealtime { s with out := s.out ++ [.statusMsg (s.enc u).mode], modeMsgPending := false }

/-- A tick with no pending axis answers 0 and draws nothing; in a machine state that is neither Idle nor Jogging the
pending bits and events are left for a later tick, and of the rest only the environment's answers move on (R212).
Rests also on 92_eei_decisions D35; the spec's own derivations in R212; log 7. -/
def Obligations.IdleTickAndClosedGateKeepEvents : Prop :=
  ∀ s : State, s.modeMsgPending = false →
    (s.pendingAxes = 0 → exec .executeRealtime s = .next { s with res0 := 0, res1 := 0 }) ∧
    (s.pendingAxes ≠ 0 → s.drawMachineState.1 = .other →
      exec .executeRealtime s = .next { s with env := s.drawMachineState.2.env, res0 := 0, res1 := 0 })

/-- The actions of a tick, for every set of flagged axes and every event set on each (R213 to R219): axes in ascending
order, on each axis zero, scale, stop and position-changed in that order. Where no command follows, since no axis
contributes (R221) or every contributing axis reports velocity 0 (R220, R225), they are the whole step: the pending bits
and event sets are consumed; zero sends the coordinate-zeroing command and, on acceptance, zeroes the axis's
last-consumed position and, where one is bound, its encoder's with a counter reset (R219 c); scale multiplies by 10,
wrapping; stop cancels a jog of a moving axis; position-changed starts an axis at rest, or one stopped in the same tick
(R219 a), with the machine position as origin, the moving flag and the deadline. Nothing else changes.
Rests also on 92_eei_decisions D36, D37, D38, D39, D40, D41; the spec's own derivations in R213, R219; log 7. -/
def Obligations.AxisZeroScaleAndStop : Prop :=
  ∀ s : State,
    s.modeMsgPending = false → s.ArraysOk → s.pendingAxes ≠ 0 → s.gateWillOpen →
    (∀ k, k ∈ s.contributors → s.afterActions.MoveInRange k ∧ (s.afterActions.boundEncoder k).velocity = 0) →
    exec .executeRealtime s = .next { s.afterActions with res0 := 0, res1 := 0 }

/-- A position change of an axis that is not moving captures the machine position as origin, marks the axis moving and
writes the deadline (R218); where its encoder stands at the last-consumed position, or it has none, no command follows
(R221).
Rests also on 92_eei_decisions D38, D39, D41; log 7. -/
def Obligations.AxisStartCapturesTheOrigin : Prop :=
  ∀ (s : State) (k : Nat) (o : I32) (now : U32),
    s.modeMsgPending = false → s.ArraysOk → s.guard = false → s.gateWillOpen →
    s.OnlyAxis k ⟨true, false, false, false, false, false⟩ → (s.axis k).flags.moving = false →
    (∀ e, (s.axis k).enc = some e → (s.enc e).position = (s.axis k).position) →
    o = (s.drawMachineState.2.drawMachinePos k).1 →
    now = (s.drawMachineState.2.drawMachinePos k).2.drawNowMs.1 →
    ∃ t, exec .executeRealtime s = .next t ∧ t.pendingAxes = 0 ∧ t.out = s.out ∧ t.res0 = 0 ∧ t.res1 = 0 ∧
      t.axis k = { s.axis k with
        event := ⟨false, false, false, false, false, false⟩,
        pos := o, flags := { (s.axis k).flags with moving := true },
        nextEvent := BitVec.ofNat 32 (now.toNat + s.cfg.mpgIntervalMs) } ∧
      t.encs = s.encs ∧ (∀ j, j ≠ k → t.axis j = s.axis j)

/-- The batched relative jog (R220 to R222, R224, R225, R227), after the actions of every flagged axis (R213 to R219), so
that an axis at rest has taken its origin, moving flag and deadline (R218) and a scale or an accepted zero of this tick
counts: every contributing axis goes into one command with its scaled displacement, ascending, at the slowest non-zero
velocity; each takes its encoder's position as consumed whatever the sink answers (R228); no target is advanced,
MotionRelative is not drawn, and nothing else changes.
Rests also on 92_eei_decisions D36, D37, D38, D39, D40, D41, D42; the spec's own derivations in R213, R219, R228; log
7. -/
def Obligations.RelativeJogBatchesMovingAxes : Prop :=
  ∀ (s u : State) (c : List Nat) (f : U32) (cmd : MotionCmd),
    s.cfg.moveStrategy = .relativeJog → s.modeMsgPending = false → s.ArraysOk → s.pendingAxes ≠ 0 → s.gateWillOpen →
    u = s.afterActions → c = s.contributors → (∀ k, k ∈ c → u.MoveInRange k) → u.IsSlowest c f →
    cmd = .jog (u.displacements c) f →
    exec .executeRealtime s =
      .next { u with
        axes := (List.range s.cfg.nAxis).map (fun k =>
          if k ∈ c then { u.axis k with position := (u.boundEncoder k).position } else u.axis k),
        env := (u.drawAccept cmd).2.env,
        out := u.out ++ [.motion cmd (u.drawAccept cmd).1],
        res0 := 0, res1 := 0 }

/-- The batched absolute move (R220 to R222, R224 to R226), after the actions of every flagged axis (R213 to R219): with
the motion mode absolute, every contributing axis's displacement is accumulated into its target and one command carries
the targets, ascending, so that an axis that starts in this tick sends its origin plus its displacement (R218, R229);
with the mode already relative it carries the displacements and no target is advanced. Each axis takes its encoder's
position as consumed whatever the sink answers (R228), and nothing else changes.
Rests also on 92_eei_decisions D36, D37, D38, D39, D40, D41, D42; the spec's own derivations in R213, R219, R228,
R229; log 7. -/
def Obligations.AbsoluteMoveBatchesMovingAxes : Prop :=
  ∀ (s u : State) (c : List Nat) (f : U32) (rel : Bool) (cmd : MotionCmd),
    s.cfg.moveStrategy = .absoluteMove → s.modeMsgPending = false → s.ArraysOk → s.pendingAxes ≠ 0 → s.gateWillOpen →
    u = s.afterActions → c = s.contributors → rel = u.drawRelative.1 →
    (∀ k, k ∈ c → u.MoveInRange k ∧ (rel = false → InInt32 ((u.axis k).pos.toInt + u.displacement k))) →
    u.IsSlowest c f →
    cmd = .move rel (if rel then u.displacements c else u.targets c) f →
    exec .executeRealtime s =
      .next { u with
        axes := (List.range s.cfg.nAxis).map (fun k =>
          if k ∈ c then
            { u.axis k with
              position := (u.boundEncoder k).position,
              pos := if rel then (u.axis k).pos else BitVec.ofInt 32 ((u.axis k).pos.toInt + u.displacement k) }
          else u.axis k),
        env := (u.drawRelative.2.drawAccept cmd).2.env,
        out := u.out ++ [.motion cmd (u.drawRelative.2.drawAccept cmd).1],
        res0 := 0, res1 := 0 }

/-- Where every moving axis reports velocity 0 the feed is 0: no command is sent and no position is consumed (R224,
R225).
Rests also on 92_eei_decisions D38, D40, D41; log 7. -/
def Obligations.ZeroFeedSendsNothing : Prop :=
  ∀ s : State,
    s.modeMsgPending = false → s.ArraysOk → s.pendingAxes ≠ 0 → s.gateWillOpen → s.OnlyMovement →
    (∀ k, k ∈ s.movingAxes → InInt32 ((s.boundEncoder k).position.toInt - (s.axis k).position.toInt) ∧
      InInt32 (s.displacement k) ∧ (s.boundEncoder k).velocity = 0) →
    ∃ t, exec .executeRealtime s = .next t ∧ t.out = s.out ∧ t.encs = s.encs ∧ t.pendingAxes = 0 ∧
      ∀ k, (t.axis k).position = (s.axis k).position

/-- The arithmetic faults of MOVE (R223), after the actions of every flagged axis (R213 to R219), so that an axis which
starts in this tick, or whose scale or last-consumed position the tick changes, is judged as those actions leave it. The
displacements come first, ascending (R220, R224): the lowest contributing axis whose delta or displacement is outside
Int32 faults `ArithOverflow`, under either strategy and whatever the velocities. With all of them in range, a feed that
is not 0, the absolute-move strategy and the motion mode absolute, the targets follow, ascending (R226): the lowest
contributing axis whose target is outside Int32 faults.
Rests also on 92_eei_decisions D27, D36, D38, D39, D40, D41; the spec's own derivations in R213, R219; log 7. -/
def Obligations.MotionOverflowFaults : Prop :=
  ∀ (s u : State) (c : List Nat) (k : Nat),
    s.modeMsgPending = false → s.ArraysOk → s.pendingAxes ≠ 0 → s.gateWillOpen → u = s.afterActions →
    c = s.contributors → k ∈ c →
    ((∀ j, j ∈ c → j < k → u.MoveInRange j) → ¬ u.MoveInRange k →
      exec .executeRealtime s = .fault (.arithOverflow k)) ∧
    (∀ f : U32, (∀ j, j ∈ c → u.MoveInRange j) → u.IsSlowest c f → s.cfg.moveStrategy = .absoluteMove →
      u.drawRelative.1 = false → (∀ j, j ∈ c → j < k → InInt32 ((u.axis j).pos.toInt + u.displacement j)) →
      ¬ InInt32 ((u.axis k).pos.toInt + u.displacement k) →
      exec .executeRealtime s = .fault (.arithOverflow k))

/-- The frame of EXECUTE_REALTIME: whatever it finds pending, it answers 0 and leaves alone the whole transport, the
settings, the universal selector, the ratchet, the back-references, the axes that are not flagged, and of the encoders
everything but a tracked position, which it only ever zeroes.
Rests also on 92_eei_decisions D36, D37, D38, D39, D41; the spec's own derivations in R213, R228. -/
def Obligations.ExecuteRealtimeFrame : Prop :=
  ∀ s t : State, exec .executeRealtime s = .next t →
    t.res0 = 0 ∧ t.res1 = 0 ∧ SameTransport s t ∧ SameRun s t ∧ t.settings = s.settings ∧
    t.universal = s.universal ∧ t.rapidLevel = s.rapidLevel ∧ (t.guard = s.guard ∨ t.guard = false) ∧
    (∀ e, t.enc e = s.enc e ∨ t.enc e = { s.enc e with position := 0 }) ∧
    (∀ k, (t.axis k).enc = (s.axis k).enc) ∧
    (∀ k, (s.cfg.nAxis ≤ k ∨ s.pendingAxes.getLsbD k = false) → t.axis k = s.axis k)

/-- The routes of real-time bytes (R230): a step appends `RtRx` only for a received byte the classifier accepts, and
`RtCmd` only with an override byte in ENC_EVENT, or with the jog-cancel byte in EXECUTE_REALTIME.
Rests also on the spec's own derivations in R230. -/
def Obligations.RealtimeByteRoutes : Prop :=
  ∀ (i : Instr) (s t : State) (es : List OutEvent), exec i s = .next t → t.out = s.out ++ es →
    (∀ b, .rtRx b ∈ es → s.cfg.rtClass.getLsbD b.toNat = true ∧ ∃ ovr fe, i = .isrRx b ovr fe) ∧
    (∀ b, .rtCmd b ∈ es →
      ((∃ e ev p v, i = .encEvent e ev p v) ∧
        b ∈ [s.cfg.rtFeedFinePlus, s.cfg.rtFeedFineMinus, s.cfg.rtFeedReset, s.cfg.rtSpindleFinePlus,
          s.cfg.rtSpindleFineMinus, s.cfg.rtSpindleReset, s.cfg.rtRapidReset, s.cfg.rtRapidMedium, s.cfg.rtRapidLow]) ∨
      (i = .executeRealtime ∧ b = s.cfg.rtJogCancel))

/-! ### Settings (43) -/

/-- SETTING_READ (R250, R252): an id at offset 0 to 3 of an encoder's stride answers that field; any other id answers
unhandled; nothing but the result registers changes.
Rests also on 92_eei_decisions D7. -/
def Obligations.SettingReadAnswersTheField : Prop :=
  ∀ (id : Nat) (s : State), s.cfg.WellFormed = true →
    (∀ e f, e < s.cfg.nEnc → f < 4 → id = s.cfg.setBase + e * s.cfg.setStride + f →
      exec (.settingRead id) s =
        .next { s with
          res0 := 0,
          res1 := if f = 0 then (s.setting e).mode else if f = 1 then (s.setting e).cpr
                  else if f = 2 then (s.setting e).cpd else (s.setting e).dclick }) ∧
    ((∀ e f, e < s.cfg.nEnc → f < 4 → id ≠ s.cfg.setBase + e * s.cfg.setStride + f) →
      exec (.settingRead id) s = .next { s with res0 := 2, res1 := 0 })

/-- SETTING_WRITE (R250, R251, R253): a handled id stores a valid value and answers 0; an invalid value is rejected with 1
and the prior value retained; an unhandled id answers 2. No other record or field, and nothing else but the result
registers, changes.
Rests also on 92_eei_decisions D7, D44. -/
def Obligations.SettingWriteStoresValidValues : Prop :=
  ∀ (id : Nat) (v : U32) (s : State), s.cfg.WellFormed = true → s.ArraysOk →
    (∀ e f, e < s.cfg.nEnc → f < 4 → id = s.cfg.setBase + e * s.cfg.setStride + f →
      let valid := (f = 0 → v.toNat ≤ 4 + s.cfg.nAxis) ∧ (f = 3 → 100 ≤ v.toNat ∧ v.toNat ≤ 900)
      (valid → exec (.settingWrite id v) s =
        .next { s with
          settings := s.settings.set e
            { mode := if f = 0 then v else (s.setting e).mode,
              cpr := if f = 1 then v else (s.setting e).cpr,
              cpd := if f = 2 then v else (s.setting e).cpd,
              dclick := if f = 3 then v else (s.setting e).dclick },
          res0 := 0, res1 := 0 }) ∧
      (¬ valid → exec (.settingWrite id v) s = .next { s with res0 := 1, res1 := 0 })) ∧
    ((∀ e f, e < s.cfg.nEnc → f < 4 → id ≠ s.cfg.setBase + e * s.cfg.setStride + f) →
      exec (.settingWrite id v) s = .next { s with res0 := 2, res1 := 0 })

/-- SETTINGS_RESTORE (R256): every record becomes Universal, 400, 4, 500, and, of the rest, only the result registers
change. -/
def Obligations.SettingsRestoreWritesDefaults : Prop :=
  ∀ s : State, ∃ t, exec .settingsRestore s = .next t ∧
    (∀ e, e < s.cfg.nEnc → t.setting e = ⟨0, 400, 4, 500⟩) ∧
    t = { s with settings := t.settings, res0 := 0, res1 := 0 }

/-- The pseudo-operations (30_encoding R118): WRITE_STRING starts with the bytes of its text, WRITE_LINE with its text and
then EOL_SEQ, both with no failure yet; the next PUT_BYTE is that of the first byte still to be put; a held PUT_BYTE is
offered again, one that ends with result 0 ends the expansion with result 0, one that ends with result 1 moves on, and
the result is 1 once every byte is put.
Rests also on 92_eei_decisions D16; log 17. -/
def Obligations.WriterPutsTheLine : Prop :=
  ∀ (p : Params) (text : List Byte) (b : Byte) (bs : List Byte) (t : State),
    writeString text = ⟨text, true⟩ ∧
    writeLine p text = ⟨text ++ p.eolSeq, true⟩ ∧
    (Writer.mk (b :: bs) true).next = some (.putByte b) ∧ (Writer.mk (b :: bs) true).result = none ∧
    (t.putBlocked = true → (Writer.mk (b :: bs) true).after t = ⟨b :: bs, true⟩) ∧
    (t.putBlocked = false → t.res0 = 1 → (Writer.mk (b :: bs) true).after t = ⟨bs, true⟩) ∧
    (t.putBlocked = false → t.res0 = 0 →
      ((Writer.mk (b :: bs) true).after t).next = none ∧ ((Writer.mk (b :: bs) true).after t).result = some 0) ∧
    (Writer.mk [] true).next = none ∧ (Writer.mk [] true).result = some 1
end

