-- ==== Sys2Proof/Laws/State.lean ====
section
/-! SUPPORT. What each update of the state does to each field: one lemma a field and update, true by unfolding. -/

namespace Sys2Proof.Machine

@[simp] theorem State.result2_cfg (s : State) (a : I32) (b : U32) : (s.result2 a b).cfg = s.cfg := rfl
@[simp] theorem State.result2_res0 (s : State) (a : I32) (b : U32) : (s.result2 a b).res0 = a := rfl
@[simp] theorem State.result2_res1 (s : State) (a : I32) (b : U32) : (s.result2 a b).res1 = b := rfl
@[simp] theorem State.result2_putBlocked (s : State) (a : I32) (b : U32) : (s.result2 a b).putBlocked = s.putBlocked := rfl
@[simp] theorem State.result2_heldByte (s : State) (a : I32) (b : U32) : (s.result2 a b).heldByte = s.heldByte := rfl
@[simp] theorem State.result2_tx (s : State) (a : I32) (b : U32) : (s.result2 a b).tx = s.tx := rfl
@[simp] theorem State.result2_rx (s : State) (a : I32) (b : U32) : (s.result2 a b).rx = s.rx := rfl
@[simp] theorem State.result2_bak (s : State) (a : I32) (b : U32) : (s.result2 a b).bak = s.bak := rfl
@[simp] theorem State.result2_reader (s : State) (a : I32) (b : U32) : (s.result2 a b).reader = s.reader := rfl
@[simp] theorem State.result2_txie (s : State) (a : I32) (b : U32) : (s.result2 a b).txie = s.txie := rfl
@[simp] theorem State.result2_hwTxEmpty (s : State) (a : I32) (b : U32) : (s.result2 a b).hwTxEmpty = s.hwTxEmpty := rfl
@[simp] theorem State.result2_encs (s : State) (a : I32) (b : U32) : (s.result2 a b).encs = s.encs := rfl
@[simp] theorem State.result2_universal (s : State) (a : I32) (b : U32) : (s.result2 a b).universal = s.universal := rfl
@[simp] theorem State.result2_modeMsgPending (s : State) (a : I32) (b : U32) : (s.result2 a b).modeMsgPending = s.modeMsgPending := rfl
@[simp] theorem State.result2_rapidLevel (s : State) (a : I32) (b : U32) : (s.result2 a b).rapidLevel = s.rapidLevel := rfl
@[simp] theorem State.result2_axes (s : State) (a : I32) (b : U32) : (s.result2 a b).axes = s.axes := rfl
@[simp] theorem State.result2_pendingAxes (s : State) (a : I32) (b : U32) : (s.result2 a b).pendingAxes = s.pendingAxes := rfl
@[simp] theorem State.result2_settings (s : State) (a : I32) (b : U32) : (s.result2 a b).settings = s.settings := rfl
@[simp] theorem State.result2_guard (s : State) (a : I32) (b : U32) : (s.result2 a b).guard = s.guard := rfl
@[simp] theorem State.result2_fault (s : State) (a : I32) (b : U32) : (s.result2 a b).fault = s.fault := rfl
@[simp] theorem State.result2_refused (s : State) (a : I32) (b : U32) : (s.result2 a b).refused = s.refused := rfl
@[simp] theorem State.result2_out (s : State) (a : I32) (b : U32) : (s.result2 a b).out = s.out := rfl
@[simp] theorem State.result2_sched (s : State) (a : I32) (b : U32) : (s.result2 a b).sched = s.sched := rfl
@[simp] theorem State.result2_streams (s : State) (a : I32) (b : U32) : (s.result2 a b).streams = s.streams := rfl
@[simp] theorem State.result2_env (s : State) (a : I32) (b : U32) : (s.result2 a b).env = s.env := rfl

@[simp] theorem State.result_cfg (s : State) (a : I32) : (s.result a).cfg = s.cfg := rfl
@[simp] theorem State.result_res0 (s : State) (a : I32) : (s.result a).res0 = a := rfl
@[simp] theorem State.result_res1 (s : State) (a : I32) : (s.result a).res1 = 0 := rfl
@[simp] theorem State.result_putBlocked (s : State) (a : I32) : (s.result a).putBlocked = s.putBlocked := rfl
@[simp] theorem State.result_heldByte (s : State) (a : I32) : (s.result a).heldByte = s.heldByte := rfl
@[simp] theorem State.result_tx (s : State) (a : I32) : (s.result a).tx = s.tx := rfl
@[simp] theorem State.result_rx (s : State) (a : I32) : (s.result a).rx = s.rx := rfl
@[simp] theorem State.result_bak (s : State) (a : I32) : (s.result a).bak = s.bak := rfl
@[simp] theorem State.result_reader (s : State) (a : I32) : (s.result a).reader = s.reader := rfl
@[simp] theorem State.result_txie (s : State) (a : I32) : (s.result a).txie = s.txie := rfl
@[simp] theorem State.result_hwTxEmpty (s : State) (a : I32) : (s.result a).hwTxEmpty = s.hwTxEmpty := rfl
@[simp] theorem State.result_encs (s : State) (a : I32) : (s.result a).encs = s.encs := rfl
@[simp] theorem State.result_universal (s : State) (a : I32) : (s.result a).universal = s.universal := rfl
@[simp] theorem State.result_modeMsgPending (s : State) (a : I32) : (s.result a).modeMsgPending = s.modeMsgPending := rfl
@[simp] theorem State.result_rapidLevel (s : State) (a : I32) : (s.result a).rapidLevel = s.rapidLevel := rfl
@[simp] theorem State.result_axes (s : State) (a : I32) : (s.result a).axes = s.axes := rfl
@[simp] theorem State.result_pendingAxes (s : State) (a : I32) : (s.result a).pendingAxes = s.pendingAxes := rfl
@[simp] theorem State.result_settings (s : State) (a : I32) : (s.result a).settings = s.settings := rfl
@[simp] theorem State.result_guard (s : State) (a : I32) : (s.result a).guard = s.guard := rfl
@[simp] theorem State.result_fault (s : State) (a : I32) : (s.result a).fault = s.fault := rfl
@[simp] theorem State.result_refused (s : State) (a : I32) : (s.result a).refused = s.refused := rfl
@[simp] theorem State.result_out (s : State) (a : I32) : (s.result a).out = s.out := rfl
@[simp] theorem State.result_sched (s : State) (a : I32) : (s.result a).sched = s.sched := rfl
@[simp] theorem State.result_streams (s : State) (a : I32) : (s.result a).streams = s.streams := rfl
@[simp] theorem State.result_env (s : State) (a : I32) : (s.result a).env = s.env := rfl

@[simp] theorem State.emit_cfg (s : State) (e : OutEvent) : (s.emit e).cfg = s.cfg := rfl
@[simp] theorem State.emit_res0 (s : State) (e : OutEvent) : (s.emit e).res0 = s.res0 := rfl
@[simp] theorem State.emit_res1 (s : State) (e : OutEvent) : (s.emit e).res1 = s.res1 := rfl
@[simp] theorem State.emit_putBlocked (s : State) (e : OutEvent) : (s.emit e).putBlocked = s.putBlocked := rfl
@[simp] theorem State.emit_heldByte (s : State) (e : OutEvent) : (s.emit e).heldByte = s.heldByte := rfl
@[simp] theorem State.emit_tx (s : State) (e : OutEvent) : (s.emit e).tx = s.tx := rfl
@[simp] theorem State.emit_rx (s : State) (e : OutEvent) : (s.emit e).rx = s.rx := rfl
@[simp] theorem State.emit_bak (s : State) (e : OutEvent) : (s.emit e).bak = s.bak := rfl
@[simp] theorem State.emit_reader (s : State) (e : OutEvent) : (s.emit e).reader = s.reader := rfl
@[simp] theorem State.emit_txie (s : State) (e : OutEvent) : (s.emit e).txie = s.txie := rfl
@[simp] theorem State.emit_hwTxEmpty (s : State) (e : OutEvent) : (s.emit e).hwTxEmpty = s.hwTxEmpty := rfl
@[simp] theorem State.emit_encs (s : State) (e : OutEvent) : (s.emit e).encs = s.encs := rfl
@[simp] theorem State.emit_universal (s : State) (e : OutEvent) : (s.emit e).universal = s.universal := rfl
@[simp] theorem State.emit_modeMsgPending (s : State) (e : OutEvent) : (s.emit e).modeMsgPending = s.modeMsgPending := rfl
@[simp] theorem State.emit_rapidLevel (s : State) (e : OutEvent) : (s.emit e).rapidLevel = s.rapidLevel := rfl
@[simp] theorem State.emit_axes (s : State) (e : OutEvent) : (s.emit e).axes = s.axes := rfl
@[simp] theorem State.emit_pendingAxes (s : State) (e : OutEvent) : (s.emit e).pendingAxes = s.pendingAxes := rfl
@[simp] theorem State.emit_settings (s : State) (e : OutEvent) : (s.emit e).settings = s.settings := rfl
@[simp] theorem State.emit_guard (s : State) (e : OutEvent) : (s.emit e).guard = s.guard := rfl
@[simp] theorem State.emit_fault (s : State) (e : OutEvent) : (s.emit e).fault = s.fault := rfl
@[simp] theorem State.emit_refused (s : State) (e : OutEvent) : (s.emit e).refused = s.refused := rfl
@[simp] theorem State.emit_out (s : State) (e : OutEvent) : (s.emit e).out = s.out ++ [e] := rfl
@[simp] theorem State.emit_sched (s : State) (e : OutEvent) : (s.emit e).sched = s.sched := rfl
@[simp] theorem State.emit_streams (s : State) (e : OutEvent) : (s.emit e).streams = s.streams := rfl
@[simp] theorem State.emit_env (s : State) (e : OutEvent) : (s.emit e).env = s.env := rfl

@[simp] theorem State.emitMany_cfg (s : State) (n : Nat) (e : OutEvent) : (s.emitMany n e).cfg = s.cfg := rfl
@[simp] theorem State.emitMany_res0 (s : State) (n : Nat) (e : OutEvent) : (s.emitMany n e).res0 = s.res0 := rfl
@[simp] theorem State.emitMany_res1 (s : State) (n : Nat) (e : OutEvent) : (s.emitMany n e).res1 = s.res1 := rfl
@[simp] theorem State.emitMany_putBlocked (s : State) (n : Nat) (e : OutEvent) : (s.emitMany n e).putBlocked = s.putBlocked := rfl
@[simp] theorem State.emitMany_heldByte (s : State) (n : Nat) (e : OutEvent) : (s.emitMany n e).heldByte = s.heldByte := rfl
@[simp] theorem State.emitMany_tx (s : State) (n : Nat) (e : OutEvent) : (s.emitMany n e).tx = s.tx := rfl
@[simp] theorem State.emitMany_rx (s : State) (n : Nat) (e : OutEvent) : (s.emitMany n e).rx = s.rx := rfl
@[simp] theorem State.emitMany_bak (s : State) (n : Nat) (e : OutEvent) : (s.emitMany n e).bak = s.bak := rfl
@[simp] theorem State.emitMany_reader (s : State) (n : Nat) (e : OutEvent) : (s.emitMany n e).reader = s.reader := rfl
@[simp] theorem State.emitMany_txie (s : State) (n : Nat) (e : OutEvent) : (s.emitMany n e).txie = s.txie := rfl
@[simp] theorem State.emitMany_hwTxEmpty (s : State) (n : Nat) (e : OutEvent) : (s.emitMany n e).hwTxEmpty = s.hwTxEmpty := rfl
@[simp] theorem State.emitMany_encs (s : State) (n : Nat) (e : OutEvent) : (s.emitMany n e).encs = s.encs := rfl
@[simp] theorem State.emitMany_universal (s : State) (n : Nat) (e : OutEvent) : (s.emitMany n e).universal = s.universal := rfl
@[simp] theorem State.emitMany_modeMsgPending (s : State) (n : Nat) (e : OutEvent) : (s.emitMany n e).modeMsgPending = s.modeMsgPending := rfl
@[simp] theorem State.emitMany_rapidLevel (s : State) (n : Nat) (e : OutEvent) : (s.emitMany n e).rapidLevel = s.rapidLevel := rfl
@[simp] theorem State.emitMany_axes (s : State) (n : Nat) (e : OutEvent) : (s.emitMany n e).axes = s.axes := rfl
@[simp] theorem State.emitMany_pendingAxes (s : State) (n : Nat) (e : OutEvent) : (s.emitMany n e).pendingAxes = s.pendingAxes := rfl
@[simp] theorem State.emitMany_settings (s : State) (n : Nat) (e : OutEvent) : (s.emitMany n e).settings = s.settings := rfl
@[simp] theorem State.emitMany_guard (s : State) (n : Nat) (e : OutEvent) : (s.emitMany n e).guard = s.guard := rfl
@[simp] theorem State.emitMany_fault (s : State) (n : Nat) (e : OutEvent) : (s.emitMany n e).fault = s.fault := rfl
@[simp] theorem State.emitMany_refused (s : State) (n : Nat) (e : OutEvent) : (s.emitMany n e).refused = s.refused := rfl
@[simp] theorem State.emitMany_out (s : State) (n : Nat) (e : OutEvent) : (s.emitMany n e).out = s.out ++ List.replicate n e := rfl
@[simp] theorem State.emitMany_sched (s : State) (n : Nat) (e : OutEvent) : (s.emitMany n e).sched = s.sched := rfl
@[simp] theorem State.emitMany_streams (s : State) (n : Nat) (e : OutEvent) : (s.emitMany n e).streams = s.streams := rfl
@[simp] theorem State.emitMany_env (s : State) (n : Nat) (e : OutEvent) : (s.emitMany n e).env = s.env := rfl

@[simp] theorem State.txPush_cfg (s : State) (b : Byte) : (s.txPush b).cfg = s.cfg := rfl
@[simp] theorem State.txPush_res0 (s : State) (b : Byte) : (s.txPush b).res0 = s.res0 := rfl
@[simp] theorem State.txPush_res1 (s : State) (b : Byte) : (s.txPush b).res1 = s.res1 := rfl
@[simp] theorem State.txPush_putBlocked (s : State) (b : Byte) : (s.txPush b).putBlocked = s.putBlocked := rfl
@[simp] theorem State.txPush_heldByte (s : State) (b : Byte) : (s.txPush b).heldByte = s.heldByte := rfl
@[simp] theorem State.txPush_tx (s : State) (b : Byte) : (s.txPush b).tx = s.tx.push s.cfg.txCap b := rfl
@[simp] theorem State.txPush_rx (s : State) (b : Byte) : (s.txPush b).rx = s.rx := rfl
@[simp] theorem State.txPush_bak (s : State) (b : Byte) : (s.txPush b).bak = s.bak := rfl
@[simp] theorem State.txPush_reader (s : State) (b : Byte) : (s.txPush b).reader = s.reader := rfl
@[simp] theorem State.txPush_txie (s : State) (b : Byte) : (s.txPush b).txie = s.txie := rfl
@[simp] theorem State.txPush_hwTxEmpty (s : State) (b : Byte) : (s.txPush b).hwTxEmpty = s.hwTxEmpty := rfl
@[simp] theorem State.txPush_encs (s : State) (b : Byte) : (s.txPush b).encs = s.encs := rfl
@[simp] theorem State.txPush_universal (s : State) (b : Byte) : (s.txPush b).universal = s.universal := rfl
@[simp] theorem State.txPush_modeMsgPending (s : State) (b : Byte) : (s.txPush b).modeMsgPending = s.modeMsgPending := rfl
@[simp] theorem State.txPush_rapidLevel (s : State) (b : Byte) : (s.txPush b).rapidLevel = s.rapidLevel := rfl
@[simp] theorem State.txPush_axes (s : State) (b : Byte) : (s.txPush b).axes = s.axes := rfl
@[simp] theorem State.txPush_pendingAxes (s : State) (b : Byte) : (s.txPush b).pendingAxes = s.pendingAxes := rfl
@[simp] theorem State.txPush_settings (s : State) (b : Byte) : (s.txPush b).settings = s.settings := rfl
@[simp] theorem State.txPush_guard (s : State) (b : Byte) : (s.txPush b).guard = s.guard := rfl
@[simp] theorem State.txPush_fault (s : State) (b : Byte) : (s.txPush b).fault = s.fault := rfl
@[simp] theorem State.txPush_refused (s : State) (b : Byte) : (s.txPush b).refused = s.refused := rfl
@[simp] theorem State.txPush_out (s : State) (b : Byte) : (s.txPush b).out = s.out := rfl
@[simp] theorem State.txPush_sched (s : State) (b : Byte) : (s.txPush b).sched = s.sched := rfl
@[simp] theorem State.txPush_streams (s : State) (b : Byte) : (s.txPush b).streams = s.streams := rfl
@[simp] theorem State.txPush_env (s : State) (b : Byte) : (s.txPush b).env = s.env := rfl

@[simp] theorem State.txDrop_cfg (s : State) : (s.txDrop).cfg = s.cfg := rfl
@[simp] theorem State.txDrop_res0 (s : State) : (s.txDrop).res0 = s.res0 := rfl
@[simp] theorem State.txDrop_res1 (s : State) : (s.txDrop).res1 = s.res1 := rfl
@[simp] theorem State.txDrop_putBlocked (s : State) : (s.txDrop).putBlocked = s.putBlocked := rfl
@[simp] theorem State.txDrop_heldByte (s : State) : (s.txDrop).heldByte = s.heldByte := rfl
@[simp] theorem State.txDrop_tx (s : State) : (s.txDrop).tx = s.tx.drop s.cfg.txCap := rfl
@[simp] theorem State.txDrop_rx (s : State) : (s.txDrop).rx = s.rx := rfl
@[simp] theorem State.txDrop_bak (s : State) : (s.txDrop).bak = s.bak := rfl
@[simp] theorem State.txDrop_reader (s : State) : (s.txDrop).reader = s.reader := rfl
@[simp] theorem State.txDrop_txie (s : State) : (s.txDrop).txie = s.txie := rfl
@[simp] theorem State.txDrop_hwTxEmpty (s : State) : (s.txDrop).hwTxEmpty = s.hwTxEmpty := rfl
@[simp] theorem State.txDrop_encs (s : State) : (s.txDrop).encs = s.encs := rfl
@[simp] theorem State.txDrop_universal (s : State) : (s.txDrop).universal = s.universal := rfl
@[simp] theorem State.txDrop_modeMsgPending (s : State) : (s.txDrop).modeMsgPending = s.modeMsgPending := rfl
@[simp] theorem State.txDrop_rapidLevel (s : State) : (s.txDrop).rapidLevel = s.rapidLevel := rfl
@[simp] theorem State.txDrop_axes (s : State) : (s.txDrop).axes = s.axes := rfl
@[simp] theorem State.txDrop_pendingAxes (s : State) : (s.txDrop).pendingAxes = s.pendingAxes := rfl
@[simp] theorem State.txDrop_settings (s : State) : (s.txDrop).settings = s.settings := rfl
@[simp] theorem State.txDrop_guard (s : State) : (s.txDrop).guard = s.guard := rfl
@[simp] theorem State.txDrop_fault (s : State) : (s.txDrop).fault = s.fault := rfl
@[simp] theorem State.txDrop_refused (s : State) : (s.txDrop).refused = s.refused := rfl
@[simp] theorem State.txDrop_out (s : State) : (s.txDrop).out = s.out := rfl
@[simp] theorem State.txDrop_sched (s : State) : (s.txDrop).sched = s.sched := rfl
@[simp] theorem State.txDrop_streams (s : State) : (s.txDrop).streams = s.streams := rfl
@[simp] theorem State.txDrop_env (s : State) : (s.txDrop).env = s.env := rfl

@[simp] theorem State.rxPush_cfg (s : State) (b : Byte) : (s.rxPush b).cfg = s.cfg := rfl
@[simp] theorem State.rxPush_res0 (s : State) (b : Byte) : (s.rxPush b).res0 = s.res0 := rfl
@[simp] theorem State.rxPush_res1 (s : State) (b : Byte) : (s.rxPush b).res1 = s.res1 := rfl
@[simp] theorem State.rxPush_putBlocked (s : State) (b : Byte) : (s.rxPush b).putBlocked = s.putBlocked := rfl
@[simp] theorem State.rxPush_heldByte (s : State) (b : Byte) : (s.rxPush b).heldByte = s.heldByte := rfl
@[simp] theorem State.rxPush_tx (s : State) (b : Byte) : (s.rxPush b).tx = s.tx := rfl
@[simp] theorem State.rxPush_rx (s : State) (b : Byte) : (s.rxPush b).rx = { s.rx with toRing := s.rx.toRing.push s.cfg.rxCap b } := rfl
@[simp] theorem State.rxPush_bak (s : State) (b : Byte) : (s.rxPush b).bak = s.bak := rfl
@[simp] theorem State.rxPush_reader (s : State) (b : Byte) : (s.rxPush b).reader = s.reader := rfl
@[simp] theorem State.rxPush_txie (s : State) (b : Byte) : (s.rxPush b).txie = s.txie := rfl
@[simp] theorem State.rxPush_hwTxEmpty (s : State) (b : Byte) : (s.rxPush b).hwTxEmpty = s.hwTxEmpty := rfl
@[simp] theorem State.rxPush_encs (s : State) (b : Byte) : (s.rxPush b).encs = s.encs := rfl
@[simp] theorem State.rxPush_universal (s : State) (b : Byte) : (s.rxPush b).universal = s.universal := rfl
@[simp] theorem State.rxPush_modeMsgPending (s : State) (b : Byte) : (s.rxPush b).modeMsgPending = s.modeMsgPending := rfl
@[simp] theorem State.rxPush_rapidLevel (s : State) (b : Byte) : (s.rxPush b).rapidLevel = s.rapidLevel := rfl
@[simp] theorem State.rxPush_axes (s : State) (b : Byte) : (s.rxPush b).axes = s.axes := rfl
@[simp] theorem State.rxPush_pendingAxes (s : State) (b : Byte) : (s.rxPush b).pendingAxes = s.pendingAxes := rfl
@[simp] theorem State.rxPush_settings (s : State) (b : Byte) : (s.rxPush b).settings = s.settings := rfl
@[simp] theorem State.rxPush_guard (s : State) (b : Byte) : (s.rxPush b).guard = s.guard := rfl
@[simp] theorem State.rxPush_fault (s : State) (b : Byte) : (s.rxPush b).fault = s.fault := rfl
@[simp] theorem State.rxPush_refused (s : State) (b : Byte) : (s.rxPush b).refused = s.refused := rfl
@[simp] theorem State.rxPush_out (s : State) (b : Byte) : (s.rxPush b).out = s.out := rfl
@[simp] theorem State.rxPush_sched (s : State) (b : Byte) : (s.rxPush b).sched = s.sched := rfl
@[simp] theorem State.rxPush_streams (s : State) (b : Byte) : (s.rxPush b).streams = s.streams := rfl
@[simp] theorem State.rxPush_env (s : State) (b : Byte) : (s.rxPush b).env = s.env := rfl

@[simp] theorem State.rxDrop_cfg (s : State) : (s.rxDrop).cfg = s.cfg := rfl
@[simp] theorem State.rxDrop_res0 (s : State) : (s.rxDrop).res0 = s.res0 := rfl
@[simp] theorem State.rxDrop_res1 (s : State) : (s.rxDrop).res1 = s.res1 := rfl
@[simp] theorem State.rxDrop_putBlocked (s : State) : (s.rxDrop).putBlocked = s.putBlocked := rfl
@[simp] theorem State.rxDrop_heldByte (s : State) : (s.rxDrop).heldByte = s.heldByte := rfl
@[simp] theorem State.rxDrop_tx (s : State) : (s.rxDrop).tx = s.tx := rfl
@[simp] theorem State.rxDrop_rx (s : State) : (s.rxDrop).rx = { s.rx with toRing := s.rx.toRing.drop s.cfg.rxCap } := rfl
@[simp] theorem State.rxDrop_bak (s : State) : (s.rxDrop).bak = s.bak := rfl
@[simp] theorem State.rxDrop_reader (s : State) : (s.rxDrop).reader = s.reader := rfl
@[simp] theorem State.rxDrop_txie (s : State) : (s.rxDrop).txie = s.txie := rfl
@[simp] theorem State.rxDrop_hwTxEmpty (s : State) : (s.rxDrop).hwTxEmpty = s.hwTxEmpty := rfl
@[simp] theorem State.rxDrop_encs (s : State) : (s.rxDrop).encs = s.encs := rfl
@[simp] theorem State.rxDrop_universal (s : State) : (s.rxDrop).universal = s.universal := rfl
@[simp] theorem State.rxDrop_modeMsgPending (s : State) : (s.rxDrop).modeMsgPending = s.modeMsgPending := rfl
@[simp] theorem State.rxDrop_rapidLevel (s : State) : (s.rxDrop).rapidLevel = s.rapidLevel := rfl
@[simp] theorem State.rxDrop_axes (s : State) : (s.rxDrop).axes = s.axes := rfl
@[simp] theorem State.rxDrop_pendingAxes (s : State) : (s.rxDrop).pendingAxes = s.pendingAxes := rfl
@[simp] theorem State.rxDrop_settings (s : State) : (s.rxDrop).settings = s.settings := rfl
@[simp] theorem State.rxDrop_guard (s : State) : (s.rxDrop).guard = s.guard := rfl
@[simp] theorem State.rxDrop_fault (s : State) : (s.rxDrop).fault = s.fault := rfl
@[simp] theorem State.rxDrop_refused (s : State) : (s.rxDrop).refused = s.refused := rfl
@[simp] theorem State.rxDrop_out (s : State) : (s.rxDrop).out = s.out := rfl
@[simp] theorem State.rxDrop_sched (s : State) : (s.rxDrop).sched = s.sched := rfl
@[simp] theorem State.rxDrop_streams (s : State) : (s.rxDrop).streams = s.streams := rfl
@[simp] theorem State.rxDrop_env (s : State) : (s.rxDrop).env = s.env := rfl

@[simp] theorem State.modEnc_cfg (s : State) (e : Nat) (f : Encoder → Encoder) : (s.modEnc e f).cfg = s.cfg := rfl
@[simp] theorem State.modEnc_res0 (s : State) (e : Nat) (f : Encoder → Encoder) : (s.modEnc e f).res0 = s.res0 := rfl
@[simp] theorem State.modEnc_res1 (s : State) (e : Nat) (f : Encoder → Encoder) : (s.modEnc e f).res1 = s.res1 := rfl
@[simp] theorem State.modEnc_putBlocked (s : State) (e : Nat) (f : Encoder → Encoder) : (s.modEnc e f).putBlocked = s.putBlocked := rfl
@[simp] theorem State.modEnc_heldByte (s : State) (e : Nat) (f : Encoder → Encoder) : (s.modEnc e f).heldByte = s.heldByte := rfl
@[simp] theorem State.modEnc_tx (s : State) (e : Nat) (f : Encoder → Encoder) : (s.modEnc e f).tx = s.tx := rfl
@[simp] theorem State.modEnc_rx (s : State) (e : Nat) (f : Encoder → Encoder) : (s.modEnc e f).rx = s.rx := rfl
@[simp] theorem State.modEnc_bak (s : State) (e : Nat) (f : Encoder → Encoder) : (s.modEnc e f).bak = s.bak := rfl
@[simp] theorem State.modEnc_reader (s : State) (e : Nat) (f : Encoder → Encoder) : (s.modEnc e f).reader = s.reader := rfl
@[simp] theorem State.modEnc_txie (s : State) (e : Nat) (f : Encoder → Encoder) : (s.modEnc e f).txie = s.txie := rfl
@[simp] theorem State.modEnc_hwTxEmpty (s : State) (e : Nat) (f : Encoder → Encoder) : (s.modEnc e f).hwTxEmpty = s.hwTxEmpty := rfl
@[simp] theorem State.modEnc_encs (s : State) (e : Nat) (f : Encoder → Encoder) : (s.modEnc e f).encs = s.encs.modify e f := rfl
@[simp] theorem State.modEnc_universal (s : State) (e : Nat) (f : Encoder → Encoder) : (s.modEnc e f).universal = s.universal := rfl
@[simp] theorem State.modEnc_modeMsgPending (s : State) (e : Nat) (f : Encoder → Encoder) : (s.modEnc e f).modeMsgPending = s.modeMsgPending := rfl
@[simp] theorem State.modEnc_rapidLevel (s : State) (e : Nat) (f : Encoder → Encoder) : (s.modEnc e f).rapidLevel = s.rapidLevel := rfl
@[simp] theorem State.modEnc_axes (s : State) (e : Nat) (f : Encoder → Encoder) : (s.modEnc e f).axes = s.axes := rfl
@[simp] theorem State.modEnc_pendingAxes (s : State) (e : Nat) (f : Encoder → Encoder) : (s.modEnc e f).pendingAxes = s.pendingAxes := rfl
@[simp] theorem State.modEnc_settings (s : State) (e : Nat) (f : Encoder → Encoder) : (s.modEnc e f).settings = s.settings := rfl
@[simp] theorem State.modEnc_guard (s : State) (e : Nat) (f : Encoder → Encoder) : (s.modEnc e f).guard = s.guard := rfl
@[simp] theorem State.modEnc_fault (s : State) (e : Nat) (f : Encoder → Encoder) : (s.modEnc e f).fault = s.fault := rfl
@[simp] theorem State.modEnc_refused (s : State) (e : Nat) (f : Encoder → Encoder) : (s.modEnc e f).refused = s.refused := rfl
@[simp] theorem State.modEnc_out (s : State) (e : Nat) (f : Encoder → Encoder) : (s.modEnc e f).out = s.out := rfl
@[simp] theorem State.modEnc_sched (s : State) (e : Nat) (f : Encoder → Encoder) : (s.modEnc e f).sched = s.sched := rfl
@[simp] theorem State.modEnc_streams (s : State) (e : Nat) (f : Encoder → Encoder) : (s.modEnc e f).streams = s.streams := rfl
@[simp] theorem State.modEnc_env (s : State) (e : Nat) (f : Encoder → Encoder) : (s.modEnc e f).env = s.env := rfl

@[simp] theorem State.modAxis_cfg (s : State) (k : Nat) (f : Axis → Axis) : (s.modAxis k f).cfg = s.cfg := rfl
@[simp] theorem State.modAxis_res0 (s : State) (k : Nat) (f : Axis → Axis) : (s.modAxis k f).res0 = s.res0 := rfl
@[simp] theorem State.modAxis_res1 (s : State) (k : Nat) (f : Axis → Axis) : (s.modAxis k f).res1 = s.res1 := rfl
@[simp] theorem State.modAxis_putBlocked (s : State) (k : Nat) (f : Axis → Axis) : (s.modAxis k f).putBlocked = s.putBlocked := rfl
@[simp] theorem State.modAxis_heldByte (s : State) (k : Nat) (f : Axis → Axis) : (s.modAxis k f).heldByte = s.heldByte := rfl
@[simp] theorem State.modAxis_tx (s : State) (k : Nat) (f : Axis → Axis) : (s.modAxis k f).tx = s.tx := rfl
@[simp] theorem State.modAxis_rx (s : State) (k : Nat) (f : Axis → Axis) : (s.modAxis k f).rx = s.rx := rfl
@[simp] theorem State.modAxis_bak (s : State) (k : Nat) (f : Axis → Axis) : (s.modAxis k f).bak = s.bak := rfl
@[simp] theorem State.modAxis_reader (s : State) (k : Nat) (f : Axis → Axis) : (s.modAxis k f).reader = s.reader := rfl
@[simp] theorem State.modAxis_txie (s : State) (k : Nat) (f : Axis → Axis) : (s.modAxis k f).txie = s.txie := rfl
@[simp] theorem State.modAxis_hwTxEmpty (s : State) (k : Nat) (f : Axis → Axis) : (s.modAxis k f).hwTxEmpty = s.hwTxEmpty := rfl
@[simp] theorem State.modAxis_encs (s : State) (k : Nat) (f : Axis → Axis) : (s.modAxis k f).encs = s.encs := rfl
@[simp] theorem State.modAxis_universal (s : State) (k : Nat) (f : Axis → Axis) : (s.modAxis k f).universal = s.universal := rfl
@[simp] theorem State.modAxis_modeMsgPending (s : State) (k : Nat) (f : Axis → Axis) : (s.modAxis k f).modeMsgPending = s.modeMsgPending := rfl
@[simp] theorem State.modAxis_rapidLevel (s : State) (k : Nat) (f : Axis → Axis) : (s.modAxis k f).rapidLevel = s.rapidLevel := rfl
@[simp] theorem State.modAxis_axes (s : State) (k : Nat) (f : Axis → Axis) : (s.modAxis k f).axes = s.axes.modify k f := rfl
@[simp] theorem State.modAxis_pendingAxes (s : State) (k : Nat) (f : Axis → Axis) : (s.modAxis k f).pendingAxes = s.pendingAxes := rfl
@[simp] theorem State.modAxis_settings (s : State) (k : Nat) (f : Axis → Axis) : (s.modAxis k f).settings = s.settings := rfl
@[simp] theorem State.modAxis_guard (s : State) (k : Nat) (f : Axis → Axis) : (s.modAxis k f).guard = s.guard := rfl
@[simp] theorem State.modAxis_fault (s : State) (k : Nat) (f : Axis → Axis) : (s.modAxis k f).fault = s.fault := rfl
@[simp] theorem State.modAxis_refused (s : State) (k : Nat) (f : Axis → Axis) : (s.modAxis k f).refused = s.refused := rfl
@[simp] theorem State.modAxis_out (s : State) (k : Nat) (f : Axis → Axis) : (s.modAxis k f).out = s.out := rfl
@[simp] theorem State.modAxis_sched (s : State) (k : Nat) (f : Axis → Axis) : (s.modAxis k f).sched = s.sched := rfl
@[simp] theorem State.modAxis_streams (s : State) (k : Nat) (f : Axis → Axis) : (s.modAxis k f).streams = s.streams := rfl
@[simp] theorem State.modAxis_env (s : State) (k : Nat) (f : Axis → Axis) : (s.modAxis k f).env = s.env := rfl

@[simp] theorem State.modSetting_cfg (s : State) (e : Nat) (f : Settings → Settings) : (s.modSetting e f).cfg = s.cfg := rfl
@[simp] theorem State.modSetting_res0 (s : State) (e : Nat) (f : Settings → Settings) : (s.modSetting e f).res0 = s.res0 := rfl
@[simp] theorem State.modSetting_res1 (s : State) (e : Nat) (f : Settings → Settings) : (s.modSetting e f).res1 = s.res1 := rfl
@[simp] theorem State.modSetting_putBlocked (s : State) (e : Nat) (f : Settings → Settings) : (s.modSetting e f).putBlocked = s.putBlocked := rfl
@[simp] theorem State.modSetting_heldByte (s : State) (e : Nat) (f : Settings → Settings) : (s.modSetting e f).heldByte = s.heldByte := rfl
@[simp] theorem State.modSetting_tx (s : State) (e : Nat) (f : Settings → Settings) : (s.modSetting e f).tx = s.tx := rfl
@[simp] theorem State.modSetting_rx (s : State) (e : Nat) (f : Settings → Settings) : (s.modSetting e f).rx = s.rx := rfl
@[simp] theorem State.modSetting_bak (s : State) (e : Nat) (f : Settings → Settings) : (s.modSetting e f).bak = s.bak := rfl
@[simp] theorem State.modSetting_reader (s : State) (e : Nat) (f : Settings → Settings) : (s.modSetting e f).reader = s.reader := rfl
@[simp] theorem State.modSetting_txie (s : State) (e : Nat) (f : Settings → Settings) : (s.modSetting e f).txie = s.txie := rfl
@[simp] theorem State.modSetting_hwTxEmpty (s : State) (e : Nat) (f : Settings → Settings) : (s.modSetting e f).hwTxEmpty = s.hwTxEmpty := rfl
@[simp] theorem State.modSetting_encs (s : State) (e : Nat) (f : Settings → Settings) : (s.modSetting e f).encs = s.encs := rfl
@[simp] theorem State.modSetting_universal (s : State) (e : Nat) (f : Settings → Settings) : (s.modSetting e f).universal = s.universal := rfl
@[simp] theorem State.modSetting_modeMsgPending (s : State) (e : Nat) (f : Settings → Settings) : (s.modSetting e f).modeMsgPending = s.modeMsgPending := rfl
@[simp] theorem State.modSetting_rapidLevel (s : State) (e : Nat) (f : Settings → Settings) : (s.modSetting e f).rapidLevel = s.rapidLevel := rfl
@[simp] theorem State.modSetting_axes (s : State) (e : Nat) (f : Settings → Settings) : (s.modSetting e f).axes = s.axes := rfl
@[simp] theorem State.modSetting_pendingAxes (s : State) (e : Nat) (f : Settings → Settings) : (s.modSetting e f).pendingAxes = s.pendingAxes := rfl
@[simp] theorem State.modSetting_settings (s : State) (e : Nat) (f : Settings → Settings) : (s.modSetting e f).settings = s.settings.modify e f := rfl
@[simp] theorem State.modSetting_guard (s : State) (e : Nat) (f : Settings → Settings) : (s.modSetting e f).guard = s.guard := rfl
@[simp] theorem State.modSetting_fault (s : State) (e : Nat) (f : Settings → Settings) : (s.modSetting e f).fault = s.fault := rfl
@[simp] theorem State.modSetting_refused (s : State) (e : Nat) (f : Settings → Settings) : (s.modSetting e f).refused = s.refused := rfl
@[simp] theorem State.modSetting_out (s : State) (e : Nat) (f : Settings → Settings) : (s.modSetting e f).out = s.out := rfl
@[simp] theorem State.modSetting_sched (s : State) (e : Nat) (f : Settings → Settings) : (s.modSetting e f).sched = s.sched := rfl
@[simp] theorem State.modSetting_streams (s : State) (e : Nat) (f : Settings → Settings) : (s.modSetting e f).streams = s.streams := rfl
@[simp] theorem State.modSetting_env (s : State) (e : Nat) (f : Settings → Settings) : (s.modSetting e f).env = s.env := rfl

@[simp] theorem State.resetEncoder_cfg (s : State) (e : Nat) : (s.resetEncoder e).cfg = s.cfg := rfl
@[simp] theorem State.resetEncoder_res0 (s : State) (e : Nat) : (s.resetEncoder e).res0 = s.res0 := rfl
@[simp] theorem State.resetEncoder_res1 (s : State) (e : Nat) : (s.resetEncoder e).res1 = s.res1 := rfl
@[simp] theorem State.resetEncoder_putBlocked (s : State) (e : Nat) : (s.resetEncoder e).putBlocked = s.putBlocked := rfl
@[simp] theorem State.resetEncoder_heldByte (s : State) (e : Nat) : (s.resetEncoder e).heldByte = s.heldByte := rfl
@[simp] theorem State.resetEncoder_tx (s : State) (e : Nat) : (s.resetEncoder e).tx = s.tx := rfl
@[simp] theorem State.resetEncoder_rx (s : State) (e : Nat) : (s.resetEncoder e).rx = s.rx := rfl
@[simp] theorem State.resetEncoder_bak (s : State) (e : Nat) : (s.resetEncoder e).bak = s.bak := rfl
@[simp] theorem State.resetEncoder_reader (s : State) (e : Nat) : (s.resetEncoder e).reader = s.reader := rfl
@[simp] theorem State.resetEncoder_txie (s : State) (e : Nat) : (s.resetEncoder e).txie = s.txie := rfl
@[simp] theorem State.resetEncoder_hwTxEmpty (s : State) (e : Nat) : (s.resetEncoder e).hwTxEmpty = s.hwTxEmpty := rfl
@[simp] theorem State.resetEncoder_encs (s : State) (e : Nat) : (s.resetEncoder e).encs = s.encs.modify e (fun x => { x with position := 0 }) := rfl
@[simp] theorem State.resetEncoder_universal (s : State) (e : Nat) : (s.resetEncoder e).universal = s.universal := rfl
@[simp] theorem State.resetEncoder_modeMsgPending (s : State) (e : Nat) : (s.resetEncoder e).modeMsgPending = s.modeMsgPending := rfl
@[simp] theorem State.resetEncoder_rapidLevel (s : State) (e : Nat) : (s.resetEncoder e).rapidLevel = s.rapidLevel := rfl
@[simp] theorem State.resetEncoder_axes (s : State) (e : Nat) : (s.resetEncoder e).axes = s.axes := rfl
@[simp] theorem State.resetEncoder_pendingAxes (s : State) (e : Nat) : (s.resetEncoder e).pendingAxes = s.pendingAxes := rfl
@[simp] theorem State.resetEncoder_settings (s : State) (e : Nat) : (s.resetEncoder e).settings = s.settings := rfl
@[simp] theorem State.resetEncoder_guard (s : State) (e : Nat) : (s.resetEncoder e).guard = s.guard := rfl
@[simp] theorem State.resetEncoder_fault (s : State) (e : Nat) : (s.resetEncoder e).fault = s.fault := rfl
@[simp] theorem State.resetEncoder_refused (s : State) (e : Nat) : (s.resetEncoder e).refused = s.refused := rfl
@[simp] theorem State.resetEncoder_out (s : State) (e : Nat) : (s.resetEncoder e).out = s.out ++ [.counterReset e] := rfl
@[simp] theorem State.resetEncoder_sched (s : State) (e : Nat) : (s.resetEncoder e).sched = s.sched := rfl
@[simp] theorem State.resetEncoder_streams (s : State) (e : Nat) : (s.resetEncoder e).streams = s.streams := rfl
@[simp] theorem State.resetEncoder_env (s : State) (e : Nat) : (s.resetEncoder e).env = s.env := rfl

@[simp] theorem State.setEncPosition_cfg (s : State) (e : Nat) (p : I32) : (s.setEncPosition e p).cfg = s.cfg := rfl
@[simp] theorem State.setEncPosition_res0 (s : State) (e : Nat) (p : I32) : (s.setEncPosition e p).res0 = s.res0 := rfl
@[simp] theorem State.setEncPosition_res1 (s : State) (e : Nat) (p : I32) : (s.setEncPosition e p).res1 = s.res1 := rfl
@[simp] theorem State.setEncPosition_putBlocked (s : State) (e : Nat) (p : I32) : (s.setEncPosition e p).putBlocked = s.putBlocked := rfl
@[simp] theorem State.setEncPosition_heldByte (s : State) (e : Nat) (p : I32) : (s.setEncPosition e p).heldByte = s.heldByte := rfl
@[simp] theorem State.setEncPosition_tx (s : State) (e : Nat) (p : I32) : (s.setEncPosition e p).tx = s.tx := rfl
@[simp] theorem State.setEncPosition_rx (s : State) (e : Nat) (p : I32) : (s.setEncPosition e p).rx = s.rx := rfl
@[simp] theorem State.setEncPosition_bak (s : State) (e : Nat) (p : I32) : (s.setEncPosition e p).bak = s.bak := rfl
@[simp] theorem State.setEncPosition_reader (s : State) (e : Nat) (p : I32) : (s.setEncPosition e p).reader = s.reader := rfl
@[simp] theorem State.setEncPosition_txie (s : State) (e : Nat) (p : I32) : (s.setEncPosition e p).txie = s.txie := rfl
@[simp] theorem State.setEncPosition_hwTxEmpty (s : State) (e : Nat) (p : I32) : (s.setEncPosition e p).hwTxEmpty = s.hwTxEmpty := rfl
@[simp] theorem State.setEncPosition_encs (s : State) (e : Nat) (p : I32) : (s.setEncPosition e p).encs = s.encs.modify e (fun x => { x with position := p }) := rfl
@[simp] theorem State.setEncPosition_universal (s : State) (e : Nat) (p : I32) : (s.setEncPosition e p).universal = s.universal := rfl
@[simp] theorem State.setEncPosition_modeMsgPending (s : State) (e : Nat) (p : I32) : (s.setEncPosition e p).modeMsgPending = s.modeMsgPending := rfl
@[simp] theorem State.setEncPosition_rapidLevel (s : State) (e : Nat) (p : I32) : (s.setEncPosition e p).rapidLevel = s.rapidLevel := rfl
@[simp] theorem State.setEncPosition_axes (s : State) (e : Nat) (p : I32) : (s.setEncPosition e p).axes = s.axes := rfl
@[simp] theorem State.setEncPosition_pendingAxes (s : State) (e : Nat) (p : I32) : (s.setEncPosition e p).pendingAxes = s.pendingAxes := rfl
@[simp] theorem State.setEncPosition_settings (s : State) (e : Nat) (p : I32) : (s.setEncPosition e p).settings = s.settings := rfl
@[simp] theorem State.setEncPosition_guard (s : State) (e : Nat) (p : I32) : (s.setEncPosition e p).guard = s.guard := rfl
@[simp] theorem State.setEncPosition_fault (s : State) (e : Nat) (p : I32) : (s.setEncPosition e p).fault = s.fault := rfl
@[simp] theorem State.setEncPosition_refused (s : State) (e : Nat) (p : I32) : (s.setEncPosition e p).refused = s.refused := rfl
@[simp] theorem State.setEncPosition_out (s : State) (e : Nat) (p : I32) : (s.setEncPosition e p).out = s.out := rfl
@[simp] theorem State.setEncPosition_sched (s : State) (e : Nat) (p : I32) : (s.setEncPosition e p).sched = s.sched := rfl
@[simp] theorem State.setEncPosition_streams (s : State) (e : Nat) (p : I32) : (s.setEncPosition e p).streams = s.streams := rfl
@[simp] theorem State.setEncPosition_env (s : State) (e : Nat) (p : I32) : (s.setEncPosition e p).env = s.env := rfl

@[simp] theorem State.setAxisPosition_cfg (s : State) (k : Nat) (p : I32) : (s.setAxisPosition k p).cfg = s.cfg := rfl
@[simp] theorem State.setAxisPosition_res0 (s : State) (k : Nat) (p : I32) : (s.setAxisPosition k p).res0 = s.res0 := rfl
@[simp] theorem State.setAxisPosition_res1 (s : State) (k : Nat) (p : I32) : (s.setAxisPosition k p).res1 = s.res1 := rfl
@[simp] theorem State.setAxisPosition_putBlocked (s : State) (k : Nat) (p : I32) : (s.setAxisPosition k p).putBlocked = s.putBlocked := rfl
@[simp] theorem State.setAxisPosition_heldByte (s : State) (k : Nat) (p : I32) : (s.setAxisPosition k p).heldByte = s.heldByte := rfl
@[simp] theorem State.setAxisPosition_tx (s : State) (k : Nat) (p : I32) : (s.setAxisPosition k p).tx = s.tx := rfl
@[simp] theorem State.setAxisPosition_rx (s : State) (k : Nat) (p : I32) : (s.setAxisPosition k p).rx = s.rx := rfl
@[simp] theorem State.setAxisPosition_bak (s : State) (k : Nat) (p : I32) : (s.setAxisPosition k p).bak = s.bak := rfl
@[simp] theorem State.setAxisPosition_reader (s : State) (k : Nat) (p : I32) : (s.setAxisPosition k p).reader = s.reader := rfl
@[simp] theorem State.setAxisPosition_txie (s : State) (k : Nat) (p : I32) : (s.setAxisPosition k p).txie = s.txie := rfl
@[simp] theorem State.setAxisPosition_hwTxEmpty (s : State) (k : Nat) (p : I32) : (s.setAxisPosition k p).hwTxEmpty = s.hwTxEmpty := rfl
@[simp] theorem State.setAxisPosition_encs (s : State) (k : Nat) (p : I32) : (s.setAxisPosition k p).encs = s.encs := rfl
@[simp] theorem State.setAxisPosition_universal (s : State) (k : Nat) (p : I32) : (s.setAxisPosition k p).universal = s.universal := rfl
@[simp] theorem State.setAxisPosition_modeMsgPending (s : State) (k : Nat) (p : I32) : (s.setAxisPosition k p).modeMsgPending = s.modeMsgPending := rfl
@[simp] theorem State.setAxisPosition_rapidLevel (s : State) (k : Nat) (p : I32) : (s.setAxisPosition k p).rapidLevel = s.rapidLevel := rfl
@[simp] theorem State.setAxisPosition_axes (s : State) (k : Nat) (p : I32) : (s.setAxisPosition k p).axes = s.axes.modify k (fun x => { x with position := p }) := rfl
@[simp] theorem State.setAxisPosition_pendingAxes (s : State) (k : Nat) (p : I32) : (s.setAxisPosition k p).pendingAxes = s.pendingAxes := rfl
@[simp] theorem State.setAxisPosition_settings (s : State) (k : Nat) (p : I32) : (s.setAxisPosition k p).settings = s.settings := rfl
@[simp] theorem State.setAxisPosition_guard (s : State) (k : Nat) (p : I32) : (s.setAxisPosition k p).guard = s.guard := rfl
@[simp] theorem State.setAxisPosition_fault (s : State) (k : Nat) (p : I32) : (s.setAxisPosition k p).fault = s.fault := rfl
@[simp] theorem State.setAxisPosition_refused (s : State) (k : Nat) (p : I32) : (s.setAxisPosition k p).refused = s.refused := rfl
@[simp] theorem State.setAxisPosition_out (s : State) (k : Nat) (p : I32) : (s.setAxisPosition k p).out = s.out := rfl
@[simp] theorem State.setAxisPosition_sched (s : State) (k : Nat) (p : I32) : (s.setAxisPosition k p).sched = s.sched := rfl
@[simp] theorem State.setAxisPosition_streams (s : State) (k : Nat) (p : I32) : (s.setAxisPosition k p).streams = s.streams := rfl
@[simp] theorem State.setAxisPosition_env (s : State) (k : Nat) (p : I32) : (s.setAxisPosition k p).env = s.env := rfl

@[simp] theorem State.markAxis_cfg (s : State) (k : Nat) (f : AxisEvents → AxisEvents) : (s.markAxis k f).cfg = s.cfg := rfl
@[simp] theorem State.markAxis_res0 (s : State) (k : Nat) (f : AxisEvents → AxisEvents) : (s.markAxis k f).res0 = s.res0 := rfl
@[simp] theorem State.markAxis_res1 (s : State) (k : Nat) (f : AxisEvents → AxisEvents) : (s.markAxis k f).res1 = s.res1 := rfl
@[simp] theorem State.markAxis_putBlocked (s : State) (k : Nat) (f : AxisEvents → AxisEvents) : (s.markAxis k f).putBlocked = s.putBlocked := rfl
@[simp] theorem State.markAxis_heldByte (s : State) (k : Nat) (f : AxisEvents → AxisEvents) : (s.markAxis k f).heldByte = s.heldByte := rfl
@[simp] theorem State.markAxis_tx (s : State) (k : Nat) (f : AxisEvents → AxisEvents) : (s.markAxis k f).tx = s.tx := rfl
@[simp] theorem State.markAxis_rx (s : State) (k : Nat) (f : AxisEvents → AxisEvents) : (s.markAxis k f).rx = s.rx := rfl
@[simp] theorem State.markAxis_bak (s : State) (k : Nat) (f : AxisEvents → AxisEvents) : (s.markAxis k f).bak = s.bak := rfl
@[simp] theorem State.markAxis_reader (s : State) (k : Nat) (f : AxisEvents → AxisEvents) : (s.markAxis k f).reader = s.reader := rfl
@[simp] theorem State.markAxis_txie (s : State) (k : Nat) (f : AxisEvents → AxisEvents) : (s.markAxis k f).txie = s.txie := rfl
@[simp] theorem State.markAxis_hwTxEmpty (s : State) (k : Nat) (f : AxisEvents → AxisEvents) : (s.markAxis k f).hwTxEmpty = s.hwTxEmpty := rfl
@[simp] theorem State.markAxis_encs (s : State) (k : Nat) (f : AxisEvents → AxisEvents) : (s.markAxis k f).encs = s.encs := rfl
@[simp] theorem State.markAxis_universal (s : State) (k : Nat) (f : AxisEvents → AxisEvents) : (s.markAxis k f).universal = s.universal := rfl
@[simp] theorem State.markAxis_modeMsgPending (s : State) (k : Nat) (f : AxisEvents → AxisEvents) : (s.markAxis k f).modeMsgPending = s.modeMsgPending := rfl
@[simp] theorem State.markAxis_rapidLevel (s : State) (k : Nat) (f : AxisEvents → AxisEvents) : (s.markAxis k f).rapidLevel = s.rapidLevel := rfl
@[simp] theorem State.markAxis_axes (s : State) (k : Nat) (f : AxisEvents → AxisEvents) : (s.markAxis k f).axes = s.axes.modify k (fun x => { x with event := f x.event }) := rfl
@[simp] theorem State.markAxis_pendingAxes (s : State) (k : Nat) (f : AxisEvents → AxisEvents) : (s.markAxis k f).pendingAxes = s.pendingAxes ||| (1#16 <<< k) := rfl
@[simp] theorem State.markAxis_settings (s : State) (k : Nat) (f : AxisEvents → AxisEvents) : (s.markAxis k f).settings = s.settings := rfl
@[simp] theorem State.markAxis_guard (s : State) (k : Nat) (f : AxisEvents → AxisEvents) : (s.markAxis k f).guard = false := rfl
@[simp] theorem State.markAxis_fault (s : State) (k : Nat) (f : AxisEvents → AxisEvents) : (s.markAxis k f).fault = s.fault := rfl
@[simp] theorem State.markAxis_refused (s : State) (k : Nat) (f : AxisEvents → AxisEvents) : (s.markAxis k f).refused = s.refused := rfl
@[simp] theorem State.markAxis_out (s : State) (k : Nat) (f : AxisEvents → AxisEvents) : (s.markAxis k f).out = s.out := rfl
@[simp] theorem State.markAxis_sched (s : State) (k : Nat) (f : AxisEvents → AxisEvents) : (s.markAxis k f).sched = s.sched := rfl
@[simp] theorem State.markAxis_streams (s : State) (k : Nat) (f : AxisEvents → AxisEvents) : (s.markAxis k f).streams = s.streams := rfl
@[simp] theorem State.markAxis_env (s : State) (k : Nat) (f : AxisEvents → AxisEvents) : (s.markAxis k f).env = s.env := rfl

@[simp] theorem State.countDraw_cfg (s : State) : (s.countDraw).cfg = s.cfg := rfl
@[simp] theorem State.countDraw_res0 (s : State) : (s.countDraw).res0 = s.res0 := rfl
@[simp] theorem State.countDraw_res1 (s : State) : (s.countDraw).res1 = s.res1 := rfl
@[simp] theorem State.countDraw_putBlocked (s : State) : (s.countDraw).putBlocked = s.putBlocked := rfl
@[simp] theorem State.countDraw_heldByte (s : State) : (s.countDraw).heldByte = s.heldByte := rfl
@[simp] theorem State.countDraw_tx (s : State) : (s.countDraw).tx = s.tx := rfl
@[simp] theorem State.countDraw_rx (s : State) : (s.countDraw).rx = s.rx := rfl
@[simp] theorem State.countDraw_bak (s : State) : (s.countDraw).bak = s.bak := rfl
@[simp] theorem State.countDraw_reader (s : State) : (s.countDraw).reader = s.reader := rfl
@[simp] theorem State.countDraw_txie (s : State) : (s.countDraw).txie = s.txie := rfl
@[simp] theorem State.countDraw_hwTxEmpty (s : State) : (s.countDraw).hwTxEmpty = s.hwTxEmpty := rfl
@[simp] theorem State.countDraw_encs (s : State) : (s.countDraw).encs = s.encs := rfl
@[simp] theorem State.countDraw_universal (s : State) : (s.countDraw).universal = s.universal := rfl
@[simp] theorem State.countDraw_modeMsgPending (s : State) : (s.countDraw).modeMsgPending = s.modeMsgPending := rfl
@[simp] theorem State.countDraw_rapidLevel (s : State) : (s.countDraw).rapidLevel = s.rapidLevel := rfl
@[simp] theorem State.countDraw_axes (s : State) : (s.countDraw).axes = s.axes := rfl
@[simp] theorem State.countDraw_pendingAxes (s : State) : (s.countDraw).pendingAxes = s.pendingAxes := rfl
@[simp] theorem State.countDraw_settings (s : State) : (s.countDraw).settings = s.settings := rfl
@[simp] theorem State.countDraw_guard (s : State) : (s.countDraw).guard = s.guard := rfl
@[simp] theorem State.countDraw_fault (s : State) : (s.countDraw).fault = s.fault := rfl
@[simp] theorem State.countDraw_refused (s : State) : (s.countDraw).refused = s.refused := rfl
@[simp] theorem State.countDraw_out (s : State) : (s.countDraw).out = s.out := rfl
@[simp] theorem State.countDraw_sched (s : State) : (s.countDraw).sched = s.sched := rfl
@[simp] theorem State.countDraw_streams (s : State) : (s.countDraw).streams = s.streams := rfl
@[simp] theorem State.countDraw_env (s : State) : (s.countDraw).env = { s.env with draws := s.env.draws + 1 } := rfl

end Sys2Proof.Machine
end

