-- ==== Sys2Proof/Laws/Arrays.lean ====
section
/-! SUPPORT. The arrays of encoders, axes and settings: what an indexed read gives after an indexed update. -/

namespace Sys2Proof.Machine

theorem getD_modify {α : Type} (l : List α) (i j : Nat) (f : α → α) (d : α) :
    (l.modify i f).getD j d = if i = j ∧ j < l.length then f (l.getD j d) else l.getD j d := by
  rw [List.getD_eq_getElem?_getD, List.getElem?_modify, List.getD_eq_getElem?_getD]
  by_cases hj : j < l.length
  · by_cases hi : i = j <;> simp [hi, hj]
  · simp [hj]

theorem getD_set {α : Type} (l : List α) (i j : Nat) (x d : α) :
    (l.set i x).getD j d = if i = j ∧ j < l.length then x else l.getD j d := by
  rw [List.getD_eq_getElem?_getD, List.getElem?_set, List.getD_eq_getElem?_getD]
  by_cases hj : j < l.length
  · by_cases hi : i = j <;> simp [hi, hj]
  · have : l[j]? = none := List.getElem?_eq_none (Nat.le_of_not_lt hj)
    by_cases hi : i = j <;> simp [hi, hj]

/-- Modifying an entry is setting it to its modified value. -/
theorem modify_eq_set {α : Type} (l : List α) (i : Nat) (f : α → α) (d : α) :
    l.modify i f = l.set i (f (l.getD i d)) := by
  apply List.ext_getElem?
  intro j
  rw [List.getElem?_modify, List.getElem?_set]
  by_cases hi : i = j
  · subst hi
    by_cases hj : i < l.length
    · simp [hj]
    · simp [hj]
  · simp [hi]

theorem getD_replicate {α : Type} (n j : Nat) (x d : α) (h : j < n) : (List.replicate n x).getD j d = x := by
  rw [List.getD_eq_getElem?_getD, List.getElem?_replicate]
  simp [h]

/-- Setting an entry to the value it has changes nothing. -/
theorem set_getD_self {α : Type} (l : List α) (i : Nat) (d : α) : l.set i (l.getD i d) = l := by
  apply List.ext_getElem?
  intro j
  rw [List.getElem?_set]
  by_cases hi : i = j
  · subst hi
    by_cases hj : i < l.length <;> simp [hj]
  · simp [hi]

theorem State.enc_modEnc (s : State) (e e' : Nat) (f : Encoder → Encoder) :
    (s.modEnc e f).enc e' = if e = e' ∧ e' < s.encs.length then f (s.enc e') else s.enc e' :=
  getD_modify _ _ _ _ _

theorem State.axis_modAxis (s : State) (k k' : Nat) (f : Axis → Axis) :
    (s.modAxis k f).axis k' = if k = k' ∧ k' < s.axes.length then f (s.axis k') else s.axis k' :=
  getD_modify _ _ _ _ _

theorem State.setting_modSetting (s : State) (e e' : Nat) (f : Settings → Settings) :
    (s.modSetting e f).setting e' = if e = e' ∧ e' < s.settings.length then f (s.setting e') else s.setting e' :=
  getD_modify _ _ _ _ _

theorem State.enc_modEnc_same (s : State) {e : Nat} (f : Encoder → Encoder) (h : e < s.encs.length) :
    (s.modEnc e f).enc e = f (s.enc e) := by
  rw [State.enc_modEnc, if_pos ⟨rfl, h⟩]

theorem State.enc_modEnc_ne (s : State) {e e' : Nat} (f : Encoder → Encoder) (h : e ≠ e') :
    (s.modEnc e f).enc e' = s.enc e' := by
  rw [State.enc_modEnc, if_neg (fun x => h x.1)]

theorem State.axis_modAxis_same (s : State) {k : Nat} (f : Axis → Axis) (h : k < s.axes.length) :
    (s.modAxis k f).axis k = f (s.axis k) := by
  rw [State.axis_modAxis, if_pos ⟨rfl, h⟩]

theorem State.axis_modAxis_ne (s : State) {k k' : Nat} (f : Axis → Axis) (h : k ≠ k') :
    (s.modAxis k f).axis k' = s.axis k' := by
  rw [State.axis_modAxis, if_neg (fun x => h x.1)]

/-- A field of an encoder that an update keeps, whatever the index. -/
theorem State.enc_modEnc_keep {α : Type} (s : State) (e e' : Nat) (f : Encoder → Encoder) (g : Encoder → α)
    (h : ∀ x, g (f x) = g x) : g ((s.modEnc e f).enc e') = g (s.enc e') := by
  rw [State.enc_modEnc]; split
  · exact h _
  · rfl

/-- A field of an axis that an update keeps, whatever the index. -/
theorem State.axis_modAxis_keep {α : Type} (s : State) (k k' : Nat) (f : Axis → Axis) (g : Axis → α)
    (h : ∀ x, g (f x) = g x) : g ((s.modAxis k f).axis k') = g (s.axis k') := by
  rw [State.axis_modAxis]; split
  · exact h _
  · rfl

/-- Reads of one array see only that array. -/
theorem State.enc_congr {s t : State} (h : t.encs = s.encs) (e : Nat) : t.enc e = s.enc e := by
  unfold State.enc; rw [h]

theorem State.axis_congr {s t : State} (h : t.axes = s.axes) (k : Nat) : t.axis k = s.axis k := by
  unfold State.axis; rw [h]

theorem State.setting_congr {s t : State} (h : t.settings = s.settings) (e : Nat) : t.setting e = s.setting e := by
  unfold State.setting; rw [h]

end Sys2Proof.Machine
end

