-- ==== Sys2Proof/Laws/Encoding.lean ====
section
/-! SUPPORT. Head words by their fields: the opcode map read field by field (30_encoding R101, R107). -/

namespace Sys2Proof

theorem headWord_and (opc a : BitVec 8) (b : BitVec 16) (opc' a' : BitVec 8) (b' : BitVec 16) :
    headWord opc a b &&& headWord opc' a' b' = headWord (opc &&& opc') (a &&& a') (b &&& b') :=
  BitVec.and_append.trans (by rw [BitVec.and_append]; rfl)

/-- Field B of a head word. -/
theorem headWord_b (opc a : BitVec 8) (b : BitVec 16) : (headWord opc a b).extractLsb' 0 16 = b :=
  BitVec.extractLsb'_append_eq_right

/-- Field A of a head word. -/
theorem headWord_a (opc a : BitVec 8) (b : BitVec 16) : (headWord opc a b).extractLsb' 16 8 = a :=
  (BitVec.extractLsb'_append_eq_of_le (by omega)).trans BitVec.extractLsb'_append_eq_right

/-- Field OPC of a head word. -/
theorem headWord_opc (opc a : BitVec 8) (b : BitVec 16) : (headWord opc a b).extractLsb' 24 8 = opc :=
  (BitVec.extractLsb'_append_eq_of_le (by omega)).trans BitVec.extractLsb'_append_eq_left

/-- Head words are equal exactly when their three fields are. -/
theorem headWord_eq_iff (opc a : BitVec 8) (b : BitVec 16) (opc' a' : BitVec 8) (b' : BitVec 16) :
    headWord opc a b = headWord opc' a' b' ↔ opc = opc' ∧ a = a' ∧ b = b' := by
  constructor
  · intro h
    refine ⟨?_, ?_, ?_⟩
    · rw [← headWord_opc opc a b, h, headWord_opc]
    · rw [← headWord_a opc a b, h, headWord_a]
    · rw [← headWord_b opc a b, h, headWord_b]
  · rintro ⟨rfl, rfl, rfl⟩; rfl

/-- Every word is the head word of its fields. -/
theorem eq_headWord (w : Word) : w = headWord (w.extractLsb' 24 8) (w.extractLsb' 16 8) (w.extractLsb' 0 16) := by
  unfold headWord
  rw [BitVec.extractLsb'_append_extractLsb'_eq_extractLsb' (by rfl),
    BitVec.extractLsb'_append_extractLsb'_eq_extractLsb' (by rfl)]
  exact (BitVec.extractLsb'_eq_self).symm

/-- A row given by the fields of its match and mask. -/
def fieldRow (op : Opcode) (opc : BitVec 8) (ma : BitVec 8) (mb : BitVec 16) (n : Nat) : Row :=
  ⟨op, headWord opc 0 0, headWord 0xFF ma mb, n⟩

/-- The opcode map by fields. -/
theorem opcodeTable_fields : opcodeTable =
    [ fieldRow .putByte 0x01 0xFF 0xFF00 0, fieldRow .getByte 0x02 0xFF 0xFFFF 0,
      fieldRow .txCount 0x03 0xFF 0xFFFF 0, fieldRow .rxCount 0x04 0xFF 0xFFFF 0,
      fieldRow .rxFree 0x05 0xFF 0xFFFF 0, fieldRow .rxOverflow 0x06 0xFF 0xFFFF 0,
      fieldRow .resumeInput 0x07 0xFF 0xFFFF 0, fieldRow .isrRx 0x10 0xFC 0xFF00 0,
      fieldRow .isrTx 0x11 0xFF 0xFFFF 0, fieldRow .isrRxErr 0x12 0xFC 0xFFFF 0,
      fieldRow .chanTxDone 0x18 0xFF 0xFFFF 0, fieldRow .encEvent 0x20 0x00 0xFFF8 2,
      fieldRow .executeRealtime 0x30 0xFF 0xFFFF 0, fieldRow .settingRead 0x40 0xFF 0x0000 0,
      fieldRow .settingWrite 0x41 0xFF 0x0000 1, fieldRow .settingsRestore 0x42 0xFF 0xFFFF 0 ] := by
  decide

/-- A row selects a head word when the opcodes agree and the masked parts of A and B are zero. -/
theorem fieldRow_selects (op : Opcode) (opc ma : BitVec 8) (mb : BitVec 16) (n : Nat) (o a : BitVec 8) (b : BitVec 16) :
    (fieldRow op opc ma mb n).selects (headWord o a b) =
      (decide (o = opc) && (decide (a &&& ma = 0) && decide (b &&& mb = 0))) := by
  have h : o &&& 0xFF = o := BitVec.and_allOnes
  rw [← Bool.decide_and, ← Bool.decide_and]
  simp only [fieldRow, Row.selects, headWord_and, h]
  exact decide_eq_decide.mpr (headWord_eq_iff _ _ _ _ _ _)

/-! ### Reserved bits: the masked part of a field the encoder writes is zero (30_encoding R104 to R106) -/

theorem byteField_masked (d : Byte) : ((0#8 ++ d : BitVec 16) &&& 0xFF00) = 0 := by
  revert d; decide

theorem errBits_masked (ovr fe : Bool) : (errBits ovr fe &&& 0xFC) = 0 := by
  revert ovr fe; decide

theorem eventField_masked (ev : BitVec 3) : ((0#13 ++ ev : BitVec 16) &&& 0xFFF8) = 0 := by
  revert ev; decide

/-- A vector is its high part and its low part. -/
theorem eq_append_parts {n m : Nat} (b : BitVec (n + m)) : b = b.extractLsb' m n ++ b.extractLsb' 0 m := by
  rw [BitVec.extractLsb'_append_extractLsb'_eq_extractLsb' (by omega)]
  simp

/-- A high part that a mask leaves zero is zero. -/
theorem high_zero {n m : Nat} (hi : BitVec n) (lo : BitVec m)
    (h : (hi ++ lo) &&& (BitVec.allOnes n ++ 0#m) = 0) : hi = 0#n := by
  rw [BitVec.and_append] at h
  have hx := congrArg (fun x : BitVec (n + m) => x.extractLsb' m n) h
  rw [show ((hi &&& BitVec.allOnes n) ++ (lo &&& 0#m)).extractLsb' m n = hi &&& BitVec.allOnes n from
    BitVec.extractLsb'_append_eq_left, BitVec.and_allOnes] at hx
  rw [hx]
  simp

/-- Field B of format BY whose reserved bits are zero is its byte. -/
theorem byteField_of_masked (b : BitVec 16) (h : b &&& 0xFF00 = 0) : b = 0#8 ++ b.extractLsb' 0 8 := by
  have hb := eq_append_parts (n := 8) (m := 8) b
  generalize b.extractLsb' 8 8 = hi, hl : b.extractLsb' 0 8 = lo at hb
  subst hb
  rw [high_zero hi lo h]

/-- Field B of format E whose reserved bits are zero is its event bits. -/
theorem eventField_of_masked (b : BitVec 16) (h : b &&& 0xFFF8 = 0) : b = 0#13 ++ b.extractLsb' 0 3 := by
  have hb := eq_append_parts (n := 13) (m := 3) b
  generalize b.extractLsb' 3 13 = hi, hl : b.extractLsb' 0 3 = lo at hb
  subst hb
  rw [high_zero hi lo h]

/-- Field A of formats BY and BE whose reserved bits are zero is its two error bits. -/
theorem errBits_of_masked (a : BitVec 8) : a &&& 0xFC = 0 → a = errBits (a.getLsbD 0) (a.getLsbD 1) := by
  revert a; decide

/-! ### Fields of encoded head words -/

theorem fieldD_headWord (o a : BitVec 8) (d : Byte) : fieldD (headWord o a (0#8 ++ d)) = d :=
  (BitVec.extractLsb'_append_eq_of_add_le (by omega)).trans BitVec.extractLsb'_append_eq_right

theorem fieldEv_headWord (o a : BitVec 8) (ev : BitVec 3) : fieldEv (headWord o a (0#13 ++ ev)) = ev :=
  (BitVec.extractLsb'_append_eq_of_add_le (by omega)).trans BitVec.extractLsb'_append_eq_right

theorem fieldId_headWord (o a : BitVec 8) (n : Nat) (h : n < 65536) :
    fieldId (headWord o a (BitVec.ofNat 16 n)) = n := by
  rw [fieldId, headWord_b, BitVec.toNat_ofNat]
  omega

theorem fieldEnc_headWord (o : BitVec 8) (b : BitVec 16) (n : Nat) (h : n < 256) :
    fieldEnc (headWord o (BitVec.ofNat 8 n) b) = n := by
  rw [fieldEnc, headWord_a, BitVec.toNat_ofNat]
  omega

theorem headWord_bitA (o a : BitVec 8) (b : BitVec 16) (i : Nat) (h : i < 8) :
    (headWord o a b).getLsbD (16 + i) = a.getLsbD i := by
  rw [← headWord_a o a b, BitVec.getLsbD_extractLsb', headWord_a]
  simp [h]

theorem fieldOvr_headWord (o : BitVec 8) (ovr fe : Bool) (b : BitVec 16) :
    fieldOvr (headWord o (errBits ovr fe) b) = ovr := by
  unfold fieldOvr
  rw [headWord_bitA o _ b 0 (by omega)]
  revert ovr fe; decide

theorem fieldFe_headWord (o : BitVec 8) (ovr fe : Bool) (b : BitVec 16) :
    fieldFe (headWord o (errBits ovr fe) b) = fe := by
  unfold fieldFe
  rw [headWord_bitA o _ b 1 (by omega)]
  revert ovr fe; decide

/-! ### Bytes of words (20_memory R84) -/

theorem wordOfBytes_bytes (w : Word) :
    wordOfBytes (w.extractLsb' 0 8) (w.extractLsb' 8 8) (w.extractLsb' 16 8) (w.extractLsb' 24 8) = w := by
  unfold wordOfBytes
  rw [BitVec.extractLsb'_append_extractLsb'_eq_extractLsb' (by rfl),
    BitVec.extractLsb'_append_extractLsb'_eq_extractLsb' (by rfl),
    BitVec.extractLsb'_append_extractLsb'_eq_extractLsb' (by rfl)]
  exact BitVec.extractLsb'_eq_self

theorem wordsOfBytes_bytesOfWords (ws : List Word) : wordsOfBytes (bytesOfWords ws) = ws := by
  induction ws with
  | nil => rfl
  | cons w rest ih => simp [bytesOfWords, bytesOfWord, wordsOfBytes, wordOfBytes_bytes, ih]

end Sys2Proof
end

