-- ==== Sys2Proof/Laws/Frames.lean ====
section
/-! SUPPORT. What each shared operation can change: one equation an operation, which names the fields that may differ
and says that all others are kept. -/

namespace Sys2Proof.Machine

/-! ### Draws and sinks -/

theorem State.drawWait_frame (s : State) : s.drawWait.2 = { s with env := s.drawWait.2.env } := by
  unfold State.drawWait; split <;> rfl

theorem State.drawMachineState_frame (s : State) :
    s.drawMachineState.2 = { s with env := s.drawMachineState.2.env } := by
  unfold State.drawMachineState; split <;> rfl

theorem State.drawRelative_frame (s : State) : s.drawRelative.2 = { s with env := s.drawRelative.2.env } := by
  unfold State.drawRelative; split <;> rfl

theorem State.drawMachinePos_frame (s : State) (k : Nat) :
    (s.drawMachinePos k).2 = { s with env := (s.drawMachinePos k).2.env } := by
  unfold State.drawMachinePos; split <;> rfl

theorem State.drawNowMs_frame (s : State) : s.drawNowMs.2 = { s with env := s.drawNowMs.2.env } := by
  unfold State.drawNowMs; split <;> rfl

theorem State.drawAccept_frame (s : State) (cmd : MotionCmd) :
    (s.drawAccept cmd).2 = { s with env := (s.drawAccept cmd).2.env } := by
  unfold State.drawAccept; split <;> rfl

/-- A command passed to the sink draws one answer and is recorded with it. -/
theorem State.sendMotion_frame (s : State) (cmd : MotionCmd) :
    (s.sendMotion cmd).2 =
      { s with env := (s.drawAccept cmd).2.env, out := s.out ++ [.motion cmd (s.drawAccept cmd).1] } := by
  unfold State.sendMotion
  have h := State.drawAccept_frame s cmd
  generalize s.drawAccept cmd = x at h ⊢
  obtain ⟨ok, u⟩ := x
  dsimp only at h ⊢
  rw [h]
  rfl

theorem State.sendMotion_fst (s : State) (cmd : MotionCmd) : (s.sendMotion cmd).1 = (s.drawAccept cmd).1 := rfl

/-- A guarded section leaves the flag false, and the rest as its body does. -/
theorem State.guarded_eq (f : State → State) (s : State) :
    State.guarded f s = { f { s with guard := true } with guard := false } := rfl

theorem State.markAxis_eq (s : State) (k : Nat) (f : AxisEvents → AxisEvents) :
    s.markAxis k f =
      { s with axes := s.axes.modify k (fun x => { x with event := f x.event }),
               pendingAxes := s.pendingAxes ||| (1#16 <<< k), guard := false } := rfl

/-! ### Transport -/

theorem State.waitForSpace_eq (s : State) (d : Byte) :
    s.waitForSpace d =
      if s.drawWait.1 = true then { s with env := s.drawWait.2.env, putBlocked := true, heldByte := d }
      else { s with env := s.drawWait.2.env, putBlocked := false, res0 := 0, res1 := 0 } := by
  unfold State.waitForSpace State.drawWait State.result State.result2 State.countDraw
  cases s.env.waits with
  | nil => cases h : Config.freeWait s.env.draws <;> simp
  | cons b bs => cases b <;> simp

theorem State.quietIfEmpty_frame (s : State) : s.quietIfEmpty = { s with txie := s.quietIfEmpty.txie } := by
  unfold State.quietIfEmpty; split <;> rfl

theorem State.enqueueRx_frame (s : State) (d : Byte) : s.enqueueRx d = { s with rx := (s.enqueueRx d).rx } := by
  unfold State.enqueueRx; split <;> rfl

/-! ### Encoder intake -/

/-- The cursor moves to the next axis. -/
theorem State.mpgCursor_eq (s : State) (e c : Nat) (h : (s.enc e).axis = some c) :
    s.mpgCursor e =
      { s with
        encs := ((s.encs.modify e (fun x => { x with axis := some ((c + 1) % s.cfg.nAxis) })).modify e
          (fun x => { x with position := 0 })),
        axes := (((s.axes.modify c (fun x => { x with enc := none })).modify ((c + 1) % s.cfg.nAxis)
          (fun x => { x with enc := some e })).modify ((c + 1) % s.cfg.nAxis) (fun x => { x with position := 0 })),
        out := s.out ++ [.counterReset e] } := by
  simp only [State.mpgCursor, h, State.resetEncoder, State.setEncPosition, State.setAxisPosition, State.modEnc,
    State.modAxis, State.emit]

theorem State.mpgCursor_frame (s : State) (e : Nat) :
    s.mpgCursor e = { s with encs := (s.mpgCursor e).encs, axes := (s.mpgCursor e).axes,
                             out := (s.mpgCursor e).out } := by
  cases h : (s.enc e).axis with
  | none => unfold State.mpgCursor; rw [h]
  | some c => rw [State.mpgCursor_eq s e c h]

theorem State.handleClick_frame (s : State) (e : Nat) (ev : EncEvents) :
    (s.handleClick e ev).2 =
      { s with encs := (s.handleClick e ev).2.encs, axes := (s.handleClick e ev).2.axes,
               modeMsgPending := (s.handleClick e ev).2.modeMsgPending, out := (s.handleClick e ev).2.out } := by
  unfold State.handleClick
  split
  · rfl
  · split
    · dsimp only; rw [State.mpgCursor_frame]
    · rfl

theorem State.turnRatchet_frame (s : State) (d : Int) :
    s.turnRatchet d = { s with rapidLevel := (s.turnRatchet d).rapidLevel, out := (s.turnRatchet d).out } := by
  unfold State.turnRatchet
  split
  · rfl
  · split <;> rfl

theorem State.rapidRatchet_frame (s : State) (e : Nat) (p : I32) :
    s.rapidRatchet e p =
      { s with encs := (s.rapidRatchet e p).encs, rapidLevel := (s.rapidRatchet e p).rapidLevel,
               out := (s.rapidRatchet e p).out } := by
  unfold State.rapidRatchet
  dsimp only
  split
  · rw [State.turnRatchet_frame]; rfl
  · rfl

/-- What fine steps do where they do not fault. -/
theorem State.fineSteps_ok {s t : State} {e : Nat} {plus minus : Byte} {p : I32}
    (h : s.fineSteps e plus minus p = .ok t) :
    ∃ nOld nNew, ncount e (s.enc e).position (s.setting e).cpr = .ok nOld ∧ ncount e p (s.setting e).cpr = .ok nNew ∧
      t = ((s.emitMany (nNew - nOld).toNat (.rtCmd plus)).emitMany (nOld - nNew).toNat (.rtCmd minus)).setEncPosition
        e p := by
  unfold State.fineSteps at h
  split at h
  · cases h
  · split at h
    · cases h
    · next nOld hOld _ nNew hNew => exact ⟨nOld, nNew, hOld, hNew, (Except.ok.inj h).symm⟩

theorem State.fineSteps_frame {s t : State} {e : Nat} {plus minus : Byte} {p : I32}
    (h : s.fineSteps e plus minus p = .ok t) : t = { s with encs := t.encs, out := t.out } := by
  obtain ⟨nOld, nNew, -, -, rfl⟩ := State.fineSteps_ok h
  rfl

theorem State.mpgMark_frame (s : State) (e : Nat) (p : I32) (v : U32) :
    s.mpgMark e p v =
      { s with encs := (s.mpgMark e p v).encs, axes := (s.mpgMark e p v).axes,
               pendingAxes := (s.mpgMark e p v).pendingAxes, guard := (s.mpgMark e p v).guard } := by
  unfold State.mpgMark
  dsimp only
  split <;> rfl

theorem State.handlePosition_frame {s t : State} {e : Nat} {p : I32} {v : U32} (h : s.handlePosition e p v = .ok t) :
    t = { s with encs := t.encs, axes := t.axes, pendingAxes := t.pendingAxes, guard := t.guard,
                 rapidLevel := t.rapidLevel, out := t.out } := by
  unfold State.handlePosition at h
  dsimp only at h
  split at h
  · rw [State.fineSteps_frame h]; rfl
  · rw [State.fineSteps_frame h]; rfl
  · rw [← Except.ok.inj h, State.rapidRatchet_frame]; rfl
  · rw [← Except.ok.inj h, State.mpgMark_frame]; rfl
  · rw [← Except.ok.inj h, State.mpgMark_frame]; rfl
  · rw [← Except.ok.inj h]; rfl

theorem State.overrideReset_frame (s : State) (e : Nat) :
    s.overrideReset e =
      { s with encs := (s.overrideReset e).encs, rapidLevel := (s.overrideReset e).rapidLevel,
               out := (s.overrideReset e).out } := by
  unfold State.overrideReset
  dsimp only
  split <;> rfl

theorem State.mpgEvents_frame (s : State) (e : Nat) (ev : EncEvents) :
    s.mpgEvents e ev =
      { s with axes := (s.mpgEvents e ev).axes, pendingAxes := (s.mpgEvents e ev).pendingAxes,
               guard := (s.mpgEvents e ev).guard } := by
  unfold State.mpgEvents
  split
  · rfl
  · cases ev.click <;> cases ev.doubleClick <;> rfl

theorem State.handleNonMovement_frame (s : State) (e : Nat) (ev : EncEvents) :
    s.handleNonMovement e ev =
      { s with encs := (s.handleNonMovement e ev).encs, axes := (s.handleNonMovement e ev).axes,
               pendingAxes := (s.handleNonMovement e ev).pendingAxes, guard := (s.handleNonMovement e ev).guard,
               rapidLevel := (s.handleNonMovement e ev).rapidLevel, out := (s.handleNonMovement e ev).out } := by
  unfold State.handleNonMovement
  split
  · split
    · rw [State.overrideReset_frame]
    · split
      · rw [State.mpgEvents_frame]
      · rfl
  · rfl

/-- The fields an encoder event may change. -/
theorem State.takeEncEvent_frame {s t : State} {e : Nat} {ev : EncEvents} {p : I32} {v : U32}
    (h : s.takeEncEvent e ev p v = .ok t) :
    t = { s with encs := t.encs, axes := t.axes, pendingAxes := t.pendingAxes, guard := t.guard,
                 modeMsgPending := t.modeMsgPending, rapidLevel := t.rapidLevel, out := t.out } := by
  unfold State.takeEncEvent at h
  have hc := State.handleClick_frame s e ev
  generalize s.handleClick e ev = x at h hc
  obtain ⟨left, u⟩ := x
  dsimp only at h hc
  rw [hc] at h
  split at h
  · rw [State.handlePosition_frame h]
  · rw [← Except.ok.inj h, State.handleNonMovement_frame]

/-- The fields ENC_EVENT may change. -/
theorem execEncEvent_frame {e : Nat} {ev : BitVec 3} {p : I32} {v : U32} {s t : State}
    (h : execEncEvent e ev p v s = .next t) :
    t = { s with encs := t.encs, axes := t.axes, pendingAxes := t.pendingAxes, guard := t.guard,
                 modeMsgPending := t.modeMsgPending, rapidLevel := t.rapidLevel, out := t.out } := by
  unfold execEncEvent raiseFault outcomeOf at h
  split at h
  · cases h
  · split at h
    · cases h; rfl
    · cases hx : s.takeEncEvent e (eventsOfBits ev) p v with
      | error f => rw [hx] at h; cases h
      | ok u =>
        rw [hx] at h
        cases h
        rw [State.takeEncEvent_frame hx]
        rfl

/-! ### Real-time dispatch -/

theorem State.announceMode_frame (s : State) :
    s.announceMode = { s with out := s.announceMode.out, modeMsgPending := false } := by
  unfold State.announceMode
  split
  · rfl
  · next h => rw [Bool.not_eq_true] at h; cases s; simp_all

theorem State.clearEvents_frame (s : State) (ks : List Nat) :
    s.clearEvents ks = { s with axes := (s.clearEvents ks).axes } := by
  induction ks generalizing s with
  | nil => rfl
  | cons k ks ih => rw [State.clearEvents, ih]; rfl

theorem State.clearPending_frame (s : State) :
    s.clearPending = { s with axes := s.clearPending.axes, pendingAxes := 0, guard := false } := by
  unfold State.clearPending State.guarded
  dsimp only
  rw [State.clearEvents_frame]

theorem State.axisZero_frame (s : State) (k : Nat) :
    s.axisZero k = { s with encs := (s.axisZero k).encs, axes := (s.axisZero k).axes,
                            env := (s.axisZero k).env, out := (s.axisZero k).out } := by
  unfold State.axisZero
  have hm := State.sendMotion_frame s (.zeroAxis k)
  generalize s.sendMotion (.zeroAxis k) = x at hm ⊢
  obtain ⟨ok, u⟩ := x
  dsimp only at hm
  subst hm
  cases ok
  · rfl
  · dsimp only
    split <;> rfl

theorem State.axisScale_frame (s : State) (k : Nat) : s.axisScale k = { s with axes := (s.axisScale k).axes } := rfl

theorem State.axisStop_frame (s : State) (k : Nat) :
    s.axisStop k = { s with axes := (s.axisStop k).axes, out := (s.axisStop k).out } := by
  unfold State.axisStop; split <;> rfl

/-- AXIS_START of an axis that is not moving: two draws, then one update. -/
theorem State.axisStart_eq (s : State) (k : Nat) (h : (s.axis k).flags.moving = false) :
    s.axisStart k =
      ({ s with env := (s.drawMachinePos k).2.drawNowMs.2.env }).modAxis k (fun x =>
        { x with pos := (s.drawMachinePos k).1, flags := { x.flags with moving := true },
                 nextEvent := (s.drawMachinePos k).2.drawNowMs.1 + BitVec.ofNat 32 s.cfg.mpgIntervalMs }) := by
  unfold State.axisStart
  rw [if_neg (by rw [h]; decide)]
  have h1 := State.drawMachinePos_frame s k
  generalize s.drawMachinePos k = x at h1 ⊢
  obtain ⟨o, t⟩ := x
  have h2 := State.drawNowMs_frame t
  dsimp only at h1 h2 ⊢
  generalize t.drawNowMs = y at h2 ⊢
  obtain ⟨now, u⟩ := y
  dsimp only at h2 ⊢
  rw [h2, h1]

theorem State.axisStart_frame (s : State) (k : Nat) :
    s.axisStart k = { s with axes := (s.axisStart k).axes, env := (s.axisStart k).env } := by
  by_cases h : (s.axis k).flags.moving = true
  · unfold State.axisStart; rw [if_pos h]
  · rw [State.axisStart_eq s k (by simpa using h)]; rfl

theorem State.axisActions_frame (s : State) (k : Nat) (ev : AxisEvents) :
    s.axisActions k ev =
      { s with encs := (s.axisActions k ev).encs, axes := (s.axisActions k ev).axes,
               env := (s.axisActions k ev).env, out := (s.axisActions k ev).out } := by
  unfold State.axisActions
  dsimp only
  generalize ha : (if ev.zero = true then s.axisZero k else s) = a
  have h1 : a = { s with encs := a.encs, axes := a.axes, env := a.env, out := a.out } := by
    subst ha; split
    · exact State.axisZero_frame s k
    · rfl
  generalize hb : (if ev.scale = true then a.axisScale k else a) = b
  have h2 : b = { a with axes := b.axes } := by
    subst hb; split
    · exact State.axisScale_frame a k
    · rfl
  generalize hc : (if ev.stop = true then b.axisStop k else b) = c
  have h3 : c = { b with axes := c.axes, out := c.out } := by
    subst hc; split
    · exact State.axisStop_frame b k
    · rfl
  rw [h1] at h2
  rw [h2] at h3
  split
  · rw [State.axisStart_frame, h3]
  · rw [h3]

theorem State.allActions_frame (s : State) (snap : List (Nat × AxisEvents)) :
    s.allActions snap =
      { s with encs := (s.allActions snap).encs, axes := (s.allActions snap).axes,
               env := (s.allActions snap).env, out := (s.allActions snap).out } := by
  induction snap generalizing s with
  | nil => rfl
  | cons x rest ih =>
    obtain ⟨k, ev⟩ := x
    rw [State.allActions, ih, State.axisActions_frame]

theorem State.accumulate_frame {s u : State} {ds : List (Nat × I32)} {ts : List (Nat × I32)}
    (h : s.accumulate ds = .ok (ts, u)) : u = { s with axes := u.axes } := by
  induction ds generalizing s ts with
  | nil => rw [State.accumulate] at h; cases h; rfl
  | cons x rest ih =>
    obtain ⟨k, d⟩ := x
    rw [State.accumulate] at h
    split at h
    · cases h
    · split at h
      · cases h
      · next hx => cases h; rw [ih hx]; rfl

theorem State.buildCommand_frame {s t : State} {ds : List (Nat × I32)} {f : U32} {cmd : MotionCmd}
    (h : s.buildCommand ds f = .ok (cmd, t)) : t = { s with axes := t.axes, env := t.env } := by
  unfold State.buildCommand at h
  split at h
  · unfold State.absMove at h
    have hd := State.drawRelative_frame s
    generalize s.drawRelative = x at h hd
    obtain ⟨rel, u⟩ := x
    dsimp only at hd
    cases rel
    · dsimp only at h
      split at h
      · cases h
      · next hx => cases h; rw [State.accumulate_frame hx, hd]
    · dsimp only at h; cases h; rw [hd]
  · unfold State.relJog at h; cases h; rfl

theorem State.consume_frame (s : State) (c : List (Nat × Nat)) : s.consume c = { s with axes := (s.consume c).axes } := by
  induction c generalizing s with
  | nil => rfl
  | cons x rest ih => obtain ⟨k, e⟩ := x; rw [State.consume, ih]; rfl

theorem State.move_frame {s t : State} {m : List Nat} (h : s.move m = .ok t) :
    t = { s with axes := t.axes, env := t.env, out := t.out } := by
  unfold State.move at h
  dsimp only at h
  split at h
  · cases h; rfl
  · split at h
    · cases h
    · split at h
      · cases h; rfl
      · split at h
        · cases h
        · next hb =>
          cases h
          rw [State.sendMotion_frame, State.consume_frame, State.buildCommand_frame hb]

theorem State.drain_frame {s t : State} (h : s.drain = .ok t) :
    t = { s with encs := t.encs, axes := t.axes, pendingAxes := t.pendingAxes, guard := t.guard,
                 env := t.env, out := t.out } := by
  unfold State.drain at h
  split at h
  · cases h; rfl
  · have hd := State.drawMachineState_frame s
    generalize s.drawMachineState = x at h hd
    obtain ⟨st, u⟩ := x
    dsimp only at h hd
    split at h
    · split at h
      · cases h; rw [State.allActions_frame, State.clearPending_frame, hd]
      · rw [State.move_frame h, State.allActions_frame, State.clearPending_frame, hd]
    · cases h; rw [hd]

/-- The fields EXECUTE_REALTIME may change. -/
theorem execExecuteRealtime_frame {s t : State} (h : execExecuteRealtime s = .next t) :
    t = { s with encs := t.encs, axes := t.axes, pendingAxes := t.pendingAxes, guard := t.guard,
                 modeMsgPending := false, env := t.env, out := t.out, res0 := 0, res1 := 0 } := by
  unfold execExecuteRealtime outcomeOf at h
  cases hx : s.announceMode.drain with
  | error f => rw [hx] at h; cases h
  | ok u =>
    rw [hx] at h
    cases h
    rw [State.drain_frame hx, State.announceMode_frame]
    rfl

end Sys2Proof.Machine
end

