-- ==== Sys2Proof/Laws/Memory.lean ====
section
/-! SUPPORT. Storage and rings: a read after a write, the canonical form every operation keeps, and the index
arithmetic of 10_state R35 for a power-of-two capacity. -/

namespace Sys2Proof.Machine

theorem Memory.read_write_same (m : Memory) (a : Nat) (v : Byte) : Memory.read (Memory.write m a v) a = some v := by
  induction m with
  | nil => simp [Memory.write, Memory.read]
  | cons c rest ih =>
    obtain ⟨b, x⟩ := c
    simp only [Memory.write]
    split
    · simp [Memory.read]
    · split
      · simp [Memory.read]
      · rename_i h; simp [Memory.read, h, ih]

theorem Memory.read_write_ne (m : Memory) {a a' : Nat} (v : Byte) (h : a' ≠ a) :
    Memory.read (Memory.write m a v) a' = Memory.read m a' := by
  induction m with
  | nil => simp [Memory.write, Memory.read, h]
  | cons c rest ih =>
    obtain ⟨b, x⟩ := c
    simp only [Memory.write]
    split
    · simp [Memory.read, h]
    · split
      · next hab => subst hab; simp [Memory.read, h]
      · simp [Memory.read, ih]

theorem Memory.risesFrom_write (m : Memory) (lo a : Nat) (v : Byte) (hm : Memory.risesFrom lo m = true) (ha : lo ≤ a) :
    Memory.risesFrom lo (Memory.write m a v) = true := by
  induction m generalizing lo with
  | nil => simp [Memory.write, Memory.risesFrom, ha]
  | cons c rest ih =>
    obtain ⟨b, x⟩ := c
    simp only [Memory.risesFrom, Bool.and_eq_true, decide_eq_true_eq] at hm
    simp only [Memory.write]
    split
    · next h => simp [Memory.risesFrom, ha, hm.2]; omega
    · split
      · next h => subst h; simp [Memory.risesFrom, hm.1, hm.2]
      · simp only [Memory.risesFrom, Bool.and_eq_true, decide_eq_true_eq]
        exact ⟨hm.1, ih _ hm.2 (by omega)⟩

/-- A write keeps the canonical form. -/
theorem Memory.wf_write (m : Memory) (a : Nat) (v : Byte) (h : Memory.wf m = true) :
    Memory.wf (Memory.write m a v) = true :=
  Memory.risesFrom_write m 0 a v h (Nat.zero_le a)

/-- A write to a slot of a space lists no index outside it. -/
theorem Memory.within_write (m : Memory) (c a : Nat) (v : Byte) (h : Memory.within c m = true) (ha : a < c) :
    Memory.within c (Memory.write m a v) = true := by
  induction m with
  | nil => simp [Memory.write, Memory.within, ha]
  | cons x rest ih =>
    obtain ⟨b, y⟩ := x
    unfold Memory.within at h ih ⊢
    rw [List.all_cons, Bool.and_eq_true] at h
    simp only [Memory.write]
    split
    · rw [List.all_cons, List.all_cons, Bool.and_eq_true, Bool.and_eq_true]; exact ⟨by simpa using ha, h⟩
    · split
      · rw [List.all_cons, Bool.and_eq_true]; exact ⟨by simpa using ha, h.2⟩
      · rw [List.all_cons, Bool.and_eq_true]; exact ⟨h.1, ih h.2⟩

theorem capOk_pow {c : Nat} (h : capOk c = true) : ∃ k, c = 2 ^ k ∧ 1 ≤ k := by
  simp only [capOk, Bool.and_eq_true, decide_eq_true_eq, beq_iff_eq] at h
  refine ⟨c.log2, h.2, ?_⟩
  by_contra hk
  have : c.log2 = 0 := by omega
  rw [this] at h
  omega

theorem capOk_two_le {c : Nat} (h : capOk c = true) : 2 ≤ c := by
  simp only [capOk, Bool.and_eq_true, decide_eq_true_eq] at h
  exact h.1.1

/-- The mask of R35 is the remainder by the capacity. -/
theorem ringNext_eq_mod {c : Nat} (h : capOk c = true) (i : Nat) : ringNext i c = (i + 1) % c := by
  obtain ⟨k, rfl, -⟩ := capOk_pow h
  exact Nat.and_two_pow_sub_one_eq_mod (i + 1) k

theorem ringNext_lt {c : Nat} (h : capOk c = true) (i : Nat) : ringNext i c < c := by
  rw [ringNext_eq_mod h]
  exact Nat.mod_lt _ (by have := capOk_two_le h; omega)

/-- The count as a natural number: no wrap, or one. -/
theorem ringCount_eq {h t c : Nat} (hh : h < c) (ht : t < c) :
    ringCount h t c = if t ≤ h then h - t else h + c - t := by
  unfold ringCount
  split
  · rename_i hle
    have : ((h : Int) - t) % c = (h : Int) - t := Int.emod_eq_of_lt (by omega) (by omega)
    rw [this]; omega
  · rename_i hle
    have : ((h : Int) - t) % c = (h : Int) - t + c := by
      rw [← Int.add_emod_right]; exact Int.emod_eq_of_lt (by omega) (by omega)
    rw [this]; omega

theorem ringNext_cases {c i : Nat} (h : capOk c = true) (hi : i < c) :
    (i + 1 < c ∧ ringNext i c = i + 1) ∨ (i + 1 = c ∧ ringNext i c = 0) := by
  rw [ringNext_eq_mod h]
  rcases Nat.lt_or_ge (i + 1) c with hlt | hge
  · exact .inl ⟨hlt, Nat.mod_eq_of_lt hlt⟩
  · have : i + 1 = c := by omega
    exact .inr ⟨this, by rw [this]; exact Nat.mod_self c⟩

/-- A ring holds at most `c - 1` bytes. -/
theorem ringCount_lt {h t c : Nat} (hh : h < c) (ht : t < c) : ringCount h t c < c := by
  rw [ringCount_eq hh ht]; split <;> omega

theorem ringCount_zero_iff {h t c : Nat} (hh : h < c) (ht : t < c) : ringCount h t c = 0 ↔ h = t := by
  rw [ringCount_eq hh ht]; split <;> omega

/-- Full is `c - 1` bytes. -/
theorem ringFull_iff {h t c : Nat} (hc : capOk c = true) (hh : h < c) (ht : t < c) :
    ringFull h t c = true ↔ ringCount h t c = c - 1 := by
  unfold ringFull
  rw [ringCount_eq hh ht, beq_iff_eq]
  rcases ringNext_cases hc hh with ⟨h1, h2⟩ | ⟨h1, h2⟩ <;> rw [h2] <;> split <;> omega

/-- Advancing the head of a ring that is not full adds one to the count. -/
theorem ringCount_push {h t c : Nat} (hc : capOk c = true) (hh : h < c) (ht : t < c) (hf : ringFull h t c = false) :
    ringCount (ringNext h c) t c = ringCount h t c + 1 := by
  rw [ringCount_eq (ringNext_lt hc h) ht, ringCount_eq hh ht]
  unfold ringFull at hf
  rw [beq_eq_false_iff_ne] at hf
  rcases ringNext_cases hc hh with ⟨h1, h2⟩ | ⟨h1, h2⟩ <;> rw [h2] at hf ⊢ <;> split <;> split <;> omega

/-- Advancing the tail of a ring that is not empty takes one from the count. -/
theorem ringCount_drop {h t c : Nat} (hc : capOk c = true) (hh : h < c) (ht : t < c) (he : h ≠ t) :
    ringCount h t c = ringCount h (ringNext t c) c + 1 := by
  rw [ringCount_eq hh (ringNext_lt hc t), ringCount_eq hh ht]
  rcases ringNext_cases hc ht with ⟨h1, h2⟩ | ⟨h1, h2⟩ <;> rw [h2] <;> split <;> split <;> omega

/-- A push keeps a ring a ring of its capacity. -/
theorem Ring.ok_push {c : Nat} {r : Ring} (hc : capOk c = true) (h : Ring.Ok c r) (b : Byte) : Ring.Ok c (r.push c b) :=
  ⟨Memory.wf_write _ _ _ h.1, Memory.within_write _ _ _ _ h.2.1 h.2.2.1, ringNext_lt hc _, h.2.2.2⟩

/-- Advancing the tail keeps a ring a ring of its capacity. -/
theorem Ring.ok_drop {c : Nat} {r : Ring} (hc : capOk c = true) (h : Ring.Ok c r) : Ring.Ok c (r.drop c) :=
  ⟨h.1, h.2.1, h.2.2.1, ringNext_lt hc _⟩

theorem Params.txCap_ok {p : Params} (h : p.WellFormed = true) : capOk p.txCap = true := by
  simp only [Params.WellFormed, Bool.and_eq_true] at h; exact h.1.1.1.1.1.1.1.1

theorem Params.rxCap_ok {p : Params} (h : p.WellFormed = true) : capOk p.rxCap = true := by
  simp only [Params.WellFormed, Bool.and_eq_true] at h; exact h.1.1.1.1.1.1.1.2

theorem Params.nAxis_pos {p : Params} (h : p.WellFormed = true) : 1 ≤ p.nAxis ∧ p.nAxis ≤ 16 := by
  simp only [Params.WellFormed, Bool.and_eq_true, decide_eq_true_eq] at h; exact ⟨h.1.1.1.1.1.1.2, h.1.1.1.1.1.2⟩

theorem Params.nEnc_pos {p : Params} (h : p.WellFormed = true) : 1 ≤ p.nEnc ∧ p.nEnc ≤ 256 := by
  simp only [Params.WellFormed, Bool.and_eq_true, decide_eq_true_eq] at h; exact ⟨h.1.1.1.1.2, h.1.1.1.2⟩

theorem Params.stride_ok {p : Params} (h : p.WellFormed = true) : 4 ≤ p.setStride ∧ p.setMax ≤ 65535 := by
  simp only [Params.WellFormed, Bool.and_eq_true, decide_eq_true_eq] at h; exact ⟨h.1.1.2, h.1.2⟩

end Sys2Proof.Machine
end

