-- ==== Sys2Proof/Laws/Steps.lean ====
section
/-! SUPPORT. What a step with a next state was, and what the transport and settings operations can change. -/

namespace Sys2Proof.Machine

/-- A step with a next state ran an enabled operation of its own agent, in the state whose schedule and streams have
moved on. -/
theorem step_next {s t : State} (h : step s = .next t) :
    ∃ i later rest, s.fault = none ∧ s.refused = false ∧ s.enabled i = true ∧
      exec i { s with sched := later, streams := rest } = .next t := by
  unfold step at h
  split at h
  · next i u hn =>
    unfold State.nextOffer at hn
    split at hn
    · cases hn
    · next hf =>
      split at hn
      · cases hn
      · next hr =>
        split at hn
        · cases hn
        · unfold State.offerOf at hn
          split at hn
          · cases hn
          · cases hn
          · cases hn
          · split at hn
            · cases hn
            · next hadm =>
              cases hn
              unfold State.admission at hadm
              split at hadm
              · cases hadm
              · split at hadm
                · cases hadm
                · split at hadm
                  · cases hadm
                  · next he => exact ⟨_, _, _, hf, by simpa using hr, by simpa using he, h⟩
  · cases h
  · cases h

theorem execGetByte_frame {s t : State} (h : execGetByte s = .next t) :
    t = { s with rx := { s.rx with tail := t.rx.tail }, res0 := t.res0, res1 := 0 } := by
  unfold execGetByte at h
  split at h
  · cases h; rfl
  · split at h <;> cases h <;> rfl

theorem execPutByte_frame {s t : State} {d : Byte} (h : execPutByte d s = .next t) :
    t = { s with tx := t.tx, env := t.env, out := t.out, txie := t.txie, hwTxEmpty := t.hwTxEmpty,
                 putBlocked := t.putBlocked, heldByte := t.heldByte, res0 := t.res0, res1 := t.res1 } ∧
    t.tx.tail = s.tx.tail := by
  unfold execPutByte at h
  split at h
  · cases h; exact ⟨rfl, rfl⟩
  · split at h
    · cases h; rw [State.waitForSpace_eq]; split <;> exact ⟨rfl, rfl⟩
    · cases h; exact ⟨rfl, rfl⟩

theorem execIsrTx_frame {s t : State} (h : execIsrTx s = .next t) :
    t = { s with tx := { s.tx with tail := t.tx.tail }, out := t.out, txie := t.txie, hwTxEmpty := t.hwTxEmpty } := by
  unfold execIsrTx at h
  split at h
  · cases h; rfl
  · cases h; rw [State.quietIfEmpty_frame]; rfl

theorem execIsrRx_frame {s t : State} {d : Byte} {ovr fe : Bool} (h : execIsrRx d ovr fe s = .next t) :
    t = { s with rx := t.rx, bak := t.bak, reader := t.reader, out := t.out } := by
  unfold execIsrRx at h
  split at h
  · cases h; rfl
  · split at h
    · cases h; rfl
    · cases h; rw [State.enqueueRx_frame]

theorem execResumeInput_frame {s t : State} (h : execResumeInput s = .next t) :
    t = { s with rx := t.rx, reader := .normal, res0 := t.res0, res1 := 0 } := by
  unfold execResumeInput at h
  split at h <;> cases h <;> rfl

theorem execSettingRead_frame {s t : State} {id : Nat} (h : execSettingRead id s = .next t) :
    t = { s with res0 := t.res0, res1 := t.res1 } := by
  unfold execSettingRead at h
  split at h <;> cases h <;> rfl

theorem execSettingWrite_frame {s t : State} {id : Nat} {v : U32} (h : execSettingWrite id v s = .next t) :
    t = { s with settings := t.settings, res0 := t.res0, res1 := 0 } := by
  unfold execSettingWrite at h
  split at h
  · cases h; rfl
  · split at h <;> cases h <;> rfl

/-- Every operation keeps the three rings rings of their capacity, with canonical storage. -/
theorem exec_keeps_buffersOk {i : Instr} {s t : State} (hb : s.BuffersOk) (h : exec i s = .next t) : t.BuffersOk := by
  have htx := Params.txCap_ok hb.1
  have hrx := Params.rxCap_ok hb.1
  obtain ⟨h0, h1, h2, h3⟩ := hb
  cases i <;> simp only [exec] at h
  case putByte d =>
    unfold execPutByte at h
    split at h
    · cases h; exact ⟨h0, h1, h2, h3⟩
    · split at h
      · cases h; rw [State.waitForSpace_eq]; split <;> exact ⟨h0, h1, h2, h3⟩
      · cases h; exact ⟨h0, Ring.ok_push htx h1 d, h2, h3⟩
  case isrTx =>
    unfold execIsrTx at h
    split at h
    · cases h; exact ⟨h0, h1, h2, h3⟩
    · cases h; rw [State.quietIfEmpty_frame]; exact ⟨h0, Ring.ok_drop htx h1, h2, h3⟩
  case getByte =>
    unfold execGetByte at h
    split at h
    · cases h; exact ⟨h0, h1, h2, h3⟩
    · split at h <;> cases h
      · exact ⟨h0, h1, h2, h3⟩
      · exact ⟨h0, h1, Ring.ok_drop hrx h2, h3⟩
  case isrRx =>
    unfold execIsrRx at h
    split at h
    · cases h; exact ⟨h0, h1, ⟨h2.1, h2.2.1, h2.2.2.1, h2.2.2.1⟩, h2⟩
    · split at h
      · cases h;  exact ⟨h0, h1, h2, h3⟩
      · cases h; unfold State.enqueueRx; split
        · exact ⟨h0, h1, h2, h3⟩
        · exact ⟨h0, h1, Ring.ok_push hrx h2 _, h3⟩
  case resumeInput =>
    unfold execResumeInput at h
    split at h <;> cases h
    · exact ⟨h0, h1, h3, h3⟩
    · exact ⟨h0, h1, h2, h3⟩
  case settingRead => rw [execSettingRead_frame h]; exact ⟨h0, h1, h2, h3⟩
  case settingWrite => rw [execSettingWrite_frame h]; exact ⟨h0, h1, h2, h3⟩
  case encEvent => rw [execEncEvent_frame h]; exact ⟨h0, h1, h2, h3⟩
  case executeRealtime => rw [execExecuteRealtime_frame h]; exact ⟨h0, h1, h2, h3⟩
  all_goals cases h; exact ⟨h0, h1, h2, h3⟩

end Sys2Proof.Machine
end

