-- ==== Sys2Proof/Laws/Engine.lean ====
section
/-! SUPPORT. What the operations of the encoder engine keep, entry by entry: the encoder at work is the only one an
encoder event touches, an axis keeps all but its event set, and a tick zeroes positions at most. -/

namespace Sys2Proof.Machine

/-- Of an encoder: mode, axis and event set are kept. -/
def Encoder.Keeps (x y : Encoder) : Prop := y.mode = x.mode ∧ y.axis = x.axis ∧ y.event = x.event

/-- Of an axis: all but the event set is kept. -/
def Axis.KeepsAllButEvent (x y : Axis) : Prop := y = { x with event := y.event }

theorem Axis.KeepsAllButEvent.refl (x : Axis) : x.KeepsAllButEvent x := rfl

theorem Axis.KeepsAllButEvent.trans {x y z : Axis} (h : x.KeepsAllButEvent y) (k : y.KeepsAllButEvent z) :
    x.KeepsAllButEvent z := by
  unfold Axis.KeepsAllButEvent at h k ⊢
  rw [k, h]

theorem State.axis_markAxis (s : State) (k j : Nat) (f : AxisEvents → AxisEvents) :
    (s.markAxis k f).axis j =
      if k = j ∧ j < s.axes.length then { s.axis j with event := f (s.axis j).event } else s.axis j :=
  getD_modify s.axes k j (fun x => { x with event := f x.event }) default

theorem State.axis_markAxis_keeps (s : State) (k j : Nat) (f : AxisEvents → AxisEvents) :
    (s.axis j).KeepsAllButEvent ((s.markAxis k f).axis j) := by
  rw [State.axis_markAxis]
  split <;> rfl

/-! ### Encoder events -/

theorem State.enc_setEncPosition (s : State) (e e' : Nat) (p : I32) :
    (s.setEncPosition e p).enc e' =
      if e = e' ∧ e' < s.encs.length then { s.enc e' with position := p } else s.enc e' :=
  getD_modify _ _ _ _ _

theorem State.enc_setEncPosition_keeps (s : State) (e e' : Nat) (p : I32) :
    (s.enc e').Keeps ((s.setEncPosition e p).enc e') := by
  rw [State.enc_setEncPosition]
  split <;> exact ⟨rfl, rfl, rfl⟩

theorem State.enc_setEncPosition_ne (s : State) {e e' : Nat} (p : I32) (h : e' ≠ e) :
    (s.setEncPosition e p).enc e' = s.enc e' := by
  rw [State.enc_setEncPosition, if_neg (fun x => h x.1.symm)]

theorem State.turnRatchet_encs (s : State) (d : Int) : (s.turnRatchet d).encs = s.encs := by
  rw [State.turnRatchet_frame]

/-- A position-changed event: only the encoder at work changes, and only its position and velocity; axes keep all but
their event sets. -/
theorem State.handlePosition_entries {s t : State} {e : Nat} {p : I32} {v : U32} (h : s.handlePosition e p v = .ok t) :
    (∀ e', e' ≠ e → t.enc e' = s.enc e') ∧ (∀ e', (s.enc e').Keeps (t.enc e')) ∧
    (∀ k, (s.axis k).KeepsAllButEvent (t.axis k)) := by
  have hu : ∀ e', e' ≠ e → (s.modEnc e (fun x => { x with velocity := v })).enc e' = s.enc e' :=
    fun e' he => State.enc_modEnc_ne s _ (Ne.symm he)
  have hk : ∀ e', (s.enc e').Keeps ((s.modEnc e (fun x => { x with velocity := v })).enc e') := by
    intro e'
    rw [State.enc_modEnc]
    split <;> exact ⟨rfl, rfl, rfl⟩
  have ha : (s.modEnc e (fun x => { x with velocity := v })).axes = s.axes := rfl
  unfold State.handlePosition at h
  dsimp only at h
  generalize s.modEnc e (fun x => { x with velocity := v }) = u at h hu hk ha
  have fin : ∀ w : State, w.encs = u.encs → w.axes = u.axes →
      (∀ e', e' ≠ e → (w.setEncPosition e p).enc e' = s.enc e') ∧
      (∀ e', (s.enc e').Keeps ((w.setEncPosition e p).enc e')) ∧
      (∀ k, (s.axis k).KeepsAllButEvent ((w.setEncPosition e p).axis k)) := by
    intro w hw hx
    refine ⟨fun e' he => ?_, fun e' => ?_, fun k => ?_⟩
    · rw [State.enc_setEncPosition_ne w p he, State.enc_congr hw, hu e' he]
    · have h1 := State.enc_setEncPosition_keeps w e e' p
      rw [State.enc_congr hw e'] at h1
      have h2 := hk e'
      exact ⟨h1.1.trans h2.1, h1.2.1.trans h2.2.1, h1.2.2.trans h2.2.2⟩
    · rw [State.axis_congr (s := s) (t := w.setEncPosition e p) (hx.trans ha)]; rfl
  have mark : ∀ w : State, w.encs = u.encs → (∀ k, (u.axis k).KeepsAllButEvent (w.axis k)) →
      (∀ e', e' ≠ e → (w.setEncPosition e p).enc e' = s.enc e') ∧
      (∀ e', (s.enc e').Keeps ((w.setEncPosition e p).enc e')) ∧
      (∀ k, (s.axis k).KeepsAllButEvent ((w.setEncPosition e p).axis k)) := by
    intro w hw hx
    have h1 := fin { w with axes := u.axes } hw rfl
    exact ⟨h1.1, h1.2.1, fun k => by rw [← State.axis_congr ha k]; exact hx k⟩
  have mpg : (∀ e', e' ≠ e → (u.mpgMark e p v).enc e' = s.enc e') ∧
      (∀ e', (s.enc e').Keeps ((u.mpgMark e p v).enc e')) ∧
      (∀ k, (s.axis k).KeepsAllButEvent ((u.mpgMark e p v).axis k)) := by
    unfold State.mpgMark
    dsimp only
    apply mark
    · split <;> rfl
    · intro k
      split
      · rfl
      · exact State.axis_markAxis_keeps u _ k _
  split at h
  · obtain ⟨nOld, nNew, -, -, rfl⟩ := State.fineSteps_ok h; exact fin _ rfl rfl
  · obtain ⟨nOld, nNew, -, -, rfl⟩ := State.fineSteps_ok h; exact fin _ rfl rfl
  · cases h
    unfold State.rapidRatchet
    dsimp only
    split
    · exact fin _ (State.turnRatchet_encs u _) (by rw [State.turnRatchet_frame])
    · exact ⟨hu, hk, fun k => by rw [State.axis_congr ha]; rfl⟩
  · cases h; exact mpg
  · cases h; exact mpg
  · cases h; exact ⟨hu, hk, fun k => by rw [State.axis_congr ha]; rfl⟩

/-- A click or double-click left after the first part: only the position of the encoder at work changes. -/
theorem State.handleNonMovement_entries (s : State) (e : Nat) (ev : EncEvents) :
    (∀ e', e' ≠ e → (s.handleNonMovement e ev).enc e' = s.enc e') ∧
    (∀ e', (s.enc e').Keeps ((s.handleNonMovement e ev).enc e')) ∧
    (∀ k, (s.axis k).KeepsAllButEvent ((s.handleNonMovement e ev).axis k)) := by
  have same : (∀ e', e' ≠ e → s.enc e' = s.enc e') ∧ (∀ e', (s.enc e').Keeps (s.enc e')) ∧
      (∀ k, (s.axis k).KeepsAllButEvent (s.axis k)) := ⟨fun _ _ => rfl, fun _ => ⟨rfl, rfl, rfl⟩, fun _ => rfl⟩
  unfold State.handleNonMovement
  split
  · split
    · have h : (s.overrideReset e).encs = (s.setEncPosition e 0).encs := by
        unfold State.overrideReset; dsimp only; split <;> rfl
      refine ⟨fun e' he => ?_, fun e' => ?_, fun k => ?_⟩
      · rw [State.enc_congr h, State.enc_setEncPosition_ne s 0 he]
      · rw [State.enc_congr h]; exact State.enc_setEncPosition_keeps s e e' 0
      · rw [State.overrideReset_frame]; rfl
    · split
      · refine ⟨fun e' _ => ?_, fun e' => ?_, fun k => ?_⟩
        · rw [State.mpgEvents_frame]; rfl
        · rw [State.mpgEvents_frame]; exact ⟨rfl, rfl, rfl⟩
        · unfold State.mpgEvents
          split
          · rfl
          · dsimp only
            split
            · refine Axis.KeepsAllButEvent.trans ?_ (State.axis_markAxis_keeps _ _ k _)
              split
              · exact State.axis_markAxis_keeps s _ k _
              · rfl
            · split
              · exact State.axis_markAxis_keeps s _ k _
              · rfl
      · exact same
  · exact same

/-- Click handling touches no other encoder, no axis field but the back-reference and the last-consumed position; it
changes a mode only of the universal encoder and an axis only of an MPG (all axes) encoder. -/
theorem State.handleClick_entries (s : State) (e : Nat) (ev : EncEvents) :
    (∀ e', e' ≠ e → (s.handleClick e ev).2.enc e' = s.enc e') ∧
    (s.universal ≠ some e → ((s.handleClick e ev).2.enc e).mode = (s.enc e).mode) ∧
    ((s.enc e).mode ≠ .mpg → ((s.handleClick e ev).2.enc e).axis = (s.enc e).axis) ∧
    (∀ k, (s.handleClick e ev).2.axis k =
      { s.axis k with enc := ((s.handleClick e ev).2.axis k).enc,
                      position := ((s.handleClick e ev).2.axis k).position }) := by
  unfold State.handleClick
  split
  · next h =>
    have hu : s.universal = some e := by
      rw [Bool.and_eq_true, beq_iff_eq] at h; exact h.2
    refine ⟨fun e' he => ?_, fun h => absurd hu h, fun _ => ?_, fun k => rfl⟩
    · exact State.enc_modEnc_ne s _ (Ne.symm he)
    · exact State.enc_modEnc_keep s e e _ (fun x => x.axis) (fun _ => rfl)
  · split
    · next h =>
      have hm : (s.enc e).mode = .mpg := by
        rw [Bool.and_eq_true, beq_iff_eq] at h; exact h.2
      dsimp only
      cases hx : (s.enc e).axis with
      | none =>
        have : s.mpgCursor e = s := by unfold State.mpgCursor; rw [hx]
        rw [this]
        exact ⟨fun _ _ => rfl, fun _ => rfl, fun h => absurd hm h, fun _ => rfl⟩
      | some c =>
        rw [State.mpgCursor_eq s e c hx]
        refine ⟨fun e' he => ?_, fun _ => ?_, fun h => absurd hm h, fun k => ?_⟩
        · unfold State.enc
          rw [getD_modify, if_neg (fun x => he x.1.symm), getD_modify, if_neg (fun x => he x.1.symm)]
        · unfold State.enc
          rw [getD_modify, getD_modify]
          split <;> split <;> rfl
        · unfold State.axis
          dsimp only
          rw [getD_modify, getD_modify, getD_modify]
          split <;> split <;> split <;> rfl
    · exact ⟨fun _ _ => rfl, fun _ => rfl, fun _ => rfl, fun _ => rfl⟩

/-! ### Ticks -/

theorem State.axis_clearEvents (s : State) (ks : List Nat) (j : Nat) :
    (s.clearEvents ks).axis j =
      if j ∈ ks ∧ j < s.axes.length then { s.axis j with event := ⟨false, false, false, false, false, false⟩ }
      else s.axis j := by
  induction ks generalizing s with
  | nil => simp [State.clearEvents]
  | cons k ks ih =>
    rw [State.clearEvents, ih, State.axis_modAxis]
    have hl : (s.modAxis k fun x => { x with event := ⟨false, false, false, false, false, false⟩ }).axes.length =
        s.axes.length := List.length_modify ..
    rw [hl]
    by_cases hj : j < s.axes.length
    · by_cases hk : k = j
      · subst hk; simp [hj]
      · have : ¬ j = k := fun h => hk h.symm
        simp [hj, hk, this]
    · simp [hj]

theorem mem_maskAxes (n : Nat) (m : BitVec 16) (k : Nat) : k ∈ maskAxes n m ↔ k < n ∧ m.getLsbD k = true := by
  unfold maskAxes
  rw [List.mem_filter, List.mem_range]

/-- Clearing the pending axes: the flagged axes lose their event sets, and nothing else of any axis changes. -/
theorem State.axis_clearPending (s : State) (j : Nat) :
    s.clearPending.axis j =
      if (j < s.cfg.nAxis ∧ s.pendingAxes.getLsbD j = true) ∧ j < s.axes.length
      then { s.axis j with event := ⟨false, false, false, false, false, false⟩ } else s.axis j := by
  have h := State.axis_clearEvents { s with guard := true } (maskAxes s.cfg.nAxis s.pendingAxes) j
  refine Eq.trans h ?_
  simp only [mem_maskAxes]
  rfl

/-- The actions of one axis touch no other axis, keep its back-reference and event set, and change an encoder at most by
zeroing its position. -/
theorem State.axisActions_entries (s : State) (k : Nat) (ev : AxisEvents) :
    (∀ j, j ≠ k → (s.axisActions k ev).axis j = s.axis j) ∧
    ((s.axisActions k ev).axis k).enc = (s.axis k).enc ∧ ((s.axisActions k ev).axis k).event = (s.axis k).event ∧
    (∀ e, (s.axisActions k ev).enc e = s.enc e ∨ (s.axisActions k ev).enc e = { s.enc e with position := 0 }) := by
  unfold State.axisActions
  dsimp only
  generalize ha : (if ev.zero = true then s.axisZero k else s) = a
  have h1 : (∀ j, j ≠ k → a.axis j = s.axis j) ∧ (a.axis k).enc = (s.axis k).enc ∧
      (a.axis k).event = (s.axis k).event ∧ (∀ e, a.enc e = s.enc e ∨ a.enc e = { s.enc e with position := 0 }) := by
    subst ha
    split
    · unfold State.axisZero
      have hm := State.sendMotion_frame s (.zeroAxis k)
      generalize s.sendMotion (.zeroAxis k) = x at hm ⊢
      obtain ⟨ok, u⟩ := x
      dsimp only at hm
      subst hm
      cases ok
      · exact ⟨fun _ _ => rfl, rfl, rfl, fun _ => .inl rfl⟩
      · dsimp only
        have hx : ∀ j, j ≠ k → (s.axes.modify k (fun x => { x with position := 0 })).getD j default =
            s.axes.getD j default := fun j hj => by rw [getD_modify, if_neg (fun x => hj x.1.symm)]
        have hy := getD_modify s.axes k k (fun x => { x with position := 0 }) default
        have hy1 : ((s.axes.modify k (fun x => { x with position := 0 })).getD k default).enc =
            (s.axes.getD k default).enc := by rw [hy]; split <;> rfl
        have hy2 : ((s.axes.modify k (fun x => { x with position := 0 })).getD k default).event =
            (s.axes.getD k default).event := by rw [hy]; split <;> rfl
        split
        · exact ⟨hx, hy1, hy2, fun _ => .inl rfl⟩
        · next e0 _ =>
          refine ⟨hx, hy1, hy2, fun e => ?_⟩
          have := getD_modify s.encs e0 e (fun x => { x with position := 0 }) default
          unfold State.enc
          simp only [State.resetEncoder, State.setEncPosition, State.modEnc, State.emit, State.setAxisPosition,
            State.modAxis]
          rw [this]
          split
          · exact .inr rfl
          · exact .inl rfl
    · exact ⟨fun _ _ => rfl, rfl, rfl, fun _ => .inl rfl⟩
  generalize hb : (if ev.scale = true then a.axisScale k else a) = b
  have h2 : (∀ j, j ≠ k → b.axis j = a.axis j) ∧ (b.axis k).enc = (a.axis k).enc ∧
      (b.axis k).event = (a.axis k).event ∧ b.encs = a.encs := by
    subst hb
    split
    · exact ⟨fun j hj => State.axis_modAxis_ne a _ (Ne.symm hj),
        State.axis_modAxis_keep a k k _ (fun x => x.enc) (fun _ => rfl),
        State.axis_modAxis_keep a k k _ (fun x => x.event) (fun _ => rfl), rfl⟩
    · exact ⟨fun _ _ => rfl, rfl, rfl, rfl⟩
  generalize hc : (if ev.stop = true then b.axisStop k else b) = c
  have h3 : (∀ j, j ≠ k → c.axis j = b.axis j) ∧ (c.axis k).enc = (b.axis k).enc ∧
      (c.axis k).event = (b.axis k).event ∧ c.encs = b.encs := by
    subst hc
    split
    · unfold State.axisStop
      split
      · exact ⟨fun j hj => State.axis_modAxis_ne _ _ (Ne.symm hj),
          State.axis_modAxis_keep _ k k _ (fun x => x.enc) (fun _ => rfl),
          State.axis_modAxis_keep _ k k _ (fun x => x.event) (fun _ => rfl), rfl⟩
      · exact ⟨fun _ _ => rfl, rfl, rfl, rfl⟩
    · exact ⟨fun _ _ => rfl, rfl, rfl, rfl⟩
  have h4 : (∀ j, j ≠ k → c.axis j = s.axis j) ∧ (c.axis k).enc = (s.axis k).enc ∧
      (c.axis k).event = (s.axis k).event ∧ (∀ e, c.enc e = s.enc e ∨ c.enc e = { s.enc e with position := 0 }) := by
    refine ⟨fun j hj => ?_, ?_, ?_, fun e => ?_⟩
    · rw [h3.1 j hj, h2.1 j hj, h1.1 j hj]
    · rw [h3.2.1, h2.2.1, h1.2.1]
    · rw [h3.2.2.1, h2.2.2.1, h1.2.2.1]
    · rw [State.enc_congr (h3.2.2.2.trans h2.2.2.2)]; exact h1.2.2.2 e
  split
  · by_cases hm : (c.axis k).flags.moving = true
    · unfold State.axisStart; rw [if_pos hm]; exact h4
    · rw [State.axisStart_eq c k (by simpa using hm)]
      refine ⟨fun j hj => ?_, ?_, ?_, fun e => h4.2.2.2 e⟩
      · rw [State.axis_modAxis_ne _ _ (Ne.symm hj)]; exact h4.1 j hj
      · rw [State.axis_modAxis]
        split <;> exact h4.2.1
      · rw [State.axis_modAxis]
        split <;> exact h4.2.2.1
  · exact h4

theorem State.allActions_entries (s : State) (snap : List (Nat × AxisEvents)) :
    (∀ j, j ∉ snap.map (·.1) → (s.allActions snap).axis j = s.axis j) ∧
    (∀ j, ((s.allActions snap).axis j).enc = (s.axis j).enc ∧ ((s.allActions snap).axis j).event = (s.axis j).event) ∧
    (∀ e, (s.allActions snap).enc e = s.enc e ∨ (s.allActions snap).enc e = { s.enc e with position := 0 }) := by
  induction snap generalizing s with
  | nil => exact ⟨fun _ _ => rfl, fun _ => ⟨rfl, rfl⟩, fun _ => .inl rfl⟩
  | cons x rest ih =>
    obtain ⟨k, ev⟩ := x
    have h := ih (s.axisActions k ev)
    have hs := State.axisActions_entries s k ev
    rw [State.allActions]
    refine ⟨fun j hj => ?_, fun j => ?_, fun e => ?_⟩
    · rw [List.map_cons, List.mem_cons, not_or] at hj
      rw [h.1 j hj.2, hs.1 j hj.1]
    · have h1 := h.2.1 j
      by_cases hj : j = k
      · subst hj; exact ⟨h1.1.trans hs.2.1, h1.2.trans hs.2.2.1⟩
      · rw [hs.1 j hj] at h1; exact h1
    · rcases h.2.2 e with h1 | h1 <;> rcases hs.2.2.2 e with h2 | h2 <;> rw [h1, h2]
      · exact .inl rfl
      · exact .inr rfl
      · exact .inr rfl
      · exact .inr rfl

theorem State.accumulate_entries {s u : State} {ds ts : List (Nat × I32)} (h : s.accumulate ds = .ok (ts, u)) :
    (∀ j, j ∉ ds.map (·.1) → u.axis j = s.axis j) ∧ (∀ j, u.axis j = { s.axis j with pos := (u.axis j).pos }) := by
  induction ds generalizing s ts with
  | nil => rw [State.accumulate] at h; cases h; exact ⟨fun _ _ => rfl, fun _ => rfl⟩
  | cons x rest ih =>
    obtain ⟨k, d⟩ := x
    rw [State.accumulate] at h
    split at h
    · cases h
    · split at h
      · cases h
      · next t _ _ ts' u' hx =>
        cases h
        have hi := ih hx
        refine ⟨fun j hj => ?_, fun j => ?_⟩
        · rw [List.map_cons, List.mem_cons, not_or] at hj
          rw [hi.1 j hj.2, State.axis_modAxis_ne _ _ (Ne.symm hj.1)]
        · have h2 := hi.2 j
          rw [State.axis_modAxis] at h2
          split at h2
          · rw [h2]
          · exact h2

theorem State.deltas_keys {s : State} {c : List (Nat × Nat)} {ds : List (Nat × I32)} (h : s.deltas c = .ok ds) :
    ds.map (·.1) = c.map (·.1) := by
  induction c generalizing ds with
  | nil => rw [State.deltas] at h; cases h; rfl
  | cons x rest ih =>
    obtain ⟨k, e⟩ := x
    rw [State.deltas] at h
    split at h
    · cases h
    · split at h
      · cases h
      · next hx => cases h; rw [List.map_cons, List.map_cons, ih hx]

theorem State.buildCommand_entries {s t : State} {ds : List (Nat × I32)} {f : U32} {cmd : MotionCmd}
    (h : s.buildCommand ds f = .ok (cmd, t)) :
    (∀ j, j ∉ ds.map (·.1) → t.axis j = s.axis j) ∧ (∀ j, t.axis j = { s.axis j with pos := (t.axis j).pos }) := by
  unfold State.buildCommand at h
  split at h
  · unfold State.absMove at h
    have hd := State.drawRelative_frame s
    generalize s.drawRelative = x at h hd
    obtain ⟨rel, u⟩ := x
    dsimp only at hd
    have ha : u.axes = s.axes := by rw [hd]
    cases rel
    · dsimp only at h
      split at h
      · cases h
      · next hx =>
        cases h
        have hi := State.accumulate_entries hx
        refine ⟨fun j hj => ?_, fun j => ?_⟩
        · rw [hi.1 j hj, State.axis_congr ha]
        · rw [← State.axis_congr ha]; exact hi.2 j
    · dsimp only at h
      cases h
      exact ⟨fun j _ => State.axis_congr ha j, fun j => by rw [State.axis_congr ha]⟩
  · unfold State.relJog at h
    cases h
    exact ⟨fun _ _ => rfl, fun _ => rfl⟩

theorem State.consume_entries (s : State) (c : List (Nat × Nat)) :
    (∀ j, j ∉ c.map (·.1) → (s.consume c).axis j = s.axis j) ∧
    (∀ j, (s.consume c).axis j = { s.axis j with position := ((s.consume c).axis j).position }) := by
  induction c generalizing s with
  | nil => exact ⟨fun _ _ => rfl, fun _ => rfl⟩
  | cons x rest ih =>
    obtain ⟨k, e⟩ := x
    have hi := ih (s.setAxisPosition k (s.enc e).position)
    rw [State.consume]
    refine ⟨fun j hj => ?_, fun j => ?_⟩
    · rw [List.map_cons, List.mem_cons, not_or] at hj
      rw [hi.1 j hj.2]
      exact State.axis_modAxis_ne _ _ (Ne.symm hj.1)
    · have h2 := hi.2 j
      have h3 := State.axis_modAxis s k j (fun x => { x with position := (s.enc e).position })
      unfold State.setAxisPosition at h2 ⊢
      rw [h3] at h2
      split at h2
      · rw [h2]
      · exact h2

theorem State.contrib_keys (s : State) (m : List Nat) : ∀ k, k ∈ (s.contrib m).map (·.1) → k ∈ m := by
  induction m with
  | nil => intro k hk; exact hk
  | cons x rest ih =>
    intro k hk
    rw [State.contrib] at hk
    split at hk
    · exact List.mem_cons_of_mem _ (ih k hk)
    · split at hk
      · exact List.mem_cons_of_mem _ (ih k hk)
      · rw [List.map_cons, List.mem_cons] at hk
        rcases hk with hk | hk
        · rw [hk]; exact List.mem_cons_self
        · exact List.mem_cons_of_mem _ (ih k hk)

/-- The batched move changes of an axis only its target and its last-consumed position, and only of the axes it was
given. -/
theorem State.move_entries {s t : State} {m : List Nat} (h : s.move m = .ok t) :
    (∀ j, j ∉ m → t.axis j = s.axis j) ∧
    (∀ j, t.axis j = { s.axis j with pos := (t.axis j).pos, position := (t.axis j).position }) := by
  have same : (∀ j, j ∉ m → s.axis j = s.axis j) ∧
      (∀ j, s.axis j = { s.axis j with pos := (s.axis j).pos, position := (s.axis j).position }) :=
    ⟨fun _ _ => rfl, fun _ => rfl⟩
  unfold State.move at h
  dsimp only at h
  split at h
  · cases h; exact same
  · split at h
    · cases h
    · next hds =>
      split at h
      · cases h; exact same
      · split at h
        · cases h
        · next cmd u hb =>
          cases h
          have hk := State.deltas_keys hds
          have h1 := State.buildCommand_entries hb
          have h2 := State.consume_entries u (s.contrib m)
          have ha : ((u.consume (s.contrib m)).sendMotion cmd).2.axes = (u.consume (s.contrib m)).axes := by
            rw [State.sendMotion_frame]
          refine ⟨fun j hj => ?_, fun j => ?_⟩
          · have hn : j ∉ (s.contrib m).map (·.1) := fun h => hj (State.contrib_keys s m j h)
            rw [State.axis_congr ha, h2.1 j hn, h1.1 j (by rw [hk]; exact hn)]
          · rw [State.axis_congr ha]
            have h3 := h2.2 j
            rw [h1.2 j] at h3
            rw [h3]

end Sys2Proof.Machine
end

