-- ==== Sys2Proof/Laws/History.lean ====
section
/-! SUPPORT. What each operation appends to the history of outputs: only ever at the end, and only its own events. -/

namespace Sys2Proof.Machine

/-- One history extends another by events that all meet `P`. -/
def Appends (P : OutEvent → Prop) (before after : List OutEvent) : Prop :=
  ∃ es, after = before ++ es ∧ ∀ x, x ∈ es → P x

theorem Appends.refl (P : OutEvent → Prop) (a : List OutEvent) : Appends P a a := ⟨[], by simp, by simp⟩

theorem Appends.trans {P : OutEvent → Prop} {a b c : List OutEvent} (h : Appends P a b) (k : Appends P b c) :
    Appends P a c := by
  obtain ⟨es, rfl, hes⟩ := h
  obtain ⟨fs, rfl, hfs⟩ := k
  refine ⟨es ++ fs, by rw [List.append_assoc], fun x hx => ?_⟩
  rcases List.mem_append.mp hx with hx | hx
  · exact hes x hx
  · exact hfs x hx

theorem Appends.one {P : OutEvent → Prop} (a : List OutEvent) {x : OutEvent} (h : P x) : Appends P a (a ++ [x]) :=
  ⟨[x], rfl, fun y hy => by rw [List.mem_singleton.mp hy]; exact h⟩

theorem Appends.mono {P Q : OutEvent → Prop} {a b : List OutEvent} (hPQ : ∀ x, P x → Q x) (h : Appends P a b) :
    Appends Q a b := by
  obtain ⟨es, he, hes⟩ := h
  exact ⟨es, he, fun x hx => hPQ x (hes x hx)⟩

/-- What is appended, for whichever suffix it is written with. -/
theorem Appends.mem {P : OutEvent → Prop} {a b es : List OutEvent} (h : Appends P a b) (hb : b = a ++ es)
    {x : OutEvent} (hx : x ∈ es) : P x := by
  obtain ⟨fs, hf, hfs⟩ := h
  rw [hb] at hf
  rw [List.append_cancel_left hf] at hx
  exact hfs x hx

/-- The override bytes (30_encoding R112). -/
def overrideBytes (p : Params) : List Byte :=
  [p.rtFeedFinePlus, p.rtFeedFineMinus, p.rtFeedReset, p.rtSpindleFinePlus, p.rtSpindleFineMinus, p.rtSpindleReset,
   p.rtRapidReset, p.rtRapidMedium, p.rtRapidLow]

/-- The outputs of ENC_EVENT: override bytes and counter resets. -/
def IsEncoderOutput (p : Params) (x : OutEvent) : Prop :=
  (∃ b, b ∈ overrideBytes p ∧ x = .rtCmd b) ∨ ∃ e, x = .counterReset e

theorem rapidByte_mem (p : Params) (l : RapidLevel) : rapidByte p l ∈ overrideBytes p := by
  cases l <;> simp [rapidByte, overrideBytes]

/-- The outputs of EXECUTE_REALTIME: the mode message, motion commands, counter resets, and the jog-cancel byte. -/
def IsTickOutput (p : Params) (x : OutEvent) : Prop :=
  x = .rtCmd p.rtJogCancel ∨ (∃ e, x = .counterReset e) ∨ (∃ c ok, x = .motion c ok) ∨ ∃ m, x = .statusMsg m

theorem State.mpgCursor_out (s : State) (e : Nat) : Appends (IsEncoderOutput s.cfg) s.out (s.mpgCursor e).out := by
  cases h : (s.enc e).axis with
  | none => unfold State.mpgCursor; rw [h]; exact Appends.refl _ _
  | some c => rw [State.mpgCursor_eq s e c h]; exact Appends.one _ (.inr ⟨e, rfl⟩)

theorem State.handleClick_out (s : State) (e : Nat) (ev : EncEvents) :
    Appends (IsEncoderOutput s.cfg) s.out (s.handleClick e ev).2.out := by
  unfold State.handleClick
  split
  · exact Appends.refl _ _
  · split
    · exact State.mpgCursor_out s e
    · exact Appends.refl _ _

theorem State.emitMany_appends {p : Params} (s : State) (n : Nat) {b : Byte} (hb : b ∈ overrideBytes p) :
    Appends (IsEncoderOutput p) s.out (s.emitMany n (.rtCmd b)).out :=
  ⟨List.replicate n (.rtCmd b), rfl, fun _ hx => .inl ⟨b, hb, (List.mem_replicate.mp hx).2⟩⟩

theorem State.fineSteps_out {q : Params} {s t : State} {e : Nat} {plus minus : Byte} {p : I32}
    (hp : plus ∈ overrideBytes q) (hm : minus ∈ overrideBytes q) (h : s.fineSteps e plus minus p = .ok t) :
    Appends (IsEncoderOutput q) s.out t.out := by
  obtain ⟨nOld, nNew, -, -, rfl⟩ := State.fineSteps_ok h
  exact (State.emitMany_appends s _ hp).trans (State.emitMany_appends (s.emitMany _ _) _ hm)

theorem State.turnRatchet_out (s : State) (d : Int) : Appends (IsEncoderOutput s.cfg) s.out (s.turnRatchet d).out := by
  unfold State.turnRatchet
  split
  · exact Appends.one _ (.inl ⟨_, rapidByte_mem _ _, rfl⟩)
  · split
    · exact Appends.one _ (.inl ⟨_, rapidByte_mem _ _, rfl⟩)
    · exact Appends.refl _ _

theorem State.rapidRatchet_out (s : State) (e : Nat) (p : I32) :
    Appends (IsEncoderOutput s.cfg) s.out (s.rapidRatchet e p).out := by
  unfold State.rapidRatchet
  dsimp only
  split
  · exact State.turnRatchet_out s _
  · exact Appends.refl _ _

theorem State.handlePosition_out {s t : State} {e : Nat} {p : I32} {v : U32} (h : s.handlePosition e p v = .ok t) :
    Appends (IsEncoderOutput s.cfg) s.out t.out := by
  unfold State.handlePosition at h
  dsimp only at h
  split at h
  · have h1 := State.fineSteps_out (q := s.cfg) (by simp [overrideBytes]) (by simp [overrideBytes]) h; exact h1
  · have h1 := State.fineSteps_out (q := s.cfg) (by simp [overrideBytes]) (by simp [overrideBytes]) h; exact h1
  · cases h; exact State.rapidRatchet_out _ e p
  · cases h; rw [State.mpgMark_frame]; exact Appends.refl _ _
  · cases h; rw [State.mpgMark_frame]; exact Appends.refl _ _
  · cases h; exact Appends.refl _ _

theorem State.overrideReset_out (s : State) (e : Nat) :
    Appends (IsEncoderOutput s.cfg) s.out (s.overrideReset e).out := by
  have h0 : Appends (IsEncoderOutput s.cfg) s.out (s.resetEncoder e).out := Appends.one _ (.inr ⟨e, rfl⟩)
  unfold State.overrideReset
  dsimp only
  split
  · exact h0.trans (Appends.one _ (.inl ⟨_, by simp [overrideBytes], rfl⟩))
  · exact h0.trans (Appends.one _ (.inl ⟨_, by simp [overrideBytes], rfl⟩))
  · exact h0.trans (Appends.one _ (.inl ⟨_, rapidByte_mem _ _, rfl⟩))
  · exact h0
  · exact h0
  · exact h0

theorem State.handleNonMovement_out (s : State) (e : Nat) (ev : EncEvents) :
    Appends (IsEncoderOutput s.cfg) s.out (s.handleNonMovement e ev).out := by
  unfold State.handleNonMovement
  split
  · split
    · exact State.overrideReset_out s e
    · split
      · rw [State.mpgEvents_frame]; exact Appends.refl _ _
      · exact Appends.refl _ _
  · exact Appends.refl _ _

/-- ENC_EVENT appends override bytes and counter resets only. -/
theorem execEncEvent_out {e : Nat} {ev : BitVec 3} {p : I32} {v : U32} {s t : State}
    (h : execEncEvent e ev p v s = .next t) : Appends (IsEncoderOutput s.cfg) s.out t.out := by
  unfold execEncEvent raiseFault outcomeOf at h
  split at h
  · cases h
  · split at h
    · cases h; exact Appends.refl _ _
    · cases hx : s.takeEncEvent e (eventsOfBits ev) p v with
      | error f => rw [hx] at h; cases h
      | ok u =>
        rw [hx] at h
        cases h
        unfold State.takeEncEvent at hx
        have hc := State.handleClick_out s e (eventsOfBits ev)
        have hcfg : (s.handleClick e (eventsOfBits ev)).2.cfg = s.cfg := by rw [State.handleClick_frame]
        generalize s.handleClick e (eventsOfBits ev) = x at hx hc hcfg
        obtain ⟨left, w⟩ := x
        dsimp only at hx hc hcfg
        split at hx
        · have h1 := State.handlePosition_out hx
          rw [hcfg] at h1
          exact hc.trans h1
        · cases hx
          have h1 := State.handleNonMovement_out w e left
          rw [hcfg] at h1
          exact hc.trans h1

theorem State.sendMotion_out (s : State) (cmd : MotionCmd) :
    Appends (IsTickOutput s.cfg) s.out (s.sendMotion cmd).2.out := by
  rw [State.sendMotion_frame]
  exact Appends.one _ (.inr (.inr (.inl ⟨cmd, _, rfl⟩)))

theorem State.axisZero_out (s : State) (k : Nat) : Appends (IsTickOutput s.cfg) s.out (s.axisZero k).out := by
  unfold State.axisZero
  have h0 := State.sendMotion_out s (.zeroAxis k)
  generalize s.sendMotion (.zeroAxis k) = x at h0 ⊢
  obtain ⟨ok, u⟩ := x
  cases ok
  · exact h0
  · dsimp only
    split
    · exact h0
    · exact h0.trans (Appends.one _ (.inr (.inl ⟨_, rfl⟩)))

theorem State.axisActions_out (s : State) (k : Nat) (ev : AxisEvents) :
    Appends (IsTickOutput s.cfg) s.out (s.axisActions k ev).out := by
  unfold State.axisActions
  dsimp only
  generalize ha : (if ev.zero = true then s.axisZero k else s) = a
  have h1 : Appends (IsTickOutput s.cfg) s.out a.out ∧ a.cfg = s.cfg := by
    subst ha
    split
    · exact ⟨State.axisZero_out s k, by rw [State.axisZero_frame]⟩
    · exact ⟨Appends.refl _ _, rfl⟩
  generalize hb : (if ev.scale = true then a.axisScale k else a) = b
  have h2 : b.out = a.out ∧ b.cfg = a.cfg := by subst hb; split <;> exact ⟨rfl, rfl⟩
  generalize hc : (if ev.stop = true then b.axisStop k else b) = c
  have h3 : Appends (IsTickOutput s.cfg) b.out c.out := by
    subst hc
    split
    · unfold State.axisStop
      split
      · exact Appends.one _ (.inl (by rw [h2.2, h1.2]))
      · exact Appends.refl _ _
    · exact Appends.refl _ _
  rw [h2.1] at h3
  split
  · rw [State.axisStart_frame]; exact h1.1.trans h3
  · exact h1.1.trans h3

theorem State.allActions_out (s : State) (snap : List (Nat × AxisEvents)) :
    Appends (IsTickOutput s.cfg) s.out (s.allActions snap).out := by
  induction snap generalizing s with
  | nil => exact Appends.refl _ _
  | cons x rest ih =>
    obtain ⟨k, ev⟩ := x
    have h := ih (s.axisActions k ev)
    rw [show (s.axisActions k ev).cfg = s.cfg by rw [State.axisActions_frame]] at h
    exact (State.axisActions_out s k ev).trans h

theorem State.move_out {s t : State} {m : List Nat} (h : s.move m = .ok t) :
    Appends (IsTickOutput s.cfg) s.out t.out := by
  unfold State.move at h
  dsimp only at h
  split at h
  · cases h; exact Appends.refl _ _
  · split at h
    · cases h
    · split at h
      · cases h; exact Appends.refl _ _
      · split at h
        · cases h
        · next hb =>
          cases h
          rw [State.sendMotion_frame, State.consume_frame, State.buildCommand_frame hb]
          exact Appends.one _ (.inr (.inr (.inl ⟨_, _, rfl⟩)))

theorem State.drain_out {s t : State} (h : s.drain = .ok t) : Appends (IsTickOutput s.cfg) s.out t.out := by
  unfold State.drain at h
  split at h
  · cases h; exact Appends.refl _ _
  · have hd := State.drawMachineState_frame s
    generalize s.drawMachineState = x at h hd
    obtain ⟨st, u⟩ := x
    dsimp only at h hd
    split at h
    · have h1 := State.allActions_out u.clearPending u.snapshot
      have hcfg : (u.clearPending.allActions u.snapshot).cfg = s.cfg := by
        rw [State.allActions_frame, State.clearPending_frame, hd]
      have hout : u.clearPending.out = s.out := by rw [State.clearPending_frame, hd]
      have hc : u.clearPending.cfg = s.cfg := by rw [State.clearPending_frame, hd]
      rw [hout, hc] at h1
      split at h
      · cases h; exact h1
      · have h2 := State.move_out h
        rw [hcfg] at h2
        exact h1.trans h2
    · cases h; rw [hd]; exact Appends.refl _ _

/-- EXECUTE_REALTIME appends its own outputs only. -/
theorem execExecuteRealtime_out {s t : State} (h : execExecuteRealtime s = .next t) :
    Appends (IsTickOutput s.cfg) s.out t.out := by
  unfold execExecuteRealtime outcomeOf at h
  cases hx : s.announceMode.drain with
  | error f => rw [hx] at h; cases h
  | ok u =>
    rw [hx] at h
    cases h
    have h1 := State.drain_out hx
    rw [show s.announceMode.cfg = s.cfg by rw [State.announceMode_frame]] at h1
    refine Appends.trans ?_ h1
    unfold State.announceMode
    split
    · exact Appends.one _ (.inr (.inr (.inr ⟨_, rfl⟩)))
    · exact Appends.refl _ _

end Sys2Proof.Machine
end

