-- ==== Sys2Proof/Laws/Intake.lean ====
section
/-! SUPPORT. The values the encoder engine computes, and which part of an encoder event runs. -/

namespace Sys2Proof.Machine

theorem narrow32_some {x : Int} (h : InInt32 x) : narrow32 x = some (BitVec.ofInt 32 x) :=
  if_pos h

theorem narrow32_none {x : Int} (h : ¬ InInt32 x) : narrow32 x = none :=
  if_neg h

/-- NCOUNT where neither fault condition holds. -/
theorem ncount_ok (e : Nat) {p : I32} {cpr : U32} (h : cpr ≠ 0) (hp : InInt32 (p.toInt * 100)) :
    ncount e p cpr = .ok (normalized p cpr) := by
  unfold ncount
  rw [if_neg (show ¬ cpr = 0#32 from h), show p.toInt * Config.normFactor = p.toInt * 100 from rfl, narrow32_some hp]
  rfl

/-- NCOUNT's first fault (41 R182). -/
theorem ncount_zero (e : Nat) (p : I32) {cpr : U32} (h : cpr = 0) : ncount e p cpr = .error (.divideByZero e) :=
  if_pos h

/-- NCOUNT's second fault (41 R182). -/
theorem ncount_overflow (e : Nat) {p : I32} {cpr : U32} (h : cpr ≠ 0) (hp : ¬ InInt32 (p.toInt * 100)) :
    ncount e p cpr = .error (.arithOverflow e) := by
  unfold ncount
  rw [if_neg (show ¬ cpr = 0#32 from h), show p.toInt * Config.normFactor = p.toInt * 100 from rfl, narrow32_none hp]
  rfl

theorem eventsOfBits_posChanged (ev : BitVec 3) : (eventsOfBits ev).posChanged = ev.getLsbD 0 := rfl

theorem eventsOfBits_click (ev : BitVec 3) : (eventsOfBits ev).click = ev.getLsbD 1 := rfl

theorem eventsOfBits_doubleClick (ev : BitVec 3) : (eventsOfBits ev).doubleClick = ev.getLsbD 2 := rfl

/-- Clearing the click bit of an event. -/
theorem eventsOfBits_without_click (ev : BitVec 3) :
    eventsOfBits (ev &&& 0b101) = { eventsOfBits ev with click := false } := by
  revert ev; decide

/-- A click of neither the universal nor an MPG (all axes) encoder is not handled in the first part (41 R175). -/
theorem State.handleClick_pass {s : State} {e : Nat} {ev : EncEvents} (hu : ev.click = true → s.universal ≠ some e)
    (hm : ev.click = true → (s.enc e).mode ≠ .mpg) : s.handleClick e ev = (ev, s) := by
  unfold State.handleClick
  cases hc : ev.click with
  | false => simp
  | true => simp [hu hc, hm hc]

/-- A click of the universal encoder (41 R176). -/
theorem State.handleClick_universal {s : State} {e : Nat} {ev : EncEvents} (hc : ev.click = true)
    (hu : s.universal = some e) : s.handleClick e ev = ({ ev with click := false }, s.universalCycle e) := by
  unfold State.handleClick
  rw [if_pos (by rw [hc, hu]; simp)]

/-- A click of an MPG (all axes) encoder that is not universal (41 R177). -/
theorem State.handleClick_mpg {s : State} {e : Nat} {ev : EncEvents} (hc : ev.click = true)
    (hu : s.universal ≠ some e) (hm : (s.enc e).mode = .mpg) :
    s.handleClick e ev = ({ ev with click := false }, s.mpgCursor e) := by
  unfold State.handleClick
  rw [if_neg (by simp [hu]), if_pos (by rw [hc, hm]; simp)]

/-- Two updates of one entry are one. -/
theorem modify_modify_eq_set {α : Type} (l : List α) (i : Nat) (f g : α → α) (d : α) (h : i < l.length) :
    (l.modify i f).modify i g = l.set i (g (f (l.getD i d))) := by
  rw [modify_eq_set _ _ _ d, modify_eq_set _ _ _ d, getD_set, if_pos ⟨rfl, h⟩, List.set_set]

end Sys2Proof.Machine
end

