-- ==== Sys2Proof/Laws/PerInstr.lean ====
section
/-! SUPPORT. Per instruction: the words the encoder writes select a row of the opcode map, and are as many as that row
has operand words (30_encoding R102, R107). -/

namespace Sys2Proof.Laws.Selects

/-- The head word of an operation selects a row, and as many operand words follow as the row has. -/
def Statement (i : Instr) : Prop :=
  ∃ w r rest, encode i = w :: rest ∧ selectRow w = some r ∧ rest.length = r.operandWords

theorem putByte (d : Byte) : Statement (.putByte d) := by
  refine ⟨_, fieldRow .putByte 0x01 0xFF 0xFF00 0, _, rfl, ?_, rfl⟩
  simp only [selectRow, opcodeTable_fields, List.find?, fieldRow_selects, byteField_masked]
  rfl

theorem getByte : Statement .getByte := by
  refine ⟨_, fieldRow .getByte 0x02 0xFF 0xFFFF 0, _, rfl, ?_, rfl⟩
  simp only [selectRow, opcodeTable_fields, List.find?, fieldRow_selects]
  rfl

theorem txCount : Statement .txCount := by
  refine ⟨_, fieldRow .txCount 0x03 0xFF 0xFFFF 0, _, rfl, ?_, rfl⟩
  simp only [selectRow, opcodeTable_fields, List.find?, fieldRow_selects]
  rfl

theorem rxCount : Statement .rxCount := by
  refine ⟨_, fieldRow .rxCount 0x04 0xFF 0xFFFF 0, _, rfl, ?_, rfl⟩
  simp only [selectRow, opcodeTable_fields, List.find?, fieldRow_selects]
  rfl

theorem rxFree : Statement .rxFree := by
  refine ⟨_, fieldRow .rxFree 0x05 0xFF 0xFFFF 0, _, rfl, ?_, rfl⟩
  simp only [selectRow, opcodeTable_fields, List.find?, fieldRow_selects]
  rfl

theorem rxOverflow : Statement .rxOverflow := by
  refine ⟨_, fieldRow .rxOverflow 0x06 0xFF 0xFFFF 0, _, rfl, ?_, rfl⟩
  simp only [selectRow, opcodeTable_fields, List.find?, fieldRow_selects]
  rfl

theorem resumeInput : Statement .resumeInput := by
  refine ⟨_, fieldRow .resumeInput 0x07 0xFF 0xFFFF 0, _, rfl, ?_, rfl⟩
  simp only [selectRow, opcodeTable_fields, List.find?, fieldRow_selects]
  rfl

theorem isrRx (d : Byte) (ovr fe : Bool) : Statement (.isrRx d ovr fe) := by
  refine ⟨_, fieldRow .isrRx 0x10 0xFC 0xFF00 0, _, rfl, ?_, rfl⟩
  simp only [selectRow, opcodeTable_fields, List.find?, fieldRow_selects, byteField_masked, errBits_masked]
  rfl

theorem isrTx : Statement .isrTx := by
  refine ⟨_, fieldRow .isrTx 0x11 0xFF 0xFFFF 0, _, rfl, ?_, rfl⟩
  simp only [selectRow, opcodeTable_fields, List.find?, fieldRow_selects]
  rfl

theorem isrRxErr (ovr fe : Bool) : Statement (.isrRxErr ovr fe) := by
  refine ⟨_, fieldRow .isrRxErr 0x12 0xFC 0xFFFF 0, _, rfl, ?_, rfl⟩
  simp only [selectRow, opcodeTable_fields, List.find?, fieldRow_selects, errBits_masked]
  rfl

theorem chanTxDone : Statement .chanTxDone := by
  refine ⟨_, fieldRow .chanTxDone 0x18 0xFF 0xFFFF 0, _, rfl, ?_, rfl⟩
  simp only [selectRow, opcodeTable_fields, List.find?, fieldRow_selects]
  rfl

theorem encEvent (enc : Nat) (ev : BitVec 3) (pos : I32) (vel : U32) : Statement (.encEvent enc ev pos vel) := by
  refine ⟨_, fieldRow .encEvent 0x20 0x00 0xFFF8 2, _, rfl, ?_, rfl⟩
  simp only [selectRow, opcodeTable_fields, List.find?, fieldRow_selects, eventField_masked]
  simp

theorem executeRealtime : Statement .executeRealtime := by
  refine ⟨_, fieldRow .executeRealtime 0x30 0xFF 0xFFFF 0, _, rfl, ?_, rfl⟩
  simp only [selectRow, opcodeTable_fields, List.find?, fieldRow_selects]
  rfl

theorem settingRead (id : Nat) : Statement (.settingRead id) := by
  refine ⟨_, fieldRow .settingRead 0x40 0xFF 0x0000 0, _, rfl, ?_, rfl⟩
  simp only [selectRow, opcodeTable_fields, List.find?, fieldRow_selects]
  simp

theorem settingWrite (id : Nat) (val : U32) : Statement (.settingWrite id val) := by
  refine ⟨_, fieldRow .settingWrite 0x41 0xFF 0x0000 1, _, rfl, ?_, rfl⟩
  simp only [selectRow, opcodeTable_fields, List.find?, fieldRow_selects]
  simp

theorem settingsRestore : Statement .settingsRestore := by
  refine ⟨_, fieldRow .settingsRestore 0x42 0xFF 0xFFFF 0, _, rfl, ?_, rfl⟩
  simp only [selectRow, opcodeTable_fields, List.find?, fieldRow_selects]
  rfl

end Sys2Proof.Laws.Selects
end

