-- ==== Sys2Proof/Laws/Queues.lean ====
section
/-! SUPPORT. The contents of a ring as a queue: a push joins the end, advancing the tail takes the front. -/

namespace Sys2Proof.Machine

/-- Slots by position from the first. -/
theorem slots_eq_map {c i : Nat} (f : Nat → Byte) (n : Nat) (hc : capOk c = true) (hi : i < c) :
    slots f c i n = (List.range n).map (fun k => f ((i + k) % c)) := by
  induction n generalizing i with
  | zero => rfl
  | succ n ih =>
    rw [slots, ih (ringNext_lt hc i), List.range_succ_eq_map, List.map_cons, List.map_map,
      Nat.add_zero, Nat.mod_eq_of_lt hi]
    congr 1
    apply List.map_congr_left
    intro k _
    simp only [Function.comp, Nat.succ_eq_add_one]
    rw [ringNext_eq_mod hc, Nat.mod_add_mod]
    congr 2
    omega

theorem slots_length (f : Nat → Byte) (c i n : Nat) : (slots f c i n).length = n := by
  induction n generalizing i with
  | zero => rfl
  | succ n ih => rw [slots, List.length_cons, ih]

/-- The slot at `head` lies `count` places after `tail`. -/
theorem tail_add_count {h t c : Nat} (hh : h < c) (ht : t < c) : (t + ringCount h t c) % c = h := by
  rw [ringCount_eq hh ht]
  split
  · rw [Nat.add_sub_cancel' (by assumption), Nat.mod_eq_of_lt hh]
  · rw [show t + (h + c - t) = h + c by omega, Nat.add_mod_right, Nat.mod_eq_of_lt hh]

/-- A queued slot is not the slot at `head`. -/
theorem slot_ne_head {h t c k : Nat} (hh : h < c) (ht : t < c) (hk : k < ringCount h t c) : (t + k) % c ≠ h := by
  rw [ringCount_eq hh ht] at hk
  split at hk
  · rw [Nat.mod_eq_of_lt (by omega)]; omega
  · by_cases hw : t + k < c
    · rw [Nat.mod_eq_of_lt hw]; omega
    · rw [Nat.mod_eq_sub_mod (by omega), Nat.mod_eq_of_lt (by omega)]; omega

/-- Writing the slot at `head` and advancing it appends the byte to the queue. -/
theorem slots_push {h t c : Nat} {f g : Nat → Byte} (hc : capOk c = true) (hh : h < c) (ht : t < c)
    (hf : ringFull h t c = false) (hg : ∀ a, a ≠ h → g a = f a) :
    slots g c t (ringCount (ringNext h c) t c) = slots f c t (ringCount h t c) ++ [g h] := by
  rw [ringCount_push hc hh ht hf, slots_eq_map g _ hc ht, slots_eq_map f _ hc ht, List.range_succ, List.map_append]
  congr 1
  · apply List.map_congr_left
    intro k hk
    exact hg _ (slot_ne_head hh ht (List.mem_range.mp hk))
  · simp only [List.map_cons, List.map_nil]
    rw [tail_add_count hh ht]

/-- A queue that is not empty begins with the byte at `tail`; advancing `tail` takes it. -/
theorem slots_drop {h t c : Nat} (f : Nat → Byte) (hc : capOk c = true) (hh : h < c) (ht : t < c) (he : h ≠ t) :
    slots f c t (ringCount h t c) = f t :: slots f c (ringNext t c) (ringCount h (ringNext t c) c) := by
  rw [ringCount_drop hc hh ht he, slots]

/-- An empty ring has no queued byte. -/
theorem slots_empty {h t c : Nat} (f : Nat → Byte) (hh : h < c) (ht : t < c) (he : h = t) :
    slots f c t (ringCount h t c) = [] := by
  rw [(ringCount_zero_iff hh ht).mpr he, slots]

/-- Queueing a transmit byte appends it. -/
theorem State.txQueue_push {s : State} (d : Byte) (hb : s.BuffersOk) (hf : s.txFull = false) :
    (s.txPush d).txQueue = s.txQueue ++ [d] := by
  have h := slots_push (f := s.txByte) (g := (s.txPush d).txByte) (Params.txCap_ok hb.1) hb.2.1.2.2.1 hb.2.1.2.2.2 hf
    (fun a ha => by
      simp only [State.txByte, State.txPush, Ring.push]
      rw [Memory.read_write_ne _ _ ha])
  refine h.trans ?_
  congr 2
  simp only [State.txByte, State.txPush, Ring.push]
  rw [Memory.read_write_same]
  rfl

/-- Taking the oldest transmit byte. -/
theorem State.txQueue_drop {s : State} (hb : s.BuffersOk) (he : s.txEmpty = false) :
    s.txQueue = s.txByte s.tx.tail :: s.txDrop.txQueue :=
  slots_drop s.txByte (Params.txCap_ok hb.1) hb.2.1.2.2.1 hb.2.1.2.2.2 (by simpa [State.txEmpty, ringEmpty] using he)

/-- Queueing a received byte appends it. -/
theorem State.rxQueue_push {s : State} (d : Byte) (hb : s.BuffersOk) (hf : s.rxFull = false) :
    (s.rxPush d).rxQueue = s.rxQueue ++ [d] := by
  have h := slots_push (f := s.rxByte) (g := (s.rxPush d).rxByte) (Params.rxCap_ok hb.1) hb.2.2.1.2.2.1
    hb.2.2.1.2.2.2 hf
    (fun a ha => by
      simp only [State.rxByte, State.rxPush, Ring.push]
      rw [Memory.read_write_ne _ _ ha])
  refine h.trans ?_
  congr 2
  simp only [State.rxByte, State.rxPush, Ring.push]
  rw [Memory.read_write_same]
  rfl

/-- Taking the oldest received byte. -/
theorem State.rxQueue_drop {s : State} (hb : s.BuffersOk) (he : s.rxEmpty = false) :
    s.rxQueue = s.rxByte s.rx.tail :: s.rxDrop.rxQueue :=
  slots_drop s.rxByte (Params.rxCap_ok hb.1) hb.2.2.1.2.2.1 hb.2.2.1.2.2.2
    (by simpa [State.rxEmpty, ringEmpty] using he)

end Sys2Proof.Machine
end

