-- ==== Sys2Proof/Laws/SettingIds.lean ====
section
/-! SUPPORT. The setting-id map (43 R250) read in both directions. -/

namespace Sys2Proof.Machine

/-- An id at offset 0 to 3 of an encoder's stride (43 R250). -/
theorem decodeSettingId_of_offset (p : Params) (hp : p.WellFormed = true) (id e f : Nat) (he : e < p.nEnc) (hf : f < 4)
    (h : id = p.setBase + e * p.setStride + f) :
    decodeSettingId p id = (settingFieldAt f).map (fun g => (e, g)) := by
  have := Params.stride_ok hp
  have h2 := Params.nEnc_pos hp
  have hm : (e+1) * p.setStride ≤ p.nEnc * p.setStride := Nat.mul_le_mul_right _ he
  have hm2 : (e+1) * p.setStride = e * p.setStride + p.setStride := by ring
  unfold decodeSettingId Params.setMax
  rw [if_neg (by omega)]
  have hd : id - p.setBase = f + e * p.setStride := by omega
  have hdiv : (id - p.setBase) / p.setStride = e := by
    rw [hd, Nat.add_mul_div_right _ _ (by omega), Nat.div_eq_of_lt (by omega)]; omega
  have hmod : (id - p.setBase) % p.setStride = f := by
    rw [hd, Nat.add_mul_mod_self_right, Nat.mod_eq_of_lt (by omega)]
  dsimp only
  rw [hdiv, hmod, if_neg (by omega)]

/-- Any other id is unhandled (43 R250). -/
theorem decodeSettingId_unhandled (p : Params) (hp : p.WellFormed = true) (id : Nat)
    (h : ∀ e f, e < p.nEnc → f < 4 → id ≠ p.setBase + e * p.setStride + f) : decodeSettingId p id = none := by
  have := Params.stride_ok hp
  unfold decodeSettingId
  split
  · rfl
  · next hn =>
    dsimp only
    split
    · rfl
    · next he =>
      have hlt : ¬ (id - p.setBase) % p.setStride < 4 := by
        intro hlt
        apply h _ _ (Nat.lt_of_not_le he) hlt
        have := Nat.div_add_mod (id - p.setBase) p.setStride
        rw [Nat.mul_comm] at this
        omega
      match hx : (id - p.setBase) % p.setStride, hlt with
      | 0, h => omega
      | 1, h => omega
      | 2, h => omega
      | 3, h => omega
      | n+4, _ => rfl

end Sys2Proof.Machine
end

