-- ==== Sys2Proof/Laws/Ticks.lean ====
section
/-! SUPPORT. What the actions of a tick leave, in closed form: one axis, then every flagged axis
(42 R213 to R219); and the parts of the batched move (42 R220 to R226). -/

namespace Sys2Proof.Machine

/-! ### A draw depends on the environment's answers alone -/

theorem State.drawAccept_congr {s t : State} (h : t.env = s.env) (cmd : MotionCmd) :
    (t.drawAccept cmd).1 = (s.drawAccept cmd).1 ∧ (t.drawAccept cmd).2.env = (s.drawAccept cmd).2.env := by
  unfold State.drawAccept State.countDraw
  rw [h]
  split <;> exact ⟨rfl, rfl⟩

theorem State.drawMachinePos_congr {s t : State} (h : t.env = s.env) (k : Nat) :
    (t.drawMachinePos k).1 = (s.drawMachinePos k).1 ∧ (t.drawMachinePos k).2.env = (s.drawMachinePos k).2.env := by
  unfold State.drawMachinePos State.countDraw
  rw [h]
  split <;> exact ⟨rfl, rfl⟩

theorem State.drawNowMs_congr {s t : State} (h : t.env = s.env) :
    t.drawNowMs.1 = s.drawNowMs.1 ∧ t.drawNowMs.2.env = s.drawNowMs.2.env := by
  unfold State.drawNowMs State.countDraw
  rw [h]
  split <;> exact ⟨rfl, rfl⟩

theorem State.drawRelative_congr {s t : State} (h : t.env = s.env) :
    t.drawRelative.1 = s.drawRelative.1 ∧ t.drawRelative.2.env = s.drawRelative.2.env := by
  unfold State.drawRelative State.countDraw
  rw [h]
  split <;> exact ⟨rfl, rfl⟩

/-! ### Each action of one axis: the answers drawn, the events, the axis, the others, the encoders -/

/-- Two updates of one entry are one. -/
theorem modify_modify {α : Type} (l : List α) (i : Nat) (f g : α → α) :
    (l.modify i f).modify i g = l.modify i (fun x => g (f x)) := by
  apply List.ext_getElem?
  intro j
  simp only [List.getElem?_modify]
  by_cases h : i = j
  · simp [h, Function.comp_def]
  · simp [h]

/-- AXIS_ZERO (42 R215) as one update. -/
theorem State.axisZero_eq (s : State) (k : Nat) :
    s.axisZero k =
      { s with
        axes := s.axes.modify k (fun x =>
          { x with position := if (s.drawAccept (.zeroAxis k)).1 then 0 else x.position }),
        encs := if (s.drawAccept (.zeroAxis k)).1
          then (match (s.axis k).enc with
                | none => s.encs
                | some e => s.encs.modify e (fun x => { x with position := 0 }))
          else s.encs,
        env := (s.drawAccept (.zeroAxis k)).2.env,
        out := s.out ++ .motion (.zeroAxis k) (s.drawAccept (.zeroAxis k)).1 ::
          (if (s.drawAccept (.zeroAxis k)).1 then (s.axis k).enc.toList.map .counterReset else []) } := by
  unfold State.axisZero
  have hm := State.sendMotion_frame s (.zeroAxis k)
  have hf := State.sendMotion_fst s (.zeroAxis k)
  generalize s.sendMotion (.zeroAxis k) = x at hm hf ⊢
  obtain ⟨ok, u⟩ := x
  dsimp only at hm hf
  rw [← hf] at hm ⊢
  cases ok
  · have : s.axes.modify k (fun x => { x with position := if false = true then 0 else x.position }) = s.axes := by
      rw [modify_eq_set s.axes k _ default]; exact set_getD_self _ _ _
    rw [this, hm]; rfl
  · dsimp only
    have hk : ((u.setAxisPosition k 0).axis k).enc = (s.axis k).enc := by
      refine (State.axis_modAxis_keep u k k (fun x => { x with position := 0 }) (fun x => x.enc) (fun _ => rfl)).trans ?_
      rw [hm]; rfl
    rw [hk, hm]
    cases (s.axis k).enc with
    | none => rfl
    | some e =>
      simp [State.resetEncoder, State.setEncPosition, State.modEnc, State.emit, State.setAxisPosition, State.modAxis]

/-- AXIS_STOP (42 R217) as one update. -/
theorem State.axisStop_eq (s : State) (k : Nat) :
    s.axisStop k =
      { s with
        axes := s.axes.modify k (fun x => { x with flags := { x.flags with moving := false } }),
        out := s.out ++ (if (s.axis k).flags.moving then [.rtCmd s.cfg.rtJogCancel] else []) } := by
  unfold State.axisStop
  cases h : (s.axis k).flags.moving
  · have : s.axes.modify k (fun x => { x with flags := { x.flags with moving := false } }) = s.axes := by
      rw [modify_eq_set s.axes k _ default]
      have hx : { s.axes.getD k default with flags := { (s.axes.getD k default).flags with moving := false } } =
          s.axes.getD k default := by
        unfold State.axis at h
        rw [← h]
      rw [hx]; exact set_getD_self _ _ _
    rw [this]; simp
  · simp [State.modAxis, State.emit]

/-- What an update keeps of an entry, whatever the index. -/
theorem getD_modify_keep {α β : Type} (l : List α) (i j : Nat) (f : α → α) (d : α) (g : α → β)
    (h : ∀ x, g (f x) = g x) : g ((l.modify i f).getD j d) = g (l.getD j d) := by
  rw [getD_modify]
  split
  · exact h _
  · rfl

/-- An update that leaves every entry as it is changes nothing. -/
theorem modify_same {α : Type} (l : List α) (i : Nat) (f : α → α) (d : α) (h : f (l.getD i d) = l.getD i d) :
    l.modify i f = l := by
  rw [modify_eq_set l i f d, h]
  exact set_getD_self _ _ _

/-- The answers to the actions of axis `k` with event set `ev`, drawn from `s` on (42 R214), and the state after the draws;
`st` says whether the axis starts. -/
def State.axisAnswers (s : State) (k : Nat) (ev : AxisEvents) (st : Bool) : (Bool × I32 × U32) × State :=
  let a := if ev.zero then s.drawAccept (.zeroAxis k) else (false, s)
  let o := if st then a.2.drawMachinePos k else (0, a.2)
  let n := if st then o.2.drawNowMs else (0, o.2)
  ((a.1, o.1, n.1), n.2)

theorem State.axisAnswers_congr {s t : State} (h : t.env = s.env) (k : Nat) (ev : AxisEvents) (st : Bool) :
    (t.axisAnswers k ev st).1 = (s.axisAnswers k ev st).1 ∧
    (t.axisAnswers k ev st).2.env = (s.axisAnswers k ev st).2.env := by
  unfold State.axisAnswers
  dsimp only
  have ha := State.drawAccept_congr h (.zeroAxis k)
  cases ev.zero <;> cases st <;> simp only [if_true, if_false, Bool.false_eq_true]
  · exact ⟨trivial, h⟩
  · have ho := State.drawMachinePos_congr h k
    have hn := State.drawNowMs_congr ho.2
    exact ⟨by rw [ho.1, hn.1], hn.2⟩
  · exact ⟨by rw [ha.1], ha.2⟩
  · have ho := State.drawMachinePos_congr ha.2 k
    have hn := State.drawNowMs_congr ho.2
    exact ⟨by rw [ha.1, ho.1, hn.1], hn.2⟩

/-- The actions of one axis (42 R214 to R219) as one update. -/
theorem State.axisActions_eq (s : State) (k : Nat) (ev : AxisEvents) (st : Bool)
    (hst : st = (ev.posChanged && (!(s.axis k).flags.moving || ev.stop))) (hk : k < s.axes.length) :
    let r := s.axisAnswers k ev st
    s.axisActions k ev =
      { s with
        axes := s.axes.modify k (fun x =>
          { x with
            position := if ev.zero && r.1.1 then 0 else x.position
            scale := if ev.scale then nextScale x.scale else x.scale
            flags := { x.flags with moving := ev.posChanged || (x.flags.moving && !ev.stop) }
            pos := if st then r.1.2.1 else x.pos
            nextEvent := if st then r.1.2.2 + BitVec.ofNat 32 s.cfg.mpgIntervalMs else x.nextEvent })
        encs := if ev.zero && r.1.1
          then (match (s.axis k).enc with
                | none => s.encs
                | some e => s.encs.modify e (fun x => { x with position := 0 }))
          else s.encs
        env := r.2.env
        out := s.out ++
          ((if ev.zero then .motion (.zeroAxis k) r.1.1 ::
              (if r.1.1 then (s.axis k).enc.toList.map .counterReset else []) else []) ++
           (if ev.stop && (s.axis k).flags.moving then [.rtCmd s.cfg.rtJogCancel] else [])) } := by
  intro r
  unfold State.axisActions
  dsimp only
  generalize ha : (if ev.zero = true then s.axisZero k else s) = a
  generalize hA : (if ev.zero = true then s.drawAccept (.zeroAxis k) else (false, s)) = A
  have h1 : a = { s with
      axes := s.axes.modify k (fun x => { x with position := if ev.zero && A.1 then 0 else x.position })
      encs := if ev.zero && A.1
        then (match (s.axis k).enc with
              | none => s.encs
              | some e => s.encs.modify e (fun x => { x with position := 0 }))
        else s.encs
      env := A.2.env
      out := s.out ++ (if ev.zero then .motion (.zeroAxis k) A.1 ::
        (if A.1 then (s.axis k).enc.toList.map .counterReset else []) else []) } := by
    subst ha hA
    cases ev.zero
    · rw [modify_same _ _ _ default rfl]; simp
    · simp only [if_true, Bool.true_and]; exact State.axisZero_eq s k
  generalize hb : (if ev.scale = true then a.axisScale k else a) = b
  have h2 : b = { a with axes := a.axes.modify k (fun x =>
      { x with scale := if ev.scale then nextScale x.scale else x.scale }) } := by
    subst hb
    cases ev.scale
    · rw [modify_same _ _ _ default rfl]; rfl
    · rfl
  have hbk : (b.axis k).flags = (s.axis k).flags := by
    have ba : (b.axis k).flags = (a.axis k).flags := by
      rw [h2]; exact getD_modify_keep _ _ _ _ _ (fun x : Axis => x.flags) (by intro x; rfl)
    have as : (a.axis k).flags = (s.axis k).flags := by
      rw [h1]; exact getD_modify_keep _ _ _ _ _ (fun x : Axis => x.flags) (by intro x; rfl)
    rw [ba, as]
  generalize hc : (if ev.stop = true then b.axisStop k else b) = c
  have h3 : c = { b with
      axes := b.axes.modify k (fun x => { x with flags := { x.flags with moving := x.flags.moving && !ev.stop } })
      out := b.out ++ (if ev.stop && (s.axis k).flags.moving then [.rtCmd s.cfg.rtJogCancel] else []) } := by
    subst hc
    cases ev.stop
    · rw [modify_same _ _ _ default (by simp)]; simp
    · simp only [if_true, Bool.true_and, Bool.not_true, Bool.and_false]
      rw [State.axisStop_eq, hbk, h2, h1]
  have hck : (c.axis k).flags.moving = ((s.axis k).flags.moving && !ev.stop) := by
    rw [h3]
    show ((b.axes.modify k _).getD k default).flags.moving = _
    rw [getD_modify, ← hbk]
    split
    · rfl
    · next h => exact absurd ⟨rfl, by rw [h2, h1]; simpa using hk⟩ h
  have hr : r = ((A.1, (if st then A.2.drawMachinePos k else (0, A.2)).1,
      (if st then (if st then A.2.drawMachinePos k else (0, A.2)).2.drawNowMs
        else (0, (if st then A.2.drawMachinePos k else (0, A.2)).2)).1),
      (if st then (if st then A.2.drawMachinePos k else (0, A.2)).2.drawNowMs
        else (0, (if st then A.2.drawMachinePos k else (0, A.2)).2)).2) := by
    subst hA; rfl
  have hce : c.env = A.2.env := by rw [h3, h2, h1]
  have h4 : c = { s with
      axes := s.axes.modify k (fun x =>
        { x with
          position := if ev.zero && A.1 then 0 else x.position
          scale := if ev.scale then nextScale x.scale else x.scale
          flags := { x.flags with moving := x.flags.moving && !ev.stop } })
      encs := if ev.zero && A.1
        then (match (s.axis k).enc with
              | none => s.encs
              | some e => s.encs.modify e (fun x => { x with position := 0 }))
        else s.encs
      env := A.2.env
      out := s.out ++ ((if ev.zero then .motion (.zeroAxis k) A.1 ::
        (if A.1 then (s.axis k).enc.toList.map .counterReset else []) else []) ++
        (if ev.stop && (s.axis k).flags.moving then [.rtCmd s.cfg.rtJogCancel] else [])) } := by
    rw [h3, h2, h1]
    simp only [modify_modify, List.append_assoc]
  clear h1 h2 h3 hbk ha hb hc
  clear_value r
  subst hr
  have hm : (s.axes.getD k default) = s.axis k := rfl
  cases hp : ev.posChanged
  · rw [hp, Bool.false_and] at hst
    subst hst
    simp only [Bool.false_eq_true, if_false, Bool.false_or]
    exact h4
  · rw [hp, Bool.true_and] at hst
    simp only [if_true, Bool.true_or]
    cases hmv : (c.axis k).flags.moving
    · have hs : st = true := by
        rw [hst]; rw [hmv] at hck
        revert hck; cases (s.axis k).flags.moving <;> cases ev.stop <;> simp
      subst hs
      have hpos := State.drawMachinePos_congr hce k
      have hnow := State.drawNowMs_congr hpos.2
      rw [State.axisStart_eq c k hmv, hpos.1, hnow.1, hnow.2, h4]
      simp only [State.modAxis, modify_modify, if_true]
    · have hs : st = false := by
        rw [hst]; rw [hmv] at hck
        revert hck; cases (s.axis k).flags.moving <;> cases ev.stop <;> simp
      subst hs
      unfold State.axisStart
      rw [if_pos hmv, h4]
      simp only [Bool.false_eq_true, if_false]
      have he : ((s.axis k).flags.moving && !ev.stop) = true := by rw [← hck, hmv]
      rw [modify_eq_set s.axes k _ default, modify_eq_set s.axes k _ default, hm, he]

/-! ### The actions of several axes -/

/-- The deadline modulo 2^32 (42 R218). -/
theorem deadline_eq (now : U32) (n : Nat) : now + BitVec.ofNat 32 n = BitVec.ofNat 32 (now.toNat + n) := by
  rw [BitVec.ofNat_add, BitVec.ofNat_toNat, BitVec.setWidth_eq]

/-- What a flagged axis becomes depends on the answers to its own actions alone. -/
theorem State.axisAfter_congr (s : State) {w w' : TickAnswers} {k : Nat} (ha : w.accepted k = w'.accepted k)
    (ho : w.origin k = w'.origin k) (hn : w.now k = w'.now k) : s.axisAfter w k = s.axisAfter w' k := by
  unfold State.axisAfter; rw [ha, ho, hn]

/-- What the actions of a flagged axis emit depends on the answer to its own zeroing alone. -/
theorem State.actionEvents_congr (s : State) {w w' : TickAnswers} {k : Nat} (ha : w.accepted k = w'.accepted k) :
    s.actionEvents w k = s.actionEvents w' k := by
  unfold State.actionEvents; rw [ha]

/-- Some of the axes had its zeroing accepted and is bound to the encoder. -/
def State.zeroedBy (s : State) (w : TickAnswers) (ks : List Nat) (e : Nat) : Bool :=
  ks.any (fun k => (s.axis k).event.zero && w.accepted k && (s.axis k).enc == some e)

/-- The actions of some axes of `s`, taken in a state `u` in which these axes stand as in `s` with their event sets
cleared, with the answers drawn from a state `d` that has the environment of `u`. -/
theorem State.allActions_eq (s : State) (ks : List Nat) (u d : State) (hnd : ks.Nodup)
    (hk : ∀ k, k ∈ ks → k < u.axes.length)
    (hx : ∀ k, k ∈ ks → u.axis k = { s.axis k with event := ⟨false, false, false, false, false, false⟩ })
    (hc : u.cfg = s.cfg) (hd : d.env = u.env) :
    let w := s.answersFrom ks d
    let v := u.allActions (ks.map (fun k => (k, (s.axis k).event)))
    v = { u with axes := v.axes, encs := v.encs, env := w.2.env, out := u.out ++ ks.flatMap (s.actionEvents w.1) } ∧
    v.axes.length = u.axes.length ∧ v.encs.length = u.encs.length ∧
    (∀ j, v.axis j = if j ∈ ks then s.axisAfter w.1 j else u.axis j) ∧
    (∀ e, v.enc e = if s.zeroedBy w.1 ks e then { u.enc e with position := 0 } else u.enc e) := by
  induction ks generalizing u d with
  | nil =>
    intro w v
    refine ⟨?_, rfl, rfl, fun _ => rfl, fun _ => rfl⟩
    show u = { u with env := d.env, out := u.out ++ [] }
    rw [hd, List.append_nil]
  | cons k ks ih =>
    intro w v
    have hkk := hk k List.mem_cons_self
    have hxk := hx k List.mem_cons_self
    have hne : ∀ j, j ∈ ks → j ≠ k := fun j hj h => (List.nodup_cons.mp hnd).1 (h ▸ hj)
    have hmv : (u.axis k).flags = (s.axis k).flags := by rw [hxk]
    have hen : (u.axis k).enc = (s.axis k).enc := by rw [hxk]
    have hq := State.axisActions_eq u k (s.axis k).event (s.starts k) (by rw [hmv]; rfl) hkk
    have hr := State.axisAnswers_congr hd k (s.axis k).event (s.starts k)
    generalize hR : d.axisAnswers k (s.axis k).event (s.starts k) = R at hr
    dsimp only at hq
    rw [← hr.1, ← hr.2, hen, hmv, hc] at hq
    generalize ht : u.axisActions k (s.axis k).event = t at hq
    have hv : v = t.allActions (ks.map (fun k => (k, (s.axis k).event))) := by
      rw [← ht]; rfl
    have hw : w = (⟨fun j => if j = k then R.1.1 else (s.answersFrom ks R.2).1.accepted j,
        fun j => if j = k then R.1.2.1 else (s.answersFrom ks R.2).1.origin j,
        fun j => if j = k then R.1.2.2 else (s.answersFrom ks R.2).1.now j⟩, (s.answersFrom ks R.2).2) := by
      rw [← hR]; rfl
    have htl : t.axes.length = u.axes.length := by rw [hq]; exact List.length_modify ..
    have hta : ∀ j, j ≠ k → t.axis j = u.axis j := by
      intro j hj
      rw [hq]
      show (u.axes.modify k _).getD j default = _
      rw [getD_modify, if_neg (fun h => hj h.1.symm)]
      rfl
    have htk : t.axis k = s.axisAfter w.1 k := by
      rw [hq]
      show (u.axes.modify k _).getD k default = _
      rw [getD_modify, if_pos ⟨rfl, hkk⟩]
      have : u.axes.getD k default = u.axis k := rfl
      rw [this, hxk, hw]
      unfold State.axisAfter
      simp only [if_true, deadline_eq]
      cases (s.axis k).scale <;> rfl
    have hte : ∀ e, t.enc e = if (s.axis k).event.zero && R.1.1 && (s.axis k).enc == some e
        then { u.enc e with position := 0 } else u.enc e := by
      intro e
      rw [hq]
      cases hb : (s.axis k).event.zero && R.1.1
      · simp only [Bool.false_and, Bool.false_eq_true, if_false]; rfl
      · simp only [Bool.true_and, if_true]
        cases he : (s.axis k).enc with
        | none => rfl
        | some e0 =>
          show (u.encs.modify e0 _).getD e default = _
          rw [getD_modify]
          by_cases h0 : e0 = e
          · subst h0
            have hb : ((some e0 : Option Nat) == some e0) = true := by simp
            simp only [hb, if_true, true_and]
            split
            · rfl
            · next hl =>
              have hl : u.encs.length ≤ e0 := by simpa using hl
              have : u.enc e0 = default := by
                unfold State.enc
                rw [List.getD_eq_getElem?_getD, List.getElem?_eq_none hl]; rfl
              rw [this]; exact this
          · have hb : ((some e0 : Option Nat) == some e) = false := by simpa using h0
            simp only [hb, h0, false_and, if_false, Bool.false_eq_true]
            rfl
    have h := ih t R.2 (List.nodup_cons.mp hnd).2
      (fun j hj => by rw [htl]; exact hk j (List.mem_cons_of_mem _ hj))
      (fun j hj => by rw [hta j (hne j hj)]; exact hx j (List.mem_cons_of_mem _ hj))
      (by rw [hq]) (by rw [hq])
    dsimp only at h
    rw [← hv] at h
    obtain ⟨h1, h2, h3, h4, h5⟩ := h
    have hwa : ∀ j, j ∈ ks → w.1.accepted j = (s.answersFrom ks R.2).1.accepted j := by
      intro j hj; rw [hw]; exact if_neg (hne j hj)
    have hwo : ∀ j, j ∈ ks → w.1.origin j = (s.answersFrom ks R.2).1.origin j := by
      intro j hj; rw [hw]; exact if_neg (hne j hj)
    have hwn : ∀ j, j ∈ ks → w.1.now j = (s.answersFrom ks R.2).1.now j := by
      intro j hj; rw [hw]; exact if_neg (hne j hj)
    refine ⟨?_, h2.trans htl, ?_, fun j => ?_, fun e => ?_⟩
    · have hev : ks.flatMap (s.actionEvents (s.answersFrom ks R.2).1) = ks.flatMap (s.actionEvents w.1) := by
        rw [List.flatMap_def, List.flatMap_def]
        congr 1
        exact List.map_congr_left (fun j hj => (State.actionEvents_congr s (hwa j hj)).symm)
      have hwe : w.2 = (s.answersFrom ks R.2).2 := by rw [hw]
      have hwk : w.1.accepted k = R.1.1 := by rw [hw]; exact if_pos rfl
      have hae : s.actionEvents w.1 k = (if (s.axis k).event.zero then .motion (.zeroAxis k) R.1.1 ::
          (if R.1.1 then (s.axis k).enc.toList.map .counterReset else []) else []) ++
          (if (s.axis k).event.stop && (s.axis k).flags.moving then [.rtCmd s.cfg.rtJogCancel] else []) := by
        rw [← hwk]; rfl
      rw [hev, ← hwe] at h1
      rw [List.flatMap_cons, hae, ← List.append_assoc u.out]
      rw [hq] at h1
      rw [hc]
      exact h1
    · rw [h3, hq]
      dsimp only
      split
      · split
        · rfl
        · exact List.length_modify ..
      · rfl
    · rw [h4 j]
      by_cases hj : j ∈ ks
      · rw [if_pos hj, if_pos (List.mem_cons_of_mem _ hj)]
        exact (State.axisAfter_congr s (hwa j hj) (hwo j hj) (hwn j hj)).symm
      · rw [if_neg hj]
        by_cases hjk : j = k
        · subst hjk; rw [if_pos List.mem_cons_self]; exact htk
        · rw [if_neg (by rw [List.mem_cons]; rintro (h | h); exacts [hjk h, hj h])]
          exact hta j hjk
    · have hz : s.zeroedBy w.1 (k :: ks) e =
          (((s.axis k).event.zero && R.1.1 && (s.axis k).enc == some e) ||
            s.zeroedBy (s.answersFrom ks R.2).1 ks e) := by
        unfold State.zeroedBy
        rw [List.any_cons]
        congr 1
        · rw [hw]; simp
        · rw [Bool.eq_iff_iff, List.any_eq_true, List.any_eq_true]
          exact ⟨fun ⟨j, hj, h⟩ => ⟨j, hj, by rw [← hwa j hj]; exact h⟩,
            fun ⟨j, hj, h⟩ => ⟨j, hj, by rw [hwa j hj]; exact h⟩⟩
      rw [h5 e, hte e, hz]
      cases s.zeroedBy (s.answersFrom ks R.2).1 ks e <;>
        cases (s.axis k).event.zero && R.1.1 && (s.axis k).enc == some e <;> rfl

/-- A list of a known length, entry by entry. -/
theorem eq_range_map {α : Type} (l : List α) (n : Nat) (f : Nat → α) (d : α) (hl : l.length = n)
    (h : ∀ j, j < n → l.getD j d = f j) : l = (List.range n).map f := by
  apply List.ext_getElem
  · rw [hl, List.length_map, List.length_range]
  · intro j h1 h2
    rw [List.getElem_map, List.getElem_range, ← h j (hl ▸ h1), List.getD_eq_getElem?_getD, List.getElem?_eq_getElem h1]
    rfl

theorem State.clearEvents_length (s : State) (ks : List Nat) : (s.clearEvents ks).axes.length = s.axes.length := by
  induction ks generalizing s with
  | nil => rfl
  | cons k ks ih => rw [State.clearEvents, ih]; exact List.length_modify ..

/-- The actions of a tick whose gate opens, in the state its draw of the machine state leaves (42 R212 to R219). -/
theorem State.clearPending_allActions (s : State) (ha : s.ArraysOk) :
    s.drawMachineState.2.clearPending.allActions s.drawMachineState.2.snapshot = s.afterActions := by
  obtain ⟨hae, haa, -⟩ := ha
  have hd := State.drawMachineState_frame s
  generalize hD : s.drawMachineState.2 = d at hd
  have hsn : d.snapshot = s.flagged.map (fun k => (k, (s.axis k).event)) := by
    rw [hd]; rfl
  have hcl : ∀ j, d.clearPending.axis j =
      if (j < s.cfg.nAxis ∧ s.pendingAxes.getLsbD j = true) ∧ j < s.axes.length
      then { s.axis j with event := ⟨false, false, false, false, false, false⟩ } else s.axis j := by
    intro j; rw [State.axis_clearPending, hd]; rfl
  have hlen : d.clearPending.axes.length = s.axes.length := by
    rw [hd]; exact State.clearEvents_length _ _
  have hmem : ∀ k, k ∈ s.flagged ↔ k < s.cfg.nAxis ∧ s.pendingAxes.getLsbD k = true := mem_maskAxes _ _
  have hcp := State.clearPending_frame d
  have h := State.allActions_eq s s.flagged d.clearPending d (List.nodup_range.filter _)
    (fun k hk => by rw [hlen, haa]; exact ((hmem k).mp hk).1)
    (fun k hk => by rw [hcl k, if_pos ⟨(hmem k).mp hk, haa ▸ ((hmem k).mp hk).1⟩])
    (by rw [hcp, hd]) (by rw [hcp])
  dsimp only at h
  have hw : s.answersFrom s.flagged d = s.tickAnswers := by rw [← hD]; rfl
  rw [hw] at h
  rw [hsn]
  generalize d.clearPending.allActions (s.flagged.map (fun k => (k, (s.axis k).event))) = v at h
  obtain ⟨h1, h2, h3, h4, h5⟩ := h
  have hax : v.axes = s.afterActions.axes := by
    refine eq_range_map v.axes s.cfg.nAxis _ default (by rw [h2, hlen, haa]) (fun j hj => ?_)
    refine (h4 j).trans ?_
    cases hp : s.pendingAxes.getLsbD j
    · rw [if_neg (fun x => by simp [(hmem j).mp x] at hp), hcl j, if_neg (fun x => by simp [x.1.2] at hp)]
      simp
    · rw [if_pos ((hmem j).mpr ⟨hj, hp⟩)]; simp
  have hen : v.encs = s.afterActions.encs := by
    refine eq_range_map v.encs s.cfg.nEnc _ default (by rw [h3, hcp, hd]; exact hae) (fun e _ => ?_)
    refine (h5 e).trans ?_
    have he : d.clearPending.enc e = s.enc e := by rw [hcp, hd]; rfl
    rw [he]; rfl
  rw [h1, hax, hen, hcp, hd]
  rfl

/-! ### The parts of the batched move -/

/-- An axis with the encoder it is bound to, as MOVE pairs them (42 R221). -/
def State.bound (s : State) (k : Nat) : Nat × Nat := (k, (s.axis k).enc.getD 0)

/-- CONTRIB (42 R221): the moved axes, each with its encoder. -/
theorem State.contrib_eq (s : State) (m : List Nat) : s.contrib m = (m.filter s.hasMoved).map s.bound := by
  induction m with
  | nil => rfl
  | cons k ks ih =>
    rw [State.contrib, List.filter_cons]
    unfold State.hasMoved State.bound at *
    cases h : (s.axis k).enc with
    | none => simp only [Bool.false_eq_true, if_false]; exact ih
    | some e =>
      by_cases hp : (s.enc e).position = (s.axis k).position
      · simp only [hp, bne_self_eq_false, Bool.false_eq_true, if_true, if_false]; exact ih
      · have : ((s.enc e).position != (s.axis k).position) = true := by simpa using hp
        simp only [hp, this, if_true, if_false, List.map_cons, h, Option.getD_some]
        rw [ih]

/-- The moved axes of a tick's movement set are its contributors (42 R213, R221). -/
theorem State.moveSet_moved (s : State) :
    (moveSet s.drawMachineState.2.snapshot).filter s.afterActions.hasMoved = s.contributors := by
  have h : s.drawMachineState.2.snapshot = s.flagged.map (fun k => (k, (s.axis k).event)) := by
    rw [State.drawMachineState_frame s]; rfl
  rw [h]
  unfold State.contributors moveSet
  induction s.flagged with
  | nil => rfl
  | cons k ks ih =>
    cases hp : (s.axis k).event.posChanged <;> cases hm : s.afterActions.hasMoved k <;>
      simp_all

/-- An Int32 value survives the register it is put in. -/
theorem ofInt_toInt {x : Int} (h : InInt32 x) : (BitVec.ofInt 32 x).toInt = x := by
  unfold InInt32 at h
  rw [BitVec.toInt_ofInt, Int.bmod_def]
  split <;> omega

/-- AXIS_DELTA in range (42 R224). -/
theorem State.axisDelta_ok {s : State} {k : Nat} (h : s.MoveInRange k) :
    s.axisDelta k ((s.axis k).enc.getD 0) = .ok (BitVec.ofInt 32 (s.displacement k)) := by
  obtain ⟨h1, h2⟩ := h
  unfold State.displacement State.boundEncoder at *
  unfold State.axisDelta
  rw [narrow32_some h1]
  dsimp only
  rw [ofInt_toInt h1, narrow32_some h2]

/-- AXIS_DELTA out of range faults for its axis (42 R223, R224). -/
theorem State.axisDelta_error {s : State} {k : Nat} (h : ¬ s.MoveInRange k) :
    s.axisDelta k ((s.axis k).enc.getD 0) = .error (.arithOverflow k) := by
  unfold State.MoveInRange State.displacement State.boundEncoder at h
  unfold State.axisDelta
  by_cases h1 : InInt32 ((s.enc ((s.axis k).enc.getD 0)).position.toInt - (s.axis k).position.toInt)
  · rw [narrow32_some h1]
    dsimp only
    rw [ofInt_toInt h1, narrow32_none (fun h2 => h ⟨h1, h2⟩)]
  · rw [narrow32_none h1]

/-- AXIS_DELTA of every axis in range (42 R224). -/
theorem State.deltas_eq (s : State) (c : List Nat) (h : ∀ k, k ∈ c → s.MoveInRange k) :
    s.deltas (c.map s.bound) = .ok (s.displacements c) := by
  induction c with
  | nil => rfl
  | cons k ks ih =>
    rw [List.map_cons, State.bound, State.deltas, State.axisDelta_ok (h k List.mem_cons_self)]
    dsimp only
    rw [ih (fun j hj => h j (List.mem_cons_of_mem _ hj))]
    rfl

/-- The contributors of a tick ascend (42 R214, R221). -/
theorem State.contributors_sorted (s : State) : s.contributors.Pairwise (· < ·) :=
  (List.pairwise_lt_range.filter _).filter _

/-- AXIS_DELTA of the lowest axis out of range ends the deltas (42 R220, R223, R224). -/
theorem State.deltas_error (s : State) (c : List Nat) (k : Nat) (hs : c.Pairwise (· < ·)) (hk : k ∈ c)
    (hl : ∀ j, j ∈ c → j < k → s.MoveInRange j) (h : ¬ s.MoveInRange k) :
    s.deltas (c.map s.bound) = .error (.arithOverflow k) := by
  induction c with
  | nil => cases hk
  | cons a as ih =>
    obtain ⟨ha, has⟩ := List.pairwise_cons.mp hs
    rw [List.map_cons, State.bound, State.deltas]
    by_cases he : a = k
    · subst he
      rw [State.axisDelta_error h]
    · have hk' : k ∈ as := (List.mem_cons.mp hk).resolve_left (fun e => he e.symm)
      rw [State.axisDelta_ok (hl a List.mem_cons_self (ha k hk'))]
      dsimp only
      rw [ih has hk' (fun j hj => hl j (List.mem_cons_of_mem _ hj))]

/-- FEED (42 R225): 0 exactly where every velocity is 0. -/
theorem slowestFeed_eq_zero (vs : List U32) : slowestFeed vs = 0 ↔ ∀ v, v ∈ vs → v = 0 := by
  induction vs with
  | nil => simp [slowestFeed]
  | cons v vs ih =>
    rw [slowestFeed]
    by_cases hv : v = 0
    · rw [if_pos hv, ih]
      simp [hv]
    · rw [if_neg hv]
      have : ¬ ∀ x, x ∈ v :: vs → x = 0 := fun h => hv (h v List.mem_cons_self)
      simp only [this, iff_false]
      split
      · exact hv
      · split
        · exact hv
        · assumption

/-- FEED (42 R225) is the least non-zero velocity. -/
theorem slowestFeed_eq (vs : List U32) (f : U32) (h0 : f ≠ 0) (hm : f ∈ vs)
    (hl : ∀ v, v ∈ vs → v ≠ 0 → f.toNat ≤ v.toNat) : slowestFeed vs = f := by
  have key : ∀ vs : List U32, slowestFeed vs ≠ 0 →
      slowestFeed vs ∈ vs ∧ ∀ v, v ∈ vs → v ≠ 0 → (slowestFeed vs).toNat ≤ v.toNat := by
    intro vs
    induction vs with
    | nil => intro h; exact absurd rfl h
    | cons v vs ih =>
      rw [slowestFeed]
      intro h
      by_cases hv : v = 0
      · rw [if_pos hv] at h ⊢
        have := ih h
        refine ⟨List.mem_cons_of_mem _ this.1, fun x hx hx0 => ?_⟩
        rcases List.mem_cons.mp hx with e | e
        · exact absurd (e.trans hv) hx0
        · exact this.2 x e hx0
      · rw [if_neg hv] at h ⊢
        by_cases hz : slowestFeed vs = 0
        · rw [if_pos hz]
          refine ⟨List.mem_cons_self, fun x hx hx0 => ?_⟩
          rcases List.mem_cons.mp hx with e | e
          · rw [e]
          · exact absurd ((slowestFeed_eq_zero vs).mp hz x e) hx0
        · rw [if_neg hz]
          have := ih hz
          by_cases hle : v.toNat ≤ (slowestFeed vs).toNat
          · rw [if_pos hle]
            refine ⟨List.mem_cons_self, fun x hx hx0 => ?_⟩
            rcases List.mem_cons.mp hx with e | e
            · rw [e]
            · exact Nat.le_trans hle (this.2 x e hx0)
          · rw [if_neg hle]
            refine ⟨List.mem_cons_of_mem _ this.1, fun x hx hx0 => ?_⟩
            rcases List.mem_cons.mp hx with e | e
            · rw [e]; exact Nat.le_of_lt (Nat.lt_of_not_le hle)
            · exact this.2 x e hx0
  have hne : slowestFeed vs ≠ 0 := fun h => h0 ((slowestFeed_eq_zero vs).mp h f hm)
  have hk := key vs hne
  exact BitVec.eq_of_toNat_eq (Nat.le_antisymm (hk.2 f hm h0) (hl _ hk.1 hne))

/-- Consumption (42 R224), axis by axis. -/
theorem State.axis_consume (s : State) (c : List Nat) (j : Nat) (hj : j < s.axes.length) :
    (s.consume (c.map s.bound)).axis j =
      if j ∈ c then { s.axis j with position := (s.boundEncoder j).position } else s.axis j := by
  have key : ∀ (c : List Nat) (u : State), u.encs = s.encs → u.axes.length = s.axes.length →
      (u.consume (c.map s.bound)).axis j =
        if j ∈ c then { u.axis j with position := (s.boundEncoder j).position } else u.axis j := by
    intro c
    induction c with
    | nil => intro u _ _; rfl
    | cons k ks ih =>
      intro u hu hl
      rw [List.map_cons, State.bound, State.consume]
      refine (ih (u.setAxisPosition k (u.enc ((s.axis k).enc.getD 0)).position) hu
        (hl ▸ List.length_modify ..)).trans ?_
      have hp : (u.enc ((s.axis k).enc.getD 0)).position = (s.boundEncoder k).position := by
        rw [State.enc_congr hu]; rfl
      rw [hp, State.setAxisPosition]
      by_cases hk : k = j
      · subst hk
        rw [State.axis_modAxis_same u _ (by rw [hl]; exact hj)]
        simp only [List.mem_cons_self, if_true]
        split <;> rfl
      · rw [State.axis_modAxis_ne u _ hk]
        have h2 : j ∈ k :: ks ↔ j ∈ ks := by
          rw [List.mem_cons]
          exact ⟨fun h => h.resolve_left (fun e => hk e.symm), .inr⟩
        simp only [h2]
  exact key c s rfl rfl

/-- Accumulation (42 R226): the targets, and each axis with its own. -/
theorem State.accumulate_eq (s : State) (c : List Nat) (hnd : c.Nodup) (hk : ∀ k, k ∈ c → k < s.axes.length)
    (h : ∀ k, k ∈ c → InInt32 (s.displacement k) ∧ InInt32 ((s.axis k).pos.toInt + s.displacement k)) :
    ∃ u, s.accumulate (s.displacements c) = .ok (s.targets c, u) ∧ u.axes.length = s.axes.length ∧
      ∀ j, u.axis j = if j ∈ c
        then { s.axis j with pos := BitVec.ofInt 32 ((s.axis j).pos.toInt + s.displacement j) } else s.axis j := by
  have key : ∀ (c : List Nat) (u : State), c.Nodup → u.axes.length = s.axes.length →
      (∀ k, k ∈ c → k < s.axes.length ∧ u.axis k = s.axis k ∧
        InInt32 (s.displacement k) ∧ InInt32 ((s.axis k).pos.toInt + s.displacement k)) →
      ∃ v, u.accumulate (s.displacements c) = .ok (s.targets c, v) ∧ v.axes.length = u.axes.length ∧
        ∀ j, v.axis j = if j ∈ c
          then { u.axis j with pos := BitVec.ofInt 32 ((s.axis j).pos.toInt + s.displacement j) } else u.axis j := by
    intro c
    induction c with
    | nil => intro u _ _ _; exact ⟨u, rfl, rfl, fun _ => rfl⟩
    | cons k ks ih =>
      intro u hn hl hx
      obtain ⟨hk1, hk2, hk3, hk4⟩ := hx k List.mem_cons_self
      have hne : ∀ j, j ∈ ks → j ≠ k := fun j hj h => (List.nodup_cons.mp hn).1 (h ▸ hj)
      let t := u.modAxis k (fun x =>
        { x with pos := BitVec.ofInt 32 ((s.axis k).pos.toInt + s.displacement k) })
      have htl : t.axes.length = u.axes.length := List.length_modify ..
      obtain ⟨v, hv1, hv2, hv3⟩ := ih t (List.nodup_cons.mp hn).2 (htl.trans hl) (fun j hj => by
        obtain ⟨a, b, c⟩ := hx j (List.mem_cons_of_mem _ hj)
        exact ⟨a, (State.axis_modAxis_ne u _ (hne j hj).symm).trans b, c⟩)
      refine ⟨v, ?_, hv2.trans htl, fun j => ?_⟩
      · rw [State.displacements, List.map_cons, State.accumulate, hk2, ofInt_toInt hk3, narrow32_some hk4]
        dsimp only
        have hv1' : State.accumulate (u.modAxis k (fun x =>
            { x with pos := BitVec.ofInt 32 ((s.axis k).pos.toInt + s.displacement k) }))
            (ks.map (fun k => (k, BitVec.ofInt 32 (s.displacement k)))) = .ok (s.targets ks, v) := hv1
        rw [hv1']
        rfl
      · rw [hv3 j]
        by_cases hj : j = k
        · subst hj
          rw [if_neg (List.nodup_cons.mp hn).1, if_pos List.mem_cons_self]
          exact State.axis_modAxis_same u _ (by rw [hl]; exact hk1)
        · have h2 : j ∈ k :: ks ↔ j ∈ ks := by
            rw [List.mem_cons]
            exact ⟨fun h => h.resolve_left hj, .inr⟩
          have h3 : t.axis j = u.axis j := State.axis_modAxis_ne u _ (fun h => hj h.symm)
          simp only [h2, h3]
  exact key c s hnd rfl (fun k hc => ⟨hk k hc, rfl, (h k hc).1, (h k hc).2⟩)

/-- The lowest target out of range ends the accumulation (42 R223, R226). -/
theorem State.accumulate_error (s : State) (c : List Nat) (k : Nat) (hs : c.Pairwise (· < ·)) (hk : k ∈ c)
    (hd : ∀ j, j ∈ c → InInt32 (s.displacement j))
    (hl : ∀ j, j ∈ c → j < k → InInt32 ((s.axis j).pos.toInt + s.displacement j))
    (h : ¬ InInt32 ((s.axis k).pos.toInt + s.displacement k)) :
    s.accumulate (s.displacements c) = .error (.arithOverflow k) := by
  have key : ∀ (c : List Nat) (u : State), c.Pairwise (· < ·) → k ∈ c →
      (∀ j, j ∈ c → u.axis j = s.axis j ∧ InInt32 (s.displacement j) ∧
        (j < k → InInt32 ((s.axis j).pos.toInt + s.displacement j))) →
      u.accumulate (s.displacements c) = .error (.arithOverflow k) := by
    intro c
    induction c with
    | nil => intro u _ hk _; cases hk
    | cons a as ih =>
      intro u hs hk hx
      obtain ⟨ha, has⟩ := List.pairwise_cons.mp hs
      obtain ⟨h1, h2, h3⟩ := hx a List.mem_cons_self
      rw [State.displacements, List.map_cons, State.accumulate, h1, ofInt_toInt h2]
      by_cases he : a = k
      · subst he
        rw [narrow32_none h]
      · have hk' : k ∈ as := (List.mem_cons.mp hk).resolve_left (fun e => he e.symm)
        rw [narrow32_some (h3 (ha k hk'))]
        dsimp only
        have := ih (u.modAxis a (fun x => { x with pos := BitVec.ofInt 32 ((s.axis a).pos.toInt + s.displacement a) }))
          has hk' (fun j hj => by
            obtain ⟨e, r⟩ := hx j (List.mem_cons_of_mem _ hj)
            exact ⟨(State.axis_modAxis_ne u _ (Nat.ne_of_lt (ha j hj))).trans e, r⟩)
        rw [State.displacements] at this
        rw [this]
  exact key c s hs hk (fun j hj => ⟨rfl, hd j hj, hl j hj⟩)

/-- EXECUTE_REALTIME once its gate opens (42 R210 to R220): the batched move after the actions. -/
theorem State.execExecuteRealtime_open {s : State} (hm : s.modeMsgPending = false) (ha : s.ArraysOk)
    (hp : s.pendingAxes ≠ 0) (hg : s.gateWillOpen) :
    execExecuteRealtime s =
      outcomeOf ((s.afterActions.move (moveSet s.drawMachineState.2.snapshot)).map (fun t => t.result 0)) := by
  have hgo : gateOpen s.drawMachineState.1 = true := by
    rcases hg with h | h <;> rw [h] <;> rfl
  have h1 : s.announceMode = s := by unfold State.announceMode; rw [hm]; rfl
  have h2 : s.nothingPending = false := by unfold State.nothingPending; simpa using hp
  unfold execExecuteRealtime State.drain
  rw [h1, h2]
  simp only [hgo, if_true, State.clearPending_allActions s ha]
  cases hms : moveSet s.drawMachineState.2.snapshot <;> rfl

/-- The axes of that move, each with its encoder (42 R221). -/
theorem State.contrib_afterActions (s : State) :
    s.afterActions.contrib (moveSet s.drawMachineState.2.snapshot) = s.contributors.map s.afterActions.bound := by
  rw [State.contrib_eq, State.moveSet_moved]

/-- FEED of the contributors of a batch (42 R225). -/
theorem State.feed_eq {s : State} {c : List Nat} {f : U32} (h : s.IsSlowest c f) : s.feed (c.map s.bound) = f := by
  obtain ⟨h0, ⟨k, hk, hv⟩, hl⟩ := h
  unfold State.feed
  rw [List.map_map]
  refine slowestFeed_eq _ f h0 (List.mem_map.mpr ⟨k, hk, hv⟩) (fun v hv hv0 => ?_)
  obtain ⟨j, hj, rfl⟩ := List.mem_map.mp hv
  exact hl j hj hv0

end Sys2Proof.Machine
end

