-- ==== Sys2Proof/Tests/Slice0.lean ====
section
/-! SUPPORT. The package's own tests: expected values are those of 95_test_vectors (named in each comment), and for every
statement with hypotheses a concrete state that meets them. -/

open Sys2Proof Sys2Proof.Machine

namespace Sys2Proof.Tests

/-- The next state of an outcome, if there is one. -/
def nextOf (o : Host.Outcome State Fault Refusal) : Option State :=
  match o with
  | .next t => some t
  | .fault _ => none
  | .refused _ => none

/-- The fault of an outcome, if there is one. -/
def faultOf (o : Host.Outcome State Fault Refusal) : Option Fault :=
  match o with
  | .next _ => none
  | .fault f => some f
  | .refused _ => none

/-- The refusal of an outcome, if there is one. -/
def refusalOf (o : Host.Outcome State Fault Refusal) : Option Refusal :=
  match o with
  | .next _ => none
  | .fault _ => none
  | .refused r => some r

/-- `f` of the next state. -/
def afterwards {α : Type} (i : Instr) (s : State) (f : State → α) : Option α := (nextOf (exec i s)).map f

/-! ### Small states -/

/-- A transmit ring with its indices. -/
def withTx (h t : Nat) (m : Memory) : State := { State.reset with tx := ⟨m, h, t⟩, txie := !(h == t) }

/-- A receive ring with its indices. -/
def withRx (h t : Nat) (m : Memory) : State := { State.reset with rx := ⟨⟨m, h, t⟩, false, false⟩ }

/-- Encoder 0 in a mode at a position; encoder 0 is not universal. -/
def withEnc0 (m : Mode) (p : I32) : State :=
  { State.reset with universal := none, encs := State.reset.encs.modify 0 (fun x => { x with mode := m, position := p }) }

/-- Encoder 0 bound to axis 1 in mode MPG_1, encoder 1 in FeedRate. -/
def withMpg1 : State :=
  { State.reset with
    universal := none
    encs := [⟨.mpgAxis 1, some 1, 0, 0, ⟨false, false, false⟩⟩, ⟨.feedRate, none, 0, 0, ⟨false, false, false⟩⟩]
    axes := (State.reset.axes.modify 0 (fun x => { x with enc := none })).modify 1 (fun x => { x with enc := some 0 }) }

/-- One axis (0, encoder 1) flagged with an event set; the machine is Idle and the sink accepts. -/
def withAxis (ev : AxisEvents) (moving : Bool) (p : I32) (v : U32) : State :=
  { State.reset with
    pendingAxes := 1
    encs := State.reset.encs.modify 1 (fun x => { x with position := p, velocity := v })
    axes := State.reset.axes.modify 0
      (fun x => { x with event := ev, pos := 7, flags := { x.flags with moving := moving } })
    env := ⟨[], [.idle], [false], [11], [0xFFFFFFFF], [true], 0⟩ }

/-- An operation offered next by an agent. -/
def offered (a : Agent) (ws : List Word) (s : State) : State := s.offerWords a ws

/-! ### Well-formedness smoke: each check refuses an ill-formed term -/

theorem smoke_encoder_id_too_wide : (Instr.encEvent 256 1 0 0).WellFormed = false := by decide
theorem smoke_setting_id_too_wide_read : (Instr.settingRead 65536).WellFormed = false := by decide
theorem smoke_setting_id_too_wide_write : (Instr.settingWrite 65536 0).WellFormed = false := by decide
theorem smoke_params_ok : Config.resetParams.WellFormed = true := by decide
theorem smoke_tx_cap_not_a_power : ({ Config.resetParams with txCap := 6 } : Params).WellFormed = false := by decide
theorem smoke_rx_cap_too_small : ({ Config.resetParams with rxCap := 1 } : Params).WellFormed = false := by decide
theorem smoke_no_axis : ({ Config.resetParams with nAxis := 0 } : Params).WellFormed = false := by decide
theorem smoke_too_many_axes : ({ Config.resetParams with nAxis := 17 } : Params).WellFormed = false := by decide
theorem smoke_no_encoder : ({ Config.resetParams with nEnc := 0 } : Params).WellFormed = false := by decide
theorem smoke_too_many_encoders : ({ Config.resetParams with nEnc := 257 } : Params).WellFormed = false := by decide
theorem smoke_stride_too_small : ({ Config.resetParams with setStride := 3 } : Params).WellFormed = false := by decide
theorem smoke_setting_ids_too_high : ({ Config.resetParams with setBase := 65520 } : Params).WellFormed = false := by
  decide
theorem smoke_realtime_bytes_collide :
    ({ Config.resetParams with rtRapidLow := 0x90 } : Params).WellFormed = false := by decide

/-! ### Decoding: words written out from 30_encoding R101 to R107 (the hex of 95_test_vectors) -/

theorem test_decode_put_byte : decode [0x01000041] = .ok (.putByte 0x41) [] := by decide
theorem test_decode_get_byte : decode [0x02000000] = .ok .getByte [] := by decide
theorem test_decode_tx_count : decode [0x03000000] = .ok .txCount [] := by decide
theorem test_decode_rx_count : decode [0x04000000] = .ok .rxCount [] := by decide
theorem test_decode_rx_free : decode [0x05000000] = .ok .rxFree [] := by decide
theorem test_decode_rx_overflow : decode [0x06000000] = .ok .rxOverflow [] := by decide
theorem test_decode_resume_input : decode [0x07000000] = .ok .resumeInput [] := by decide
theorem test_decode_isr_rx : decode [0x10030041] = .ok (.isrRx 0x41 true true) [] := by decide
theorem test_decode_isr_rx_fe_only : decode [0x100200A3] = .ok (.isrRx 0xA3 false true) [] := by decide
theorem test_decode_isr_tx : decode [0x11000000] = .ok .isrTx [] := by decide
theorem test_decode_isr_rx_err : decode [0x12010000] = .ok (.isrRxErr true false) [] := by decide
theorem test_decode_chan_tx_done : decode [0x18000000] = .ok .chanTxDone [] := by decide
theorem test_decode_enc_event :
    decode [0x20010001, 0xFFFFFFCE, 0x000000C8, 0x30000000] = .ok (.encEvent 1 1 (-50) 200) [0x30000000] := by decide
theorem test_decode_execute_realtime : decode [0x30000000] = .ok .executeRealtime [] := by decide
theorem test_decode_setting_read : decode [0x40000190] = .ok (.settingRead 400) [] := by decide
theorem test_decode_setting_write : decode [0x41000193, 0x00000384] = .ok (.settingWrite 403 900) [] := by decide
theorem test_decode_settings_restore : decode [0x42000000] = .ok .settingsRestore [] := by decide
theorem test_decode_illegal_opcode : decode [0x08000000] = .illegal 0x08000000 := by decide
theorem test_decode_reserved_bit : decode [0x02000001] = .illegal 0x02000001 := by decide
theorem test_decode_truncated : decode [0x41000190] = .truncated 0x41000190 := by decide
theorem test_decode_empty : decode [] = .empty := by decide
theorem test_bytes_little_endian : bytesOfWord 0x20010001 = [0x01, 0x00, 0x01, 0x20] := by decide
theorem test_table_word : decodeTableWord 32 0x01000041 = some (.putByte 0x41) := by decide
theorem test_table_word_operands : decodeTableWord 96 0x000000C8FFFFFFCE20010001 = some (.encEvent 1 1 (-50) 200) := by
  decide
theorem test_table_word_short : decodeTableWord 32 0x41000190 = some (.settingWrite 400 0) := by decide

/-! ### One step each -/

/-- T1. -/
theorem test_put_byte_direct : afterwards (.putByte 0x41) State.reset (fun t => (t.out, t.hwTxEmpty, t.tx.head, t.res0)) =
    some ([.txByte 0x41], false, 0, 1) := by decide
/-- T13: slot 7, and the head wraps to 0. -/
theorem test_put_byte_wraps : afterwards (.putByte 0x44) { withTx 7 1 [] with putBlocked := true, heldByte := 0x44 }
    (fun t => (t.tx.mem.read 7, t.tx.head, t.tx.tail, t.txie, t.putBlocked, t.res0)) =
    some (some 0x44, 0, 1, true, false, 1) := by decide
/-- X3. -/
theorem test_get_byte : afterwards .getByte (withRx 1 0 [(0, 0x47)]) (fun t => (t.res0, t.rx.head, t.rx.tail)) =
    some (0x47, 1, 1) := by decide
/-- X1. -/
theorem test_get_byte_no_data : afterwards .getByte State.reset (fun t => (t.res0, t.res1)) =
    some (0xFFFFFFFF, 0) := by decide
/-- T7. -/
theorem test_tx_count_wraps : afterwards .txCount (withTx 1 6 []) (·.res0) = some 3 := by decide
/-- W1: `(2 - 3) mod 8 = 7`. -/
theorem test_rx_count_wraps : afterwards .rxCount (withRx 2 3 []) (·.res0) = some 7 := by decide
/-- X9. -/
theorem test_rx_free : afterwards .rxFree State.reset (·.res0) = some 7 := by decide
/-- X8. -/
theorem test_rx_overflow : afterwards .rxOverflow { State.reset with rx := ⟨⟨[], 7, 0⟩, true, false⟩ }
    (fun t => (t.res0, t.rx.overflow)) = some (1, true) := by decide
/-- H5. -/
theorem test_resume_input :
    afterwards .resumeInput { State.reset with rx := ⟨⟨[(3, 0x58)], 5, 3⟩, true, true⟩,
                                               bak := ⟨⟨[(0, 0x47)], 3, 0⟩, false, false⟩, reader := .null }
      (fun t => (t.res0, t.rx, t.reader)) = some (1, ⟨⟨[(0, 0x47)], 3, 0⟩, false, false⟩, .normal) := by decide
/-- H8: intercepted although full. -/
theorem test_isr_rx_intercepts :
    afterwards (.isrRx 0xA3 false false) { State.reset with rx := ⟨⟨[], 7, 0⟩, true, false⟩ }
      (fun t => (t.bak.overflow, t.rx.head, t.rx.tail, t.rx.overflow, t.reader)) =
    some (true, 7, 7, true, .null) := by decide
/-- X7: slot 7, and the head wraps to 0. -/
theorem test_isr_rx_wraps : afterwards (.isrRx 0x59 true true) (withRx 7 1 [])
    (fun t => (t.rx.mem.read 7, t.rx.head, t.rx.tail)) = some (some 0x59, 0, 1) := by decide
/-- T5. -/
theorem test_isr_tx : afterwards .isrTx (withTx 1 0 [(0, 0x42)])
    (fun t => (t.out, t.tx.head, t.tx.tail, t.hwTxEmpty, t.txie)) =
    some ([.txByte 0x42], 1, 1, false, false) := by decide
/-- X11. -/
theorem test_isr_rx_err : nextOf (exec (.isrRxErr true true) State.reset) = some State.reset := by decide
/-- T4. -/
theorem test_chan_tx_done : afterwards .chanTxDone { State.reset with hwTxEmpty := false } (·.hwTxEmpty) =
    some true := by decide
/-- E4: truncation toward zero on both sides of 0. -/
theorem test_enc_event_fine_steps : afterwards (.encEvent 0 1 (-4) 1) (withEnc0 .feedRate 4)
    (fun t => (t.out, (t.enc 0).position, (t.enc 0).velocity)) =
    some ([.rtCmd 0x94, .rtCmd 0x94], 0xFFFFFFFC, 1) := by decide
/-- M9: the cursor moves first, then the new axis is marked. -/
theorem test_enc_event_mpg_click_and_position : afterwards (.encEvent 1 3 12 3) State.reset
    (fun t => (t.out, t.pendingAxes, (t.enc 1).axis, (t.enc 1).position, (t.axis 1).event.posChanged)) =
    some ([.counterReset 1], 2, some 1, 12, true) := by decide
/-- W8, with one axis: the batched absolute move. -/
theorem test_execute_realtime_moves :
    afterwards .executeRealtime (withAxis ⟨true, false, false, false, false, false⟩ true 100 300)
      (fun t => (t.out, (t.axis 0).pos, (t.axis 0).position, t.pendingAxes, t.res0)) =
    some ([.motion (.move false [(0, 107)] 300) true], 107, 100, 0, 0) := by decide
/-- U2. -/
theorem test_execute_realtime_message :
    afterwards .executeRealtime { State.reset with modeMsgPending := true } (fun t => (t.out, t.modeMsgPending)) =
    some ([.statusMsg .feedRate], false) := by decide
/-- W10. -/
theorem test_setting_read : afterwards (.settingRead 403) State.reset (fun t => (t.res0, t.res1)) =
    some (0, 500) := by decide
/-- W10: 901 is invalid, and the prior value stays. -/
theorem test_setting_write_invalid : afterwards (.settingWrite 403 901) State.reset
    (fun t => (t.res0, (t.setting 0).dclick)) = some (1, 500) := by decide
/-- W10: 900 is valid. -/
theorem test_setting_write_valid : afterwards (.settingWrite 403 900) State.reset
    (fun t => (t.res0, (t.setting 0).dclick)) = some (0, 900) := by decide
/-- W10. -/
theorem test_settings_restore : afterwards .settingsRestore State.reset (fun t => (t.settings, t.res0)) =
    some ([⟨0, 400, 4, 500⟩, ⟨0, 400, 4, 500⟩], 0) := by decide

/-! ### Initialization -/

/-- State.reset is what initialization leaves for its parameters and settings (vector F17's modes). -/
theorem test_reset_is_boot : nextOf (State.boot Config.resetParams Config.resetSettings) = some State.reset := by decide
/-- 70 R301: the restored defaults with two encoders are refused. -/
theorem test_boot_refuses_restored_defaults :
    refusalOf (State.boot Config.resetParams [Config.restoredSettings, Config.restoredSettings]) =
      some .configRefused := by decide

/-! ### A step from reset with one operation placed -/

theorem test_with_fetch_word_isr_tx : (nextOf (step (State.reset.withFetchWord 32 0x11000000))).map (·.txie) =
    some false := by decide
theorem test_with_fetch_word_get_byte : (nextOf (step (State.reset.withFetchWord 32 0x02000000))).map (·.res0) =
    some 0xFFFFFFFF := by decide
theorem test_reset_offers_nothing : refusalOf (step State.reset) = some .nothingOffered := by decide

/-! ### Witnesses: for every statement with hypotheses, a state and operands that meet them together -/

theorem reset_buffers : State.reset.BuffersOk := by
  unfold State.BuffersOk Ring.Ok; decide

theorem withTx_buffers (h t : Nat) (hh : h < 8) (ht : t < 8) : (withTx h t []).BuffersOk :=
  ⟨reset_buffers.1, ⟨rfl, rfl, hh, ht⟩, reset_buffers.2.2⟩

theorem withRx_buffers (h t : Nat) (hh : h < 8) (ht : t < 8) : (withRx h t []).BuffersOk :=
  ⟨reset_buffers.1, reset_buffers.2.1, ⟨rfl, rfl, hh, ht⟩, reset_buffers.2.2.2⟩

theorem reset_arrays : State.reset.ArraysOk := by
  unfold State.ArraysOk; decide

theorem withEnc0_arrays (m : Mode) (p : I32) : (withEnc0 m p).ArraysOk :=
  ⟨rfl, rfl, rfl⟩

/-- Every operand at its largest. -/
theorem witness_DecodeOfEncodeIsTheInstruction :
    (Instr.encEvent 255 7 0xFFFFFFFF 0xFFFFFFFF).WellFormed = true ∧ (Instr.settingRead 65535).WellFormed = true ∧
    (Instr.settingWrite 65535 0xFFFFFFFF).WellFormed = true := by decide

theorem witness_DecodedWordsAreTheEncoding :
    decode [0x20FF0007, 1, 2, 3] = .ok (.encEvent 255 7 1 2) [3] := by decide

theorem witness_StepRunsTheOfferedOperation :
    let s := offered .main [0x02000000] State.reset
    s.fault = none ∧ s.refused = false ∧ s.sched = [.main] ∧ decode (s.streams.ofAgent .main) = .ok .getByte [] ∧
    Instr.getByte.agent = .main ∧ s.putBlocked = false ∧ s.enabled .getByte = true := by decide

/-- The held PUT_BYTE is a next operation of a blocked MAIN. -/
theorem witness_StepRunsTheOfferedOperation_held :
    let s := offered .main [0x01000044] { State.reset with putBlocked := true, heldByte := 0x44 }
    s.fault = none ∧ s.refused = false ∧ s.sched = [.main] ∧
    decode (s.streams.ofAgent .main) = .ok (.putByte 0x44) [] ∧ s.putBlocked = true ∧ s.heldByte = 0x44 ∧
    s.enabled (.putByte 0x44) = true := by decide

theorem witness_OffersAreJudgedInOrder_illegal :
    let s := offered .eisr [0x08000000] State.reset
    s.fault = none ∧ s.refused = false ∧ s.sched = [.eisr] ∧
    decode (s.streams.ofAgent .eisr) = .illegal 0x08000000 := by decide

theorem witness_OffersAreJudgedInOrder_truncated :
    let s := offered .eisr [0x20000001, 5] State.reset
    s.sched = [.eisr] ∧ decode (s.streams.ofAgent .eisr) = .truncated 0x20000001 := by decide

theorem witness_OffersAreJudgedInOrder_wrong_agent :
    let s := offered .sisr [0x02000000] State.reset
    s.sched = [.sisr] ∧ decode (s.streams.ofAgent .sisr) = .ok .getByte [] ∧ Instr.getByte.agent ≠ .sisr := by decide

/-- T11. -/
theorem witness_OffersAreJudgedInOrder_blocked :
    let s := offered .main [0x01000045] { State.reset with putBlocked := true, heldByte := 0x44 }
    s.sched = [.main] ∧ decode (s.streams.ofAgent .main) = .ok (.putByte 0x45) [] ∧
    (Instr.putByte 0x45).agent = .main ∧ s.putBlocked = true ∧ Instr.putByte 0x45 ≠ .putByte s.heldByte := by decide

theorem witness_TransmitStepsOnlyWhileEnabled :
    let s := offered .sisr [0x11000000] State.reset
    let t := offered .chan [0x18000000] State.reset
    s.fault = none ∧ s.refused = false ∧ s.sched = [.sisr] ∧ decode s.streams.sisr = .ok .isrTx [] ∧
    t.fault = none ∧ t.refused = false ∧ t.sched = [.chan] ∧ decode t.streams.chan = .ok .chanTxDone [] := by decide

theorem witness_StopsKeepNoWriteAndStick :
    faultOf (step (offered .main [0] State.reset)) = some (.illegalOperation 0) ∧
    refusalOf (step (offered .sisr [0x02000000] State.reset)) = some .wrongAgent := by decide

/-- E18, E6 and E7: each fault ENC_EVENT gives. -/
theorem witness_OnlyTwoOperationsFault_encoder :
    faultOf (exec (.encEvent 2 1 1 1) State.reset) = some (.badOperand 2) ∧
    faultOf (exec (.encEvent 0 1 1 1) { withEnc0 .feedRate 0 with settings := [⟨1, 0, 4, 500⟩, ⟨4, 400, 4, 500⟩] }) =
      some (.divideByZero 0) ∧
    faultOf (exec (.encEvent 0 1 21474837 1) (withEnc0 .feedRate 0)) = some (.arithOverflow 0) := by decide

/-- The largest encoder position against the least last-consumed one. -/
def overflowing : State :=
  { withAxis ⟨true, false, false, false, false, false⟩ true 0x7FFFFFFF 300 with
    axes := (withAxis ⟨true, false, false, false, false, false⟩ true 0 0).axes.modify 0
      (fun x => { x with position := 0xFFFFFFFF }) }

theorem witness_OnlyTwoOperationsFault_tick : faultOf (exec .executeRealtime overflowing) = some (.arithOverflow 0) := by
  decide

/-- The state after reset with a GET_BYTE offered meets the invariant, and its step has a next state. -/
theorem offered_inv : (offered .main [0x02000000] State.reset).Inv where
  buffers := reset_buffers
  transmit := by unfold State.TransmitOk; decide
  reader := by unfold State.ReaderOk; decide
  arrays := reset_arrays
  encoders := by
    refine ⟨fun e he => ?_, fun u hu => ?_, by decide⟩
    · have : e = 0 ∨ e = 1 := by have : e < 2 := he; omega
      rcases this with rfl | rfl
      · exact ⟨rfl, rfl⟩
      · exact ⟨rfl, 0, by decide, rfl⟩
    · cases hu; decide
  binding := by
    have hpast : ∀ e, 2 ≤ e → ¬ e < (offered .main [0x02000000] State.reset).cfg.nEnc := fun e he => Nat.not_lt.mpr he
    refine ⟨fun k e hk => ?_, fun e e' he he' hm hm' => ?_⟩
    · have hk' : k = 0 ∨ k = 1 ∨ k = 2 := by have : k < 3 := hk; omega
      by_cases he : 2 ≤ e
      · have hne : ∀ j, j < 3 → ((offered .main [0x02000000] State.reset).axis j).enc ≠ some e := by
          intro j hj
          have : j = 0 ∨ j = 1 ∨ j = 2 := by omega
          rcases this with rfl | rfl | rfl
          · intro h; cases h; omega
          · intro h; cases h
          · intro h; cases h
        exact ⟨fun h => absurd h (hne k hk), fun h => absurd h.1 (hpast e he)⟩
      · have he' : e = 0 ∨ e = 1 := by omega
        rcases hk' with rfl | rfl | rfl <;> rcases he' with rfl | rfl <;> decide
    · have h1 : e = 0 ∨ e = 1 := by have : e < 2 := he; omega
      have h2 : e' = 0 ∨ e' = 1 := by have : e' < 2 := he'; omega
      rcases h1 with rfl | rfl
      · exact absurd hm (by decide)
      · rcases h2 with rfl | rfl
        · exact absurd hm' (by decide)
        · rfl
  pending := by
    refine ⟨fun k _ => by simp [offered, State.offerWords, State.reset], fun k hk _ => ?_, fun k hk => ?_⟩
    · have : k = 0 ∨ k = 1 ∨ k = 2 := by have : k < 3 := hk; omega
      rcases this with rfl | rfl | rfl <;> decide
    · have : k = 0 ∨ k = 1 ∨ k = 2 := by have : k < 3 := hk; omega
      rcases this with rfl | rfl | rfl <;> decide
  settings := by
    intro e he
    have : e = 0 ∨ e = 1 := by have : e < 2 := he; omega
    rcases this with rfl | rfl <;> decide
  guard := rfl

/-- StepKeepsTheInvariant. -/
theorem witness_StepKeepsTheInvariant :
    ∃ s t : State, s.Inv ∧ step s = .next t := ⟨_, _, offered_inv, rfl⟩

/-- BootMeetsTheInvariant, BootLeavesTheResetValues and BootBindsEncodersAndAxes. -/
theorem witness_Boot :
    ∃ t, Config.resetParams.WellFormed = true ∧ Config.resetSettings.length = Config.resetParams.nEnc ∧
      State.boot Config.resetParams Config.resetSettings = .next t := ⟨_, by decide, by decide, rfl⟩

/-- A store of two encoders from its mode values. -/
def storeOf (a b : U32) : List Settings := [⟨a, 400, 4, 500⟩, ⟨b, 400, 4, 500⟩]

/-- Each broken configuration, at a boundary value, and the accepted one beside it (modes run to 4 + 3). -/
theorem witness_BootRefusesBrokenBindings :
    refusalOf (State.boot Config.resetParams (storeOf 8 1)) = some .configRefused ∧
    refusalOf (State.boot Config.resetParams (storeOf 0 0)) = some .configRefused ∧
    refusalOf (State.boot Config.resetParams (storeOf 5 5)) = some .configRefused ∧
    refusalOf (State.boot Config.resetParams (storeOf 4 4)) = some .configRefused ∧
    refusalOf (State.boot Config.resetParams (storeOf 4 7)) = some .configRefused ∧
    refusalOf (State.boot Config.resetParams (storeOf 7 6)) = none := by decide

/-- Each row of the initialization table. -/
theorem witness_BootBindsEncodersAndAxes :
    (nextOf (State.boot Config.resetParams (storeOf 0 7))).map (fun t => (t.universal, (t.enc 1).mode, (t.axis 2).enc)) =
      some (some 0, .mpgAxis 2, some 1) ∧
    (nextOf (State.boot Config.resetParams (storeOf 2 3))).map (fun t => (t.universal, (t.enc 0).mode, (t.enc 1).mode)) =
      some (none, .rapidRate, .spindleRPM) ∧
    (nextOf (State.boot Config.resetParams (storeOf 1 4))).map (fun t => ((t.enc 0).mode, (t.enc 1).axis, (t.axis 0).enc)) =
      some (.feedRate, some 0, some 1) := by decide

/-- StepExtendsHistoryOnly, BindingsAreFixedForTheSession (encoder 1 is not universal, encoder 0 not in mode MPG). -/
theorem witness_BindingsAreFixedForTheSession :
    ∃ t, step (offered .main [0x02000000] State.reset) = .next t ∧
      (offered .main [0x02000000] State.reset).universal ≠ some 1 ∧
      ((offered .main [0x02000000] State.reset).enc 0).mode ≠ .mpg := ⟨_, rfl, by decide, by decide⟩

/-- InterruptStepsLeaveResultsAndNeverHold, CountsGoStaleInOneDirection, IndexOwnership (an operation outside MAIN). -/
theorem witness_interrupt_step :
    ∃ t, State.reset.BuffersOk ∧ (Instr.isrRx 0x47 false false).agent ≠ .main ∧
      (∀ ovr fe, Instr.isrRx 0x47 false false ≠ .isrRx State.reset.cfg.toolAck ovr fe) ∧
      exec (.isrRx 0x47 false false) State.reset = .next t :=
  ⟨_, reset_buffers, by decide, by decide, rfl⟩

/-- IndexOwnership: an operation outside SISR that is no resume. -/
theorem witness_IndexOwnership_main :
    ∃ t, Instr.getByte.agent ≠ .sisr ∧ Instr.getByte ≠ .resumeInput ∧ exec .getByte State.reset = .next t :=
  ⟨_, by decide, by decide, rfl⟩

/-- CountsGoStaleInOneDirection: the flag is already set. -/
theorem witness_CountsGoStaleInOneDirection_overflow :
    ∃ s t : State, s.BuffersOk ∧ s.rx.overflow = true ∧ Instr.isrTx.agent ≠ .main ∧ exec .isrTx s = .next t :=
  ⟨{ State.reset with rx := ⟨⟨[], 7, 0⟩, true, false⟩ }, _,
    ⟨reset_buffers.1, reset_buffers.2.1, ⟨rfl, rfl, by decide, by decide⟩, reset_buffers.2.2.2⟩, rfl, by decide, rfl⟩

theorem witness_PutByteDirectPath :
    State.reset.putBlocked = false ∧ State.reset.tx.head = State.reset.tx.tail ∧ State.reset.txie = false ∧
    State.reset.hwTxEmpty = true := by decide

/-- The head at the last slot wraps to 0, and the buffer is not full. -/
theorem witness_PutByteEnqueue :
    (withTx 7 1 []).BuffersOk ∧ (withTx 7 1 []).tx.head ≠ (withTx 7 1 []).tx.tail ∧
    ((withTx 7 1 []).tx.head + 1) % (withTx 7 1 []).cfg.txCap ≠ (withTx 7 1 []).tx.tail :=
  ⟨withTx_buffers 7 1 (by decide) (by decide), by decide, by decide⟩

/-- Full at the wrap-around; both answers. -/
theorem witness_PutByteWaitsWhileFull :
    (withTx 7 0 []).BuffersOk ∧ (withTx 7 0 []).tx.head ≠ (withTx 7 0 []).tx.tail ∧
    ((withTx 7 0 []).tx.head + 1) % (withTx 7 0 []).cfg.txCap = (withTx 7 0 []).tx.tail ∧
    ({ withTx 7 0 [] with env := ⟨[true], [], [], [], [], [], 0⟩ } : State).drawWait.1 = true ∧
    ({ withTx 7 0 [] with env := ⟨[false], [], [], [], [], [], 0⟩ } : State).drawWait.1 = false :=
  ⟨withTx_buffers 7 0 (by decide) (by decide), by decide, by decide, by decide, by decide⟩

/-- IsrTxSendsOneByteAndChannelFinishes: a queued byte at the last slot, the last one; and an empty buffer. -/
theorem witness_IsrTxSendsOneByteAndChannelFinishes :
    (withTx 0 7 []).BuffersOk ∧ (withTx 0 7 []).tx.head ≠ (withTx 0 7 []).tx.tail ∧
    ((withTx 0 7 []).tx.tail + 1) % (withTx 0 7 []).cfg.txCap = (withTx 0 7 []).tx.head ∧
    State.reset.BuffersOk ∧ State.reset.tx.head = State.reset.tx.tail :=
  ⟨withTx_buffers 0 7 (by decide) (by decide), by decide, by decide, reset_buffers, by decide⟩

theorem witness_TransmitInterruptFollowsTheBuffer :
    ∃ s t : State, s.TransmitOk ∧ step s = .next t :=
  ⟨offered .sisr [0x11000000] (withTx 0 7 [(7, 0x42)]), _, by unfold State.TransmitOk; decide, rfl⟩

/-- Two bytes: the first goes out directly, the second is queued. -/
theorem witness_BytesLeaveInSubmissionOrder :
    ∃ bs t, State.reset.BuffersOk ∧ State.reset.out = [] ∧ State.reset.tx.head = State.reset.tx.tail ∧
      runAccepting [.putByte 0x41, .putByte 0x42] State.reset = some (bs, t) ∧ bs = [0x41, 0x42] :=
  ⟨_, _, reset_buffers, by decide, by decide, rfl, by decide⟩

/-- Both clauses; the tail at the last slot wraps to 0. -/
theorem witness_GetByteReadsTheOldest :
    State.reset.BuffersOk ∧ State.reset.rx.head = State.reset.rx.tail ∧
    ({ State.reset with reader := .null } : State).reader = .null ∧
    (withRx 0 7 []).BuffersOk ∧ (withRx 0 7 []).reader = .normal ∧ (withRx 0 7 []).rx.head ≠ (withRx 0 7 []).rx.tail :=
  ⟨reset_buffers, by decide, by decide, withRx_buffers 0 7 (by decide) (by decide), by decide, by decide⟩

/-- CountsAndFlagAreReported and FreeSpaceMatchesFullAndEmpty: a full buffer across the wrap, and an empty one. -/
theorem witness_counts :
    (withRx 2 3 []).BuffersOk ∧ ((withRx 2 3 []).rx.head + 1) % (withRx 2 3 []).cfg.rxCap = (withRx 2 3 []).rx.tail ∧
    State.reset.BuffersOk ∧ State.reset.rx.head = State.reset.rx.tail :=
  ⟨withRx_buffers 2 3 (by decide) (by decide), by decide, reset_buffers, by decide⟩

theorem witness_ToolAcknowledgeIntercepts : (withRx 3 0 []).rx.backup = false := by decide

/-- Each clause: a real-time byte, a full buffer, a buffer with room at the wrap, and a second acknowledge. -/
theorem witness_ReceivedByteIsDispatchedQueuedOrDropped :
    (withRx 7 1 []).BuffersOk ∧ (0x3F : Byte) ≠ (withRx 7 1 []).cfg.toolAck ∧
    (withRx 7 1 []).cfg.rtClass.getLsbD (0x3F : Byte).toNat = true ∧
    (withRx 7 1 []).cfg.rtClass.getLsbD (0x58 : Byte).toNat = false ∧
    ((withRx 7 1 []).rx.head + 1) % (withRx 7 1 []).cfg.rxCap ≠ (withRx 7 1 []).rx.tail ∧
    ((withRx 7 0 []).rx.head + 1) % (withRx 7 0 []).cfg.rxCap = (withRx 7 0 []).rx.tail ∧
    ({ State.reset with rx := ⟨⟨[], 5, 3⟩, false, true⟩ } : State).rx.backup = true ∧
    State.reset.cfg.rtClass.getLsbD State.reset.cfg.toolAck.toNat = false :=
  ⟨withRx_buffers 7 1 (by decide) (by decide), by decide, by decide, by decide, by decide, by decide, by decide,
    by decide⟩

theorem witness_ResumeRestoresTheSnapshot :
    State.reset.rx.backup = false ∧ ({ State.reset with rx := ⟨⟨[], 5, 3⟩, false, true⟩ } : State).rx.backup = true := by
  decide

/-- Both clauses, with the indices at the wrap. -/
theorem witness_ReceiveQueueIsFirstInFirstOut :
    (withRx 7 1 []).BuffersOk ∧ (0x58 : Byte) ≠ (withRx 7 1 []).cfg.toolAck ∧
    (withRx 7 1 []).cfg.rtClass.getLsbD (0x58 : Byte).toNat = false ∧
    ((withRx 7 1 []).rx.head + 1) % (withRx 7 1 []).cfg.rxCap ≠ (withRx 7 1 []).rx.tail ∧
    (nextOf (exec (.isrRx 0x58 false false) (withRx 7 1 []))).isSome = true ∧
    (withRx 0 7 [(7, 0x59)]).reader = .normal ∧ (withRx 0 7 [(7, 0x59)]).rxQueue = [0x59] :=
  ⟨withRx_buffers 7 1 (by decide) (by decide), by decide, by decide, by decide, by decide, by decide, by decide⟩

/-- As many bytes as the buffer holds, from indices at the wrap. -/
theorem witness_ReceivedBytesAreReadBackInOrder :
    (withRx 6 6 []).BuffersOk ∧ (withRx 6 6 []).reader = .normal ∧ (withRx 6 6 []).rx.head = (withRx 6 6 []).rx.tail ∧
    [0x47, 0x30, 0x31, 0x47, 0x30, 0x31, 0x0A].length ≤ (withRx 6 6 []).cfg.rxCap - 1 ∧
    (∀ b : Byte, b ∈ ([0x47, 0x30, 0x31, 0x47, 0x30, 0x31, 0x0A] : List Byte) →
      (withRx 6 6 []).cfg.rtClass.getLsbD b.toNat = false ∧
      (b ≠ (withRx 6 6 []).cfg.toolAck ∨ (withRx 6 6 []).rx.backup = true)) :=
  ⟨withRx_buffers 6 6 (by decide) (by decide), by decide, by decide, by decide, by decide⟩

theorem witness_ResumeBringsBackThePreHandshakeBuffer :
    ∃ t u, (withRx 3 0 [(0, 0x47)]).rx.backup = false ∧
      exec (.isrRx (withRx 3 0 [(0, 0x47)]).cfg.toolAck true false) (withRx 3 0 [(0, 0x47)]) = .next t ∧
      (∀ i, i ∈ [Instr.isrRx 0x58 false false, .getByte] → i ≠ .resumeInput) ∧
      runOps [.isrRx 0x58 false false, .getByte] t = some u :=
  ⟨_, _, by decide, rfl, by decide, rfl⟩

theorem witness_UnknownEncoderFaultsAndEmptyEventIsNothing :
    State.reset.cfg.nEnc ≤ 2 ∧ 1 < State.reset.cfg.nEnc := by decide

theorem witness_UniversalClickCyclesFirst :
    0 < State.reset.cfg.nEnc ∧ State.reset.ArraysOk ∧ (0b110 : BitVec 3).getLsbD 1 = true ∧
    State.reset.universal = some 0 ∧ isOverride (State.reset.enc 0).mode = true ∧
    (State.reset.enc 0).event = ⟨false, false, false⟩ :=
  ⟨by decide, reset_arrays, by decide, by decide, by decide, by decide⟩

/-- The cursor at axis 0 of three, and at axis 0 of one (it stays). -/
theorem witness_MpgClickMovesTheCursorFirst :
    1 < State.reset.cfg.nEnc ∧ State.reset.ArraysOk ∧ 0 < State.reset.cfg.nAxis ∧
    (0b011 : BitVec 3).getLsbD 1 = true ∧ State.reset.universal ≠ some 1 ∧ (State.reset.enc 1).mode = .mpg ∧
    (State.reset.enc 1).axis = some 0 ∧ (State.reset.enc 1).event = ⟨false, false, false⟩ :=
  ⟨by decide, reset_arrays, by decide, by decide, by decide, by decide, by decide, by decide⟩

/-- The largest position whose product fits, in both modes. -/
theorem witness_FineStepsOneCommandAUnit :
    0 < (withEnc0 .feedRate (-21474836)).cfg.nEnc ∧ (withEnc0 .feedRate (-21474836)).ArraysOk ∧
    (0b011 : BitVec 3).getLsbD 0 = true ∧ (withEnc0 .feedRate (-21474836)).universal ≠ some 0 ∧
    ((withEnc0 .feedRate (-21474836)).enc 0).mode = .feedRate ∧ ((withEnc0 .spindleRPM 0).enc 0).mode = .spindleRPM ∧
    ((withEnc0 .feedRate (-21474836)).setting 0).cpr ≠ 0 ∧
    InInt32 (((withEnc0 .feedRate (-21474836)).enc 0).position.toInt * 100) ∧
    InInt32 ((21474836 : I32).toInt * 100) :=
  ⟨by decide, withEnc0_arrays _ _, by decide, by decide, by decide, by decide, by decide,
    by unfold InInt32; decide, by unfold InInt32; decide⟩

/-- `cpr = 0`; the least position whose product does not fit, old and new. -/
theorem witness_NormalizedCountFaults :
    ({ withEnc0 .feedRate 0 with settings := [⟨1, 0, 4, 500⟩, ⟨4, 400, 4, 500⟩] } : State).ArraysOk ∧
    (({ withEnc0 .feedRate 0 with settings := [⟨1, 0, 4, 500⟩, ⟨4, 400, 4, 500⟩] } : State).setting 0).cpr = 0 ∧
    ((withEnc0 .feedRate 21474837).setting 0).cpr ≠ 0 ∧
    ¬ InInt32 (((withEnc0 .feedRate 21474837).enc 0).position.toInt * 100) ∧
    ¬ InInt32 ((-21474837 : I32).toInt * 100) :=
  ⟨⟨rfl, rfl, rfl⟩, by decide, by decide, by unfold InInt32; decide, by unfold InInt32; decide⟩

/-- A delta of 3 below the counts-per-detent of 4, one of 4 at it, and each level. -/
theorem witness_RapidRatchetMovesOneLevel :
    (withEnc0 .rapidRate 0).ArraysOk ∧ ((withEnc0 .rapidRate 0).enc 0).mode = .rapidRate ∧
    ((3 : I32).toInt - ((withEnc0 .rapidRate 0).enc 0).position.toInt).natAbs <
      ((withEnc0 .rapidRate 0).setting 0).cpd.toNat ∧
    ((withEnc0 .rapidRate 0).setting 0).cpd.toNat ≤
      ((-4 : I32).toInt - ((withEnc0 .rapidRate 0).enc 0).position.toInt).natAbs ∧
    (-4 : I32).toInt - ((withEnc0 .rapidRate 0).enc 0).position.toInt < 0 ∧
    (withEnc0 .rapidRate 0).rapidLevel = .default ∧
    ({ withEnc0 .rapidRate 0 with rapidLevel := .medium } : State).rapidLevel = .medium ∧
    ({ withEnc0 .rapidRate 0 with rapidLevel := .low } : State).rapidLevel = .low :=
  ⟨withEnc0_arrays _ _, by decide, by decide, by decide, by decide, by decide, by decide, by decide⟩

theorem witness_MpgPositionMarksTheAxis :
    0 < withMpg1.cfg.nEnc ∧ withMpg1.ArraysOk ∧ withMpg1.guard = false ∧ 1 < withMpg1.cfg.nAxis ∧
    (0b011 : BitVec 3).getLsbD 0 = true ∧ withMpg1.universal ≠ some 0 ∧ (withMpg1.enc 0).mode = .mpgAxis 1 ∧
    (withMpg1.enc 0).axis = some 1 ∧ (State.reset.enc 1).mode = .mpg ∧ (State.reset.enc 1).axis = some 0 ∧
    (0b101 : BitVec 3).getLsbD 1 = false :=
  ⟨by decide, ⟨rfl, rfl, rfl⟩, by decide, by decide, by decide, by decide, by decide, by decide, by decide, by decide,
    by decide⟩

theorem witness_OverrideResetOnNonMovement :
    0 < (withEnc0 .feedRate 77).cfg.nEnc ∧ (withEnc0 .feedRate 77).ArraysOk ∧ (0b110 : BitVec 3).getLsbD 0 = false ∧
    (0b110 : BitVec 3).getLsbD 1 = true ∧ (withEnc0 .feedRate 77).universal ≠ some 0 ∧
    ((withEnc0 .feedRate 77).enc 0).mode = .feedRate ∧ ((withEnc0 .spindleRPM 77).enc 0).mode = .spindleRPM ∧
    ((withEnc0 .rapidRate 77).enc 0).mode = .rapidRate :=
  ⟨by decide, withEnc0_arrays _ _, by decide, by decide, by decide, by decide, by decide, by decide⟩

theorem witness_MpgClicksSetScaleAndZero :
    0 < withMpg1.cfg.nEnc ∧ withMpg1.ArraysOk ∧ withMpg1.guard = false ∧ 1 < withMpg1.cfg.nAxis ∧
    (0b110 : BitVec 3).getLsbD 0 = false ∧ (0b110 : BitVec 3).getLsbD 1 = true ∧ (0b110 : BitVec 3).getLsbD 2 = true ∧
    withMpg1.universal ≠ some 0 ∧ (withMpg1.enc 0).mode = .mpgAxis 1 ∧ (withMpg1.enc 0).axis = some 1 :=
  ⟨by decide, ⟨rfl, rfl, rfl⟩, by decide, by decide, by decide, by decide, by decide, by decide, by decide, by decide⟩

theorem witness_EncoderEventFrame : ∃ t, exec (.encEvent 1 3 12 3) State.reset = .next t := ⟨_, rfl⟩

theorem witness_ModeMessageIsEmittedOnce :
    ({ State.reset with modeMsgPending := true } : State).modeMsgPending = true ∧
    ({ State.reset with modeMsgPending := true } : State).universal = some 0 := by decide

theorem witness_IdleTickAndClosedGateKeepEvents :
    State.reset.modeMsgPending = false ∧ State.reset.pendingAxes = 0 ∧
    ({ State.reset with pendingAxes := 1, env := ⟨[], [.other], [], [], [], [], 0⟩ } : State).pendingAxes ≠ 0 ∧
    ({ State.reset with pendingAxes := 1, env := ⟨[], [.other], [], [], [], [], 0⟩ } : State).drawMachineState.1 =
      .other := by decide

/-- Three axes flagged at once, with the encoder of axis 0 at 12 and 5 consumed. Axis 0 moves and has scale, stop and a
position change; axis 1 is at rest, bound to encoder 0, and has zero and a position change; axis 2 is unbound and has
zero. The sink accepts. -/
def busy : State :=
  { State.reset with
    pendingAxes := 7
    encs := (State.reset.encs.modify 0 (fun x => { x with position := 4 })).modify 1
      (fun x => { x with position := 12 })
    axes :=
      [{ State.reset.axis 0 with
         position := 5, pos := 7, event := ⟨true, false, false, false, true, true⟩,
         flags := ⟨true, false, false, false⟩ },
       { State.reset.axis 1 with enc := some 0, position := 3, event := ⟨true, true, false, false, false, false⟩ },
       { State.reset.axis 2 with position := 9, event := ⟨false, true, false, false, false, false⟩ }]
    env := ⟨[], [.idle], [false], [40, 50], [1000, 0xFFFFFFFF], [true, true, true], 0⟩ }

theorem busy_range : ∀ k, k ∈ [0] →
    busy.afterActions.MoveInRange k ∧ (busy.afterActions.boundEncoder k).velocity = 0 := by
  unfold State.MoveInRange InInt32; decide

/-- Every action, over three axes; the one contributing axis is axis 0, restarted in this tick at velocity 0. -/
theorem witness_AxisZeroScaleAndStop :
    busy.modeMsgPending = false ∧ busy.ArraysOk ∧ busy.pendingAxes ≠ 0 ∧ busy.gateWillOpen ∧
    busy.contributors = [0] ∧
    (∀ k, k ∈ [0] → busy.afterActions.MoveInRange k ∧ (busy.afterActions.boundEncoder k).velocity = 0) :=
  ⟨by decide, ⟨rfl, rfl, rfl⟩, by decide, .inl (by decide), by decide, busy_range⟩

/-- What 42 R214 to R219 make of `busy`: the events in order, axis 0 cancelled and restarted, the zeroings. -/
theorem test_actions_of_three_axes :
    busy.afterActions.out =
      [.rtCmd State.reset.cfg.rtJogCancel, .motion (.zeroAxis 1) true, .counterReset 0, .motion (.zeroAxis 2) true] ∧
    busy.afterActions.axis 0 =
      ⟨some 1, 5, 40, .x10, ⟨false, false, false, false, false, false⟩, ⟨true, false, false, false⟩, 1050⟩ ∧
    busy.afterActions.axis 1 =
      ⟨some 0, 0, 50, .x1, ⟨false, false, false, false, false, false⟩, ⟨true, false, false, false⟩, 49⟩ ∧
    (busy.afterActions.axis 2).position = 0 ∧ (busy.afterActions.enc 0).position = 0 := by decide

/-- The axis is not moving and its encoder has not moved; the deadline wraps. -/
theorem witness_AxisStartCapturesTheOrigin :
    let s := withAxis ⟨true, false, false, false, false, false⟩ false 0 5
    s.modeMsgPending = false ∧ s.ArraysOk ∧ s.guard = false ∧ s.gateWillOpen ∧
    s.OnlyAxis 0 ⟨true, false, false, false, false, false⟩ ∧ (s.axis 0).flags.moving = false ∧
    (∀ e, (s.axis 0).enc = some e → (s.enc e).position = (s.axis 0).position) ∧
    (11 : I32) = (s.drawMachineState.2.drawMachinePos 0).1 ∧
    (0xFFFFFFFF : U32) = (s.drawMachineState.2.drawMachinePos 0).2.drawNowMs.1 :=
  ⟨by decide, ⟨rfl, rfl, rfl⟩, by decide, .inl (by decide), ⟨by decide, by decide, by decide, by decide⟩, by decide,
    fun e he => by cases he; decide, by decide, by decide⟩

/-- A state in which axis 0 moves. -/
def moving : State := withAxis ⟨true, false, false, false, false, false⟩ true 100 300

/-- Two axes that moved: axis 0 is at rest when the tick begins, as in W8 and in step 5 of P5; axis 1 moves already. -/
def jogged : State :=
  { State.reset with
    pendingAxes := 3
    encs := (State.reset.encs.modify 0 (fun x => { x with position := -4, velocity := 200 })).modify 1
      (fun x => { x with position := 12, velocity := 300 })
    axes :=
      [{ State.reset.axis 0 with position := 5, event := ⟨true, false, false, false, true, false⟩ },
       { State.reset.axis 1 with
         enc := some 0, pos := 7, event := ⟨true, false, false, false, false, false⟩,
         flags := ⟨true, false, false, false⟩ },
       State.reset.axis 2]
    env := ⟨[], [.idle], [false], [40], [1000], [true], 0⟩ }

theorem jogged_range : ∀ k, k ∈ [0, 1] → jogged.afterActions.MoveInRange k ∧
    InInt32 ((jogged.afterActions.axis k).pos.toInt + jogged.afterActions.displacement k) := by
  unfold State.MoveInRange InInt32; decide

theorem jogged_slowest : jogged.afterActions.IsSlowest [0, 1] 200 := by
  unfold State.IsSlowest; decide

/-- The targets that 42 R226 gives: the origin plus `7 * 10` for the axis that starts, `7 - 4` for the other. -/
theorem test_targets_from_rest : jogged.afterActions.targets [0, 1] = [(0, 110), (1, 3)] := by decide

/-- An axis at rest and a moving one, with the relative-jog strategy. -/
theorem witness_RelativeJogBatchesMovingAxes :
    let s : State := { jogged with cfg := { jogged.cfg with moveStrategy := .relativeJog } }
    s.cfg.moveStrategy = .relativeJog ∧ s.modeMsgPending = false ∧ s.ArraysOk ∧ s.pendingAxes ≠ 0 ∧ s.gateWillOpen ∧
    s.contributors = [0, 1] ∧ (∀ k, k ∈ [0, 1] → s.afterActions.MoveInRange k) ∧
    s.afterActions.IsSlowest [0, 1] 200 :=
  ⟨by decide, by decide, ⟨rfl, rfl, rfl⟩, by decide, .inl (by decide), by decide,
    by unfold State.MoveInRange InInt32; decide, by unfold State.IsSlowest; decide⟩

/-- The same two axes with the absolute-move strategy, in each motion mode. -/
theorem witness_AbsoluteMoveBatchesMovingAxes :
    jogged.cfg.moveStrategy = .absoluteMove ∧ jogged.modeMsgPending = false ∧ jogged.ArraysOk ∧
    jogged.pendingAxes ≠ 0 ∧ jogged.gateWillOpen ∧ jogged.contributors = [0, 1] ∧
    false = jogged.afterActions.drawRelative.1 ∧
    (∀ k, k ∈ [0, 1] → jogged.afterActions.MoveInRange k ∧
      (false = false → InInt32 ((jogged.afterActions.axis k).pos.toInt + jogged.afterActions.displacement k))) ∧
    jogged.afterActions.IsSlowest [0, 1] 200 ∧
    true = ({ jogged with env := ⟨[], [.idle], [true], [40], [1000], [true], 0⟩ } : State).afterActions.drawRelative.1 :=
  ⟨by decide, by decide, ⟨rfl, rfl, rfl⟩, by decide, .inl (by decide), by decide, by decide,
    fun k hk => ⟨(jogged_range k hk).1, fun _ => (jogged_range k hk).2⟩, jogged_slowest, by decide⟩

theorem witness_ZeroFeedSendsNothing :
    let s := withAxis ⟨true, false, false, false, false, false⟩ true 100 0
    s.modeMsgPending = false ∧ s.ArraysOk ∧ s.pendingAxes ≠ 0 ∧ s.gateWillOpen ∧ s.OnlyMovement ∧ s.movingAxes = [0] ∧
    (∀ k, k ∈ s.movingAxes → InInt32 ((s.boundEncoder k).position.toInt - (s.axis k).position.toInt) ∧
      InInt32 (s.displacement k) ∧ (s.boundEncoder k).velocity = 0) :=
  ⟨by decide, ⟨rfl, rfl, rfl⟩, by decide, .inl (by decide), by unfold State.OnlyMovement; decide, by decide,
    by unfold InInt32; decide⟩

/-- Axes 0 and 1 on encoders 0 and 1, both at rest and flagged for a position change: axis 0 by 3, axis 1 from 0 to
2^31 - 1 with the given scale, scaled up in this tick where `up`. The machine stands at 0 and 1. -/
def starting (sc : Scale) (up : Bool) : State :=
  { State.reset with
    pendingAxes := 3
    encs := (State.reset.encs.modify 0 (fun x => { x with position := 3, velocity := 1 })).modify 1
      (fun x => { x with position := 0x7FFFFFFF, velocity := 1 })
    axes :=
      [{ State.reset.axis 0 with enc := some 0, event := ⟨true, false, false, false, false, false⟩ },
       { State.reset.axis 1 with enc := some 1, scale := sc, event := ⟨true, false, false, false, up, false⟩ },
       State.reset.axis 2]
    env := ⟨[], [.idle], [false], [0, 1], [0, 0], [true], 0⟩ }

/-- Axis 1 starts and is scaled in this tick, and its displacement is out of range; unscaled, its target is. Axis 0 is in
range. -/
theorem witness_MotionOverflowFaults :
    (starting .x1 true).modeMsgPending = false ∧ (starting .x1 true).ArraysOk ∧ (starting .x1 true).pendingAxes ≠ 0 ∧
    (starting .x1 true).gateWillOpen ∧ (starting .x1 true).contributors = [0, 1] ∧
    (∀ j, j ∈ [0, 1] → j < 1 → (starting .x1 true).afterActions.MoveInRange j) ∧
    ¬ (starting .x1 true).afterActions.MoveInRange 1 ∧
    (let s := starting .x1 false
     s.modeMsgPending = false ∧ s.ArraysOk ∧ s.pendingAxes ≠ 0 ∧ s.gateWillOpen ∧ s.contributors = [0, 1] ∧
     (∀ j, j ∈ [0, 1] → s.afterActions.MoveInRange j) ∧ s.afterActions.IsSlowest [0, 1] 1 ∧
     s.cfg.moveStrategy = .absoluteMove ∧ s.afterActions.drawRelative.1 = false ∧
     (∀ j, j ∈ [0, 1] → j < 1 → InInt32 ((s.afterActions.axis j).pos.toInt + s.afterActions.displacement j)) ∧
     ¬ InInt32 ((s.afterActions.axis 1).pos.toInt + s.afterActions.displacement 1)) :=
  ⟨by decide, ⟨rfl, rfl, rfl⟩, by decide, .inl (by decide), by decide, by unfold State.MoveInRange InInt32; decide,
    by unfold State.MoveInRange InInt32; decide, by decide, ⟨rfl, rfl, rfl⟩, by decide, .inl (by decide), by decide,
    by unfold State.MoveInRange InInt32; decide, by unfold State.IsSlowest; decide, by decide, by decide,
    by unfold InInt32; decide, by unfold InInt32; decide⟩

/-- Vector D12 (95_test_vectors 2.7): axis 1 at rest with scale 10, and only it flagged. -/
theorem test_vector_D12 :
    faultOf (exec .executeRealtime { starting .x10 false with pendingAxes := 2 }) = some (.arithOverflow 1) := by decide

/-- Vector D13, on axis 1: the origin 1 plus 2^31 - 1. -/
theorem test_vector_D13 :
    faultOf (exec .executeRealtime
      { starting .x1 false with
        pendingAxes := 2, env := ⟨[], [.idle], [false], [1], [0], [true], 0⟩ }) = some (.arithOverflow 1) := by
  decide

theorem witness_ExecuteRealtimeFrame : ∃ t, exec .executeRealtime moving = .next t := ⟨_, rfl⟩

theorem witness_RealtimeByteRoutes :
    ∃ t, exec (.isrRx 0x3F false false) State.reset = .next t ∧ t.out = State.reset.out ++ [.rtRx 0x3F] :=
  ⟨_, rfl, by decide⟩

/-- The first and the last handled id of the last encoder, and the two ids beside them. -/
theorem witness_settings :
    State.reset.cfg.WellFormed = true ∧ State.reset.ArraysOk ∧
    410 = State.reset.cfg.setBase + 1 * State.reset.cfg.setStride + 0 ∧
    413 = State.reset.cfg.setBase + 1 * State.reset.cfg.setStride + 3 ∧
    (∀ e f, e < State.reset.cfg.nEnc → f < 4 → 409 ≠ State.reset.cfg.setBase + e * State.reset.cfg.setStride + f) ∧
    (∀ e f, e < State.reset.cfg.nEnc → f < 4 → 414 ≠ State.reset.cfg.setBase + e * State.reset.cfg.setStride + f) :=
  ⟨by decide, reset_arrays, by decide, by decide,
    fun e f he hf => by
      have : 409 ≠ 400 + e * 10 + f := by have : e < 2 := he; omega
      exact this,
    fun e f he hf => by
      have : 414 ≠ 400 + e * 10 + f := by have : e < 2 := he; omega
      exact this⟩

/-- A held, a completed and a failed PUT_BYTE. -/
theorem witness_WriterPutsTheLine :
    ({ State.reset with putBlocked := true } : State).putBlocked = true ∧ State.reset.putBlocked = false ∧
    ({ State.reset with res0 := 1 } : State).res0 = 1 ∧ State.reset.res0 = 0 := by decide

end Sys2Proof.Tests
end

section
/-! Which operations move the indices of the two rings (20_memory R86). -/

namespace Sys2Proof.Machine

/-- Only an interception moves the tail from ISR_RX: it truncates the live buffer (40 R150); the buffer path moves the
head (40 R158). -/
theorem execIsrRx_rx_tail {s t : State} {d : Byte} {ovr fe : Bool} (h : execIsrRx d ovr fe s = .next t)
    (hd : d ≠ s.cfg.toolAck) : t.rx.tail = s.rx.tail := by
  have hint : s.intercepts d = false := by simp [State.intercepts, hd]
  unfold execIsrRx at h
  rw [hint] at h
  split at h
  · contradiction
  · split at h
    · cases h; rfl
    · cases h
      unfold State.enqueueRx
      split <;> rfl

/-- The rings after any operation: five operations work on them, each on the side named here, and the others leave both
as they are. -/
theorem exec_rings {i : Instr} {s t : State} (h : exec i s = .next t) :
    (t.tx = s.tx ∧ t.rx = s.rx) ∨
    (∃ d, i = .putByte d ∧ t.tx.tail = s.tx.tail ∧ t.rx = s.rx) ∨
    (i = .isrTx ∧ t.tx.head = s.tx.head ∧ t.rx = s.rx) ∨
    (i = .getByte ∧ t.tx = s.tx ∧ t.rx.head = s.rx.head) ∨
    (i = .resumeInput ∧ t.tx = s.tx) ∨
    (∃ d ovr fe, i = .isrRx d ovr fe ∧ t.tx = s.tx ∧ (d ≠ s.cfg.toolAck → t.rx.tail = s.rx.tail)) := by
  cases i
  case putByte d =>
    obtain ⟨hf, htail⟩ := execPutByte_frame h
    exact .inr (.inl ⟨d, rfl, htail, congrArg (·.rx) hf⟩)
  case isrTx =>
    have hf := execIsrTx_frame h
    exact .inr (.inr (.inl ⟨rfl, congrArg (·.tx.head) hf, congrArg (·.rx) hf⟩))
  case getByte =>
    have hf := execGetByte_frame h
    exact .inr (.inr (.inr (.inl ⟨rfl, congrArg (·.tx) hf, congrArg (·.rx.head) hf⟩)))
  case resumeInput =>
    exact .inr (.inr (.inr (.inr (.inl ⟨rfl, congrArg (·.tx) (execResumeInput_frame h)⟩))))
  case isrRx d ovr fe =>
    replace h : execIsrRx d ovr fe s = .next t := h
    exact .inr (.inr (.inr (.inr (.inr
      ⟨d, ovr, fe, rfl, congrArg (·.tx) (execIsrRx_frame h), execIsrRx_rx_tail h⟩))))
  case encEvent =>
    have hf := execEncEvent_frame h
    exact .inl ⟨congrArg (·.tx) hf, congrArg (·.rx) hf⟩
  case executeRealtime =>
    have hf := execExecuteRealtime_frame h
    exact .inl ⟨congrArg (·.tx) hf, congrArg (·.rx) hf⟩
  case settingRead =>
    have hf := execSettingRead_frame h
    exact .inl ⟨congrArg (·.tx) hf, congrArg (·.rx) hf⟩
  case settingWrite =>
    have hf := execSettingWrite_frame h
    exact .inl ⟨congrArg (·.tx) hf, congrArg (·.rx) hf⟩
  case txCount | rxCount | rxFree | rxOverflow | isrRxErr | chanTxDone | settingsRestore =>
    cases h
    exact .inl ⟨rfl, rfl⟩

/-- Settles O19: of the five operations that work on a ring, each is excluded by the agent it belongs to, by being the
resume, or by receiving the tool acknowledge, wherever it may move the index in question. -/
theorem indexOwnership : Obligations.IndexOwnership := by
  intro i s t h
  rcases exec_rings h with ⟨htx, hrx⟩ | ⟨d, rfl, htail, hrx⟩ | ⟨rfl, hhead, hrx⟩ | ⟨rfl, htx, hhead⟩ | ⟨rfl, htx⟩ |
    ⟨d, ovr, fe, rfl, htx, htail⟩
  · rw [htx, hrx]
    exact ⟨fun _ => rfl, fun _ => rfl, fun _ _ => rfl, fun _ _ => rfl⟩
  · rw [hrx]
    exact ⟨fun hmain => absurd rfl hmain, fun _ => htail, fun _ _ => rfl, fun _ _ => rfl⟩
  · rw [hrx]
    exact ⟨fun _ => hhead, fun hsisr => absurd rfl hsisr, fun _ _ => rfl, fun _ _ => rfl⟩
  · rw [htx]
    exact ⟨fun _ => rfl, fun _ => rfl, fun _ _ => hhead, fun hmain => absurd rfl hmain⟩
  · rw [htx]
    exact ⟨fun _ => rfl, fun _ => rfl, fun _ hresume => absurd rfl hresume, fun hmain => absurd rfl hmain⟩
  · rw [htx]
    have hack (h' : ∀ ovr' fe', Instr.isrRx d ovr fe ≠ .isrRx s.cfg.toolAck ovr' fe') : d ≠ s.cfg.toolAck :=
      fun hd => h' ovr fe (hd ▸ rfl)
    exact ⟨fun _ => rfl, fun _ => rfl, fun hsisr => absurd rfl hsisr, fun _ h' => htail (hack h')⟩

end Sys2Proof.Machine
end

section
/-! The branches of PUT_BYTE (40_serial_transport R131 to R134). -/

namespace Sys2Proof.Machine

/-- The direct path as R131 names it: a first attempt, an empty buffer, the interrupt disabled, the channel ready. -/
theorem directPath_iff (s : State) :
    (!s.putBlocked && s.directLegal) = true ↔
      s.putBlocked = false ∧ s.tx.head = s.tx.tail ∧ s.txie = false ∧ s.hwTxEmpty = true := by
  simp only [State.directLegal, State.txEmpty, ringEmpty, Bool.and_eq_true, Bool.not_eq_true', beq_iff_eq, and_assoc]

/-- The direct path is not taken where one of its four conditions fails (R131). -/
theorem not_directPath {s : State}
    (h : s.putBlocked = true ∨ s.tx.head ≠ s.tx.tail ∨ s.txie = true ∨ s.hwTxEmpty = false) :
    ¬ (!s.putBlocked && s.directLegal) = true := by
  rw [directPath_iff]
  rintro ⟨hput, hidx, hie, hhw⟩
  rcases h with hput' | hidx' | hie' | hhw'
  · simp [hput] at hput'
  · exact hidx' hidx
  · simp [hie] at hie'
  · simp [hhw] at hhw'

/-- 10_state R35's mask read as a remainder, the form R131 and R133 are stated in here. -/
theorem State.txFull_iff {s : State} (hb : s.BuffersOk) :
    s.txFull = true ↔ (s.tx.head + 1) % s.cfg.txCap = s.tx.tail := by
  rw [State.txFull, ringFull, beq_iff_eq, ringNext_eq_mod (Params.txCap_ok hb.1)]

/-- The direct path (R132). -/
theorem execPutByte_of_direct {s : State} (d : Byte) (hd : (!s.putBlocked && s.directLegal) = true) :
    execPutByte d s = .next ((s.sendByte d).result 1) :=
  if_pos hd

/-- The enqueue (R134). -/
theorem execPutByte_of_not_full {s : State} (d : Byte) (hd : ¬ (!s.putBlocked && s.directLegal) = true)
    (hf : ¬ s.txFull = true) : execPutByte d s = .next (s.enqueueTx d) :=
  (if_neg hd).trans (if_neg hf)

@[simp] theorem State.enqueueTx_tx (s : State) (d : Byte) : (s.enqueueTx d).tx = s.tx.push s.cfg.txCap d := rfl

theorem Ring.push_read_head (r : Ring) (c : Nat) (b : Byte) : (r.push c b).mem.read r.head = some b :=
  Memory.read_write_same r.mem r.head b

theorem Ring.push_read_ne (r : Ring) (c : Nat) (b : Byte) {a : Nat} (ha : a ≠ r.head) :
    (r.push c b).mem.read a = r.mem.read a :=
  Memory.read_write_ne r.mem b ha

/-- The mask of 10_state R35 as the wrap-around of R134. -/
theorem Ring.push_head {c : Nat} (hc : capOk c = true) (r : Ring) (b : Byte) :
    (r.push c b).head = (r.head + 1) % c :=
  ringNext_eq_mod hc r.head

/-- Settles O22: outside the direct path and with room, PUT_BYTE is `enqueueTx`, whose effect on TXBUF is one push. -/
theorem putByteEnqueue : Obligations.PutByteEnqueue := by
  intro d s hb hpath hroom
  have hf : ¬ s.txFull = true := mt (State.txFull_iff hb).mp hroom
  refine ⟨s.enqueueTx d, execPutByte_of_not_full d (not_directPath hpath) hf, ?_⟩
  rw [State.enqueueTx_tx]
  exact ⟨s.tx.push_read_head _ d, fun _ ha => s.tx.push_read_ne _ d ha, Ring.push_head (Params.txCap_ok hb.1) s.tx d,
    rfl, rfl, rfl, rfl, rfl, rfl, rfl, ⟨rfl, rfl, rfl, rfl, fun _ => rfl⟩, ⟨rfl, rfl, rfl, rfl, fun _ => rfl⟩, rfl,
    ⟨⟨rfl, rfl, rfl, rfl⟩, ⟨rfl, rfl⟩, rfl⟩, ⟨rfl, rfl, rfl, rfl, rfl⟩, rfl, rfl, rfl⟩

/-- Settles O21: the four conditions are those of the direct path, which sends the byte and writes the result. -/
theorem putByteDirectPath : Obligations.PutByteDirectPath := by
  intro d s hput hidx hie hhw
  exact execPutByte_of_direct d ((directPath_iff s).mpr ⟨hput, hidx, hie, hhw⟩)

end Sys2Proof.Machine
end

section
/-! Clicks of an MPG encoder without a position change (41_encoder_intake R191, R192). -/

namespace Sys2Proof.Machine

/-- Marking an axis twice is marking it once with both changes; its pending bit is set either way. -/
theorem State.markAxis_markAxis (s : State) (k : Nat) (f g : AxisEvents → AxisEvents) :
    (s.markAxis k f).markAxis k g = s.markAxis k (fun x => g (f x)) := by
  simp only [State.markAxis_eq, modify_modify, BitVec.or_assoc, BitVec.or_self]

/-- The event set of an axis after the clicks of `ev`: a click joins its scale event (R191), a double-click its zero event
(R192). -/
def AxisEvents.addClicks (ev : EncEvents) (x : AxisEvents) : AxisEvents :=
  { x with scale := x.scale || ev.click, zero := x.zero || ev.doubleClick }

/-- R191 and R192 together mark the encoder's axis once, where there is a click or a double-click. -/
theorem State.mpgEvents_eq_markAxis {s : State} {e k : Nat} {ev : EncEvents} (hk : (s.enc e).axis = some k)
    (hev : ev.click = true ∨ ev.doubleClick = true) : s.mpgEvents e ev = s.markAxis k (AxisEvents.addClicks ev) := by
  obtain ⟨posChanged, click, doubleClick⟩ := ev
  unfold State.mpgEvents AxisEvents.addClicks
  rw [hk]
  cases click <;> cases doubleClick
  case false.false => simp at hev
  case false.true => simp
  case true.false => simp
  case true.true => simp [State.markAxis_markAxis]

/-- No mode is both an MPG and an override mode (10_state R44). -/
theorem isOverride_of_isMpg {m : Mode} (h : isMpg m = true) : isOverride m = false := by
  cases m with
  | mpg | mpgAxis => rfl
  | universal | feedRate | rapidRate | spindleRPM => contradiction

/-- A click or double-click of an encoder in an MPG mode takes the path of R191 and R192. -/
theorem State.handleNonMovement_mpg {s : State} {e : Nat} {ev : EncEvents} (hm : isMpg (s.enc e).mode = true)
    (hev : ev.click = true ∨ ev.doubleClick = true) : s.handleNonMovement e ev = s.mpgEvents e ev := by
  unfold State.handleNonMovement
  rw [if_pos (by simpa using hev), isOverride_of_isMpg hm, hm]
  rfl

/-- An event whose click is not handled first and which is no position change is handled as a non-movement event (R170). -/
theorem State.takeEncEvent_of_nonMovement {s : State} {e : Nat} {ev : EncEvents} (p : I32) (v : U32)
    (hpass : s.handleClick e ev = (ev, s)) (hpos : ev.posChanged = false) :
    s.takeEncEvent e ev p v = .ok (s.handleNonMovement e ev) := by
  unfold State.takeEncEvent
  rw [hpass]
  simp [hpos]

/-- An event of a known encoder that meets no fault: its effect, then the event set is consumed (R170). -/
theorem execEncEvent_of_take {e : Nat} {ev : BitVec 3} {p : I32} {v : U32} {s t : State} (he : e < s.cfg.nEnc)
    (hev : ev ≠ 0#3) (h : s.takeEncEvent e (eventsOfBits ev) p v = .ok t) :
    execEncEvent e ev p v s = .next (t.consumeEvents e) := by
  unfold execEncEvent
  rw [if_neg (Nat.not_le.mpr he), if_neg hev, h]
  rfl

/-- Marking an axis and consuming the encoder's events, as updates of one entry each, where no guarded section is open. -/
theorem State.consumeEvents_markAxis {s : State} (hg : s.guard = false) (e k : Nat) (f : AxisEvents → AxisEvents) :
    (s.markAxis k f).consumeEvents e =
      { s with
        encs := s.encs.set e { s.enc e with event := ⟨false, false, false⟩ },
        axes := s.axes.set k { s.axis k with event := f (s.axis k).event },
        pendingAxes := s.pendingAxes ||| (1#16 <<< k) } := by
  rw [State.consumeEvents, State.markAxis_eq, State.modEnc, modify_eq_set _ _ _ default, modify_eq_set _ _ _ default, ← hg]
  rfl

/-- Settles O45: the click passes the first part of the event, and what is left marks the axis once. -/
theorem mpgClicksSetScaleAndZero : Obligations.MpgClicksSetScaleAndZero := by
  intro e k ev p v s he _ hg _ hpos hclick huniv hmode hk
  have hmpg : isMpg (s.enc e).mode = true := by
    rcases hmode with ⟨hm, -⟩ | ⟨j, hm⟩ <;> rw [hm] <;> rfl
  have hcursor (hc : ev.getLsbD 1 = true) : (s.enc e).mode ≠ .mpg := by
    rcases hmode with ⟨-, hnc⟩ | ⟨j, hm⟩
    · exact absurd (hnc.symm.trans hc) Bool.false_ne_true
    · simp [hm]
  have hne : ev ≠ 0#3 := by
    rintro rfl
    simp at hclick
  have htake : s.takeEncEvent e (eventsOfBits ev) p v =
      .ok (s.markAxis k (AxisEvents.addClicks (eventsOfBits ev))) := by
    rw [State.takeEncEvent_of_nonMovement p v (State.handleClick_pass huniv hcursor) hpos,
      State.handleNonMovement_mpg hmpg hclick, State.mpgEvents_eq_markAxis hk hclick]
  exact (execEncEvent_of_take he hne htake).trans
    (congrArg Host.Outcome.next (State.consumeEvents_markAxis hg e k _))

end Sys2Proof.Machine
end

section
/-! The opcode map as a partial function of the head word's fields (30_encoding R101, R107), and the decoder as the
inverse of the encoder. -/

namespace Sys2Proof

/-! ### One row an opcode -/

/-- Field OPC of an operation's head word (30_encoding R107). -/
def Opcode.opc : Opcode → BitVec 8
  | .putByte => 0x01
  | .getByte => 0x02
  | .txCount => 0x03
  | .rxCount => 0x04
  | .rxFree => 0x05
  | .rxOverflow => 0x06
  | .resumeInput => 0x07
  | .isrRx => 0x10
  | .isrTx => 0x11
  | .isrRxErr => 0x12
  | .chanTxDone => 0x18
  | .encEvent => 0x20
  | .executeRealtime => 0x30
  | .settingRead => 0x40
  | .settingWrite => 0x41
  | .settingsRestore => 0x42

/-- The reserved bits of field A, by format (R103 to R106). -/
def Opcode.reservedA : Opcode → BitVec 8
  | .isrRx | .isrRxErr => 0xFC
  | .encEvent => 0x00
  | .putByte | .getByte | .txCount | .rxCount | .rxFree | .rxOverflow | .resumeInput | .isrTx | .chanTxDone
  | .executeRealtime | .settingRead | .settingWrite | .settingsRestore => 0xFF

/-- The reserved bits of field B, by format (R103 to R106). -/
def Opcode.reservedB : Opcode → BitVec 16
  | .putByte | .isrRx => 0xFF00
  | .encEvent => 0xFFF8
  | .settingRead | .settingWrite => 0x0000
  | .getByte | .txCount | .rxCount | .rxFree | .rxOverflow | .resumeInput | .isrTx | .isrRxErr | .chanTxDone
  | .executeRealtime | .settingsRestore => 0xFFFF

/-- How many operand words follow (R102). -/
def Opcode.operandWords : Opcode → Nat
  | .encEvent => 2
  | .settingWrite => 1
  | .putByte | .getByte | .txCount | .rxCount | .rxFree | .rxOverflow | .resumeInput | .isrRx | .isrTx | .isrRxErr
  | .chanTxDone | .executeRealtime | .settingRead | .settingsRestore => 0

/-- The row of an operation. -/
def Opcode.row (op : Opcode) : Row := fieldRow op op.opc op.reservedA op.reservedB op.operandWords

theorem Opcode.row_mem (op : Opcode) : op.row ∈ opcodeTable := by cases op <;> decide

theorem eq_row_of_mem : ∀ r ∈ opcodeTable, r = r.op.row := by decide

/-- The opcodes of R107 are distinct. -/
theorem row_eq_of_opc : ∀ r ∈ opcodeTable, ∀ r' ∈ opcodeTable, r.op.opc = r'.op.opc → r = r' := by decide

/-- A row selects the head words with its opcode and zero in every reserved bit (R107). -/
theorem Opcode.row_selects_iff (op : Opcode) (o a : BitVec 8) (b : BitVec 16) :
    op.row.selects (headWord o a b) = true ↔ o = op.opc ∧ a &&& op.reservedA = 0 ∧ b &&& op.reservedB = 0 := by
  simp [Opcode.row, fieldRow_selects]

/-- At most one row selects a word. -/
theorem Row.eq_of_selects {r r' : Row} {w : Word} (hr : r ∈ opcodeTable) (hr' : r' ∈ opcodeTable)
    (h : r.selects w = true) (h' : r'.selects w = true) : r = r' := by
  rw [eq_headWord w, eq_row_of_mem r hr, Opcode.row_selects_iff] at h
  rw [eq_headWord w, eq_row_of_mem r' hr', Opcode.row_selects_iff] at h'
  exact row_eq_of_opc r hr r' hr' (h.1.symm.trans h'.1)

theorem selectRow_eq_some_iff {w : Word} {op : Opcode} : selectRow w = some op.row ↔ op.row.selects w = true := by
  constructor
  · exact fun h => List.find?_some (p := fun r : Row => r.selects w) h
  · intro hs
    obtain ⟨r, h⟩ := Option.isSome_iff_exists.mp
      (List.find?_isSome (p := fun r : Row => r.selects w) |>.mpr ⟨op.row, op.row_mem, hs⟩)
    have hs' : r.selects w = true := List.find?_some (p := fun r : Row => r.selects w) h
    rw [Row.eq_of_selects op.row_mem (List.mem_of_find?_eq_some h) hs hs']
    exact h

/-! ### The decoder by fields -/

/-- A head word with a known opcode and zero reserved bits is read as its row's operation (R109). -/
theorem decode_headWord (op : Opcode) {a : BitVec 8} {b : BitVec 16} (rest : List Word) (ha : a &&& op.reservedA = 0)
    (hb : b &&& op.reservedB = 0) : decode (headWord op.opc a b :: rest) = assemble op (headWord op.opc a b) rest := by
  rw [decode, selectRow_eq_some_iff.mpr ((op.row_selects_iff _ _ _).mpr ⟨rfl, ha, hb⟩)]
  rfl

/-- Any other head word is illegal (R109). -/
theorem decode_illegal {o a : BitVec 8} {b : BitVec 16} (rest : List Word)
    (h : ∀ op : Opcode, ¬ (o = op.opc ∧ a &&& op.reservedA = 0 ∧ b &&& op.reservedB = 0)) :
    decode (headWord o a b :: rest) = .illegal (headWord o a b) := by
  have hn : selectRow (headWord o a b) = none := by
    refine List.find?_eq_none.mpr fun r hr hs => h r.op ?_
    rw [eq_row_of_mem r hr] at hs
    exact (r.op.row_selects_iff _ _ _).mp hs
  rw [decode, hn]

/-- Operand words may be missing, but a selected head word is never illegal. -/
theorem assemble_ne_illegal (op : Opcode) (w v : Word) (rest : List Word) : assemble op w rest ≠ .illegal v := by
  cases op with
  | encEvent => rcases rest with _ | ⟨pos, _ | ⟨vel, rest⟩⟩ <;> exact nofun
  | settingWrite => cases rest <;> exact nofun
  | putByte | getByte | txCount | rxCount | rxFree | rxOverflow | resumeInput | isrRx | isrTx | isrRxErr | chanTxDone
  | executeRealtime | settingRead | settingsRestore => exact nofun

/-! ### Decoding an encoding -/

theorem decode_encode {i : Instr} (rest : List Word) (h : i.WellFormed = true) : decode (encode i ++ rest) = .ok i rest := by
  cases i with
  | putByte d =>
    refine (decode_headWord .putByte rest rfl (byteField_masked d)).trans ?_
    rw [assemble, fieldD_headWord]
  | isrRx d ovr fe =>
    refine (decode_headWord .isrRx rest (errBits_masked ovr fe) (byteField_masked d)).trans ?_
    rw [assemble, fieldD_headWord, fieldOvr_headWord, fieldFe_headWord]
  | isrRxErr ovr fe =>
    refine (decode_headWord .isrRxErr rest (errBits_masked ovr fe) rfl).trans ?_
    rw [assemble, fieldOvr_headWord, fieldFe_headWord]
  | encEvent enc ev pos vel =>
    refine (decode_headWord .encEvent (pos :: vel :: rest) BitVec.and_zero (eventField_masked ev)).trans ?_
    rw [assemble, fieldEnc_headWord _ _ _ (by simpa [Instr.WellFormed] using h), fieldEv_headWord]
  | settingRead id =>
    refine (decode_headWord .settingRead rest rfl BitVec.and_zero).trans ?_
    rw [assemble, fieldId_headWord _ _ _ (by simpa [Instr.WellFormed] using h)]
  | settingWrite id val =>
    refine (decode_headWord .settingWrite (val :: rest) rfl BitVec.and_zero).trans ?_
    rw [assemble, fieldId_headWord _ _ _ (by simpa [Instr.WellFormed] using h)]
  | getByte => exact decode_headWord .getByte rest rfl rfl
  | txCount => exact decode_headWord .txCount rest rfl rfl
  | rxCount => exact decode_headWord .rxCount rest rfl rfl
  | rxFree => exact decode_headWord .rxFree rest rfl rfl
  | rxOverflow => exact decode_headWord .rxOverflow rest rfl rfl
  | resumeInput => exact decode_headWord .resumeInput rest rfl rfl
  | isrTx => exact decode_headWord .isrTx rest rfl rfl
  | chanTxDone => exact decode_headWord .chanTxDone rest rfl rfl
  | executeRealtime => exact decode_headWord .executeRealtime rest rfl rfl
  | settingsRestore => exact decode_headWord .settingsRestore rest rfl rfl

/-- Settles O1: the words by `decode_encode`; the bytes of words are read back as those words. -/
theorem decodeOfEncodeIsTheInstruction : Obligations.DecodeOfEncodeIsTheInstruction := by
  intro i rest h
  refine ⟨decode_encode rest h, ?_⟩
  rw [decodeBytes, wordsOfBytes_bytesOfWords]
  exact decode_encode rest h

/-! ### What decodes is an encoding -/

/-- A legal head word with the words after it: where an operation is assembled, these are its encoding. -/
theorem assemble_encode {op : Opcode} {a : BitVec 8} {b : BitVec 16} {ws rest : List Word} {i : Instr}
    (ha : a &&& op.reservedA = 0) (hb : b &&& op.reservedB = 0)
    (h : assemble op (headWord op.opc a b) ws = .ok i rest) :
    i.WellFormed = true ∧ headWord op.opc a b :: ws = encode i ++ rest := by
  have hA (hr : op.reservedA = 0xFF) : a = 0 := by rw [hr] at ha; exact (BitVec.and_allOnes).symm.trans ha
  have hB (hr : op.reservedB = 0xFFFF) : b = 0 := by rw [hr] at hb; exact (BitVec.and_allOnes).symm.trans hb
  cases op with
  | putByte =>
    obtain rfl := hA rfl
    obtain ⟨d, rfl⟩ : ∃ d : Byte, b = 0#8 ++ d := ⟨_, byteField_of_masked b hb⟩
    rw [assemble, fieldD_headWord] at h
    cases h
    exact ⟨rfl, rfl⟩
  | isrRx =>
    obtain ⟨d, rfl⟩ : ∃ d : Byte, b = 0#8 ++ d := ⟨_, byteField_of_masked b hb⟩
    obtain ⟨ovr, fe, rfl⟩ : ∃ ovr fe, a = errBits ovr fe := ⟨_, _, errBits_of_masked a ha⟩
    rw [assemble, fieldD_headWord, fieldOvr_headWord, fieldFe_headWord] at h
    cases h
    exact ⟨rfl, rfl⟩
  | isrRxErr =>
    obtain rfl := hB rfl
    obtain ⟨ovr, fe, rfl⟩ : ∃ ovr fe, a = errBits ovr fe := ⟨_, _, errBits_of_masked a ha⟩
    rw [assemble, fieldOvr_headWord, fieldFe_headWord] at h
    cases h
    exact ⟨rfl, rfl⟩
  | encEvent =>
    obtain ⟨ev, rfl⟩ : ∃ ev : BitVec 3, b = 0#13 ++ ev := ⟨_, eventField_of_masked b hb⟩
    simp only [assemble, fieldEnc, headWord_a, fieldEv_headWord] at h
    split at h
    · cases h
      exact ⟨by simpa [Instr.WellFormed] using a.isLt, by rw [encode, BitVec.ofNat_toNat, BitVec.setWidth_eq]; rfl⟩
    · cases h
    · cases h
  | settingRead =>
    obtain rfl := hA rfl
    rw [assemble, fieldId, headWord_b] at h
    cases h
    exact ⟨by simpa [Instr.WellFormed] using b.isLt, by rw [encode, BitVec.ofNat_toNat, BitVec.setWidth_eq]; rfl⟩
  | settingWrite =>
    obtain rfl := hA rfl
    simp only [assemble, fieldId, headWord_b] at h
    split at h
    · cases h
      exact ⟨by simpa [Instr.WellFormed] using b.isLt, by rw [encode, BitVec.ofNat_toNat, BitVec.setWidth_eq]; rfl⟩
    · cases h
  | getByte | txCount | rxCount | rxFree | rxOverflow | resumeInput | isrTx | chanTxDone | executeRealtime
  | settingsRestore =>
    obtain rfl := hA rfl
    obtain rfl := hB rfl
    cases h
    exact ⟨rfl, rfl⟩

/-- Settles O2: a head word that is not illegal is that of an operation, whose encoding the words then begin with. -/
theorem decodedWordsAreTheEncoding : Obligations.DecodedWordsAreTheEncoding := by
  intro ws i rest h
  cases ws with
  | nil => cases h
  | cons w ws =>
    rw [eq_headWord w] at h ⊢
    by_cases hop : ∃ op : Opcode, w.extractLsb' 24 8 = op.opc ∧ w.extractLsb' 16 8 &&& op.reservedA = 0 ∧
        w.extractLsb' 0 16 &&& op.reservedB = 0
    · obtain ⟨op, ho, ha, hb⟩ := hop
      rw [ho] at h ⊢
      rw [decode_headWord op ws ha hb] at h
      exact assemble_encode ha hb h
    · rw [decode_illegal ws (not_exists.mp hop)] at h
      cases h

/-! ### Legal head words -/

theorem opcOf_eq (w : Word) : Machine.opcOf w = (w.extractLsb' 24 8).toNat := by
  rw [BitVec.extractLsb'_toNat, Nat.shiftRight_eq_div_pow, Nat.mod_eq_of_lt (by omega)]
  rfl

theorem aOf_eq (w : Word) : Machine.aOf w = (w.extractLsb' 16 8).toNat := by
  rw [BitVec.extractLsb'_toNat, Nat.shiftRight_eq_div_pow]
  rfl

theorem bOf_eq (w : Word) : Machine.bOf w = (w.extractLsb' 0 16).toNat := by
  rw [BitVec.extractLsb'_toNat]
  rfl

/-- Masking the bits from `m` up leaves zero exactly below `2 ^ m`. -/
theorem and_high_eq_zero_iff {n m : Nat} (b : BitVec (n + m)) :
    b &&& (BitVec.allOnes n ++ 0#m) = 0 ↔ b.toNat < 2 ^ m := by
  constructor
  · intro h
    rw [eq_append_parts b] at h
    rw [eq_append_parts b, high_zero _ _ h, BitVec.toNat_append]
    simpa using (b.extractLsb' 0 m).isLt
  · intro h
    have hb : b = 0#n ++ BitVec.ofNat m b.toNat := by
      apply BitVec.eq_of_toNat_eq
      simp [BitVec.toNat_append, Nat.mod_eq_of_lt h]
    rw [hb, BitVec.and_append]
    simp

/-- The operations of format N (R103). -/
def formatN : List Opcode :=
  [.getByte, .txCount, .rxCount, .rxFree, .rxOverflow, .resumeInput, .isrTx, .chanTxDone, .executeRealtime,
   .settingsRestore]

theorem formatN_reserved : ∀ op ∈ formatN, op.reservedA = 0xFF ∧ op.reservedB = 0xFFFF := by decide

/-- The operations of format S (R105). -/
def formatS : List Opcode := [.settingRead, .settingWrite]

theorem formatS_reserved : ∀ op ∈ formatS, op.reservedA = 0xFF ∧ op.reservedB = 0x0000 := by decide

theorem mem_opcodes_iff (o : BitVec 8) (ops : List Opcode) :
    o.toNat ∈ ops.map (fun op => op.opc.toNat) ↔ ∃ op ∈ ops, o = op.opc := by
  simp only [List.mem_map, BitVec.toNat_eq, eq_comm]

/-- The legal heads are those with an opcode of the map and zero in its reserved bits. -/
theorem legalHead_iff (o a : BitVec 8) (b : BitVec 16) :
    Machine.LegalHead (headWord o a b) ↔
      ∃ op : Opcode, o = op.opc ∧ a &&& op.reservedA = 0 ∧ b &&& op.reservedB = 0 := by
  have hN := mem_opcodes_iff o formatN
  have hS := mem_opcodes_iff o formatS
  have hFF : a &&& 0xFF = 0 ↔ a.toNat = 0 := (and_high_eq_zero_iff (n := 8) (m := 0) a).trans Nat.lt_one_iff
  have hFC : a &&& 0xFC = 0 ↔ a.toNat < 2 ^ 2 := and_high_eq_zero_iff (n := 6) (m := 2) a
  have hFFFF : b &&& 0xFFFF = 0 ↔ b.toNat = 0 := (and_high_eq_zero_iff (n := 16) (m := 0) b).trans Nat.lt_one_iff
  have hFF00 : b &&& 0xFF00 = 0 ↔ b.toNat < 2 ^ 8 := and_high_eq_zero_iff (n := 8) (m := 8) b
  have hFFF8 : b &&& 0xFFF8 = 0 ↔ b.toNat < 2 ^ 3 := and_high_eq_zero_iff (n := 13) (m := 3) b
  unfold Machine.LegalHead
  rw [opcOf_eq, aOf_eq, bOf_eq, headWord_opc, headWord_a, headWord_b]
  constructor
  · rintro (⟨ho, ha, hb⟩ | ⟨ho, ha, hb⟩ | ⟨ho, ha, hb⟩ | ⟨ho, ha, hb⟩ | ⟨ho, hb⟩ | ⟨ho, ha⟩)
    · obtain ⟨op, hop, rfl⟩ := hN.mp ho
      obtain ⟨hA, hB⟩ := formatN_reserved op hop
      exact ⟨op, rfl, hA ▸ hFF.mpr ha, hB ▸ hFFFF.mpr hb⟩
    · exact ⟨.putByte, BitVec.eq_of_toNat_eq ho, hFF.mpr ha, hFF00.mpr hb⟩
    · exact ⟨.isrRx, BitVec.eq_of_toNat_eq ho, hFC.mpr ha, hFF00.mpr hb⟩
    · exact ⟨.isrRxErr, BitVec.eq_of_toNat_eq ho, hFC.mpr ha, hFFFF.mpr hb⟩
    · exact ⟨.encEvent, BitVec.eq_of_toNat_eq ho, BitVec.and_zero, hFFF8.mpr hb⟩
    · obtain ⟨op, hop, rfl⟩ := hS.mp ho
      obtain ⟨hA, hB⟩ := formatS_reserved op hop
      exact ⟨op, rfl, hA ▸ hFF.mpr ha, by rw [hB]; exact BitVec.and_zero⟩
  · rintro ⟨op, rfl, ha, hb⟩
    cases op with
    | putByte => exact .inr (.inl ⟨rfl, hFF.mp ha, hFF00.mp hb⟩)
    | isrRx => exact .inr (.inr (.inl ⟨rfl, hFC.mp ha, hFF00.mp hb⟩))
    | isrRxErr => exact .inr (.inr (.inr (.inl ⟨rfl, hFC.mp ha, hFFFF.mp hb⟩)))
    | encEvent => exact .inr (.inr (.inr (.inr (.inl ⟨rfl, hFFF8.mp hb⟩))))
    | settingRead | settingWrite => exact .inr (.inr (.inr (.inr (.inr ⟨by decide, hFF.mp ha⟩))))
    | getByte | txCount | rxCount | rxFree | rxOverflow | resumeInput | isrTx | chanTxDone | executeRealtime
    | settingsRestore => exact .inl ⟨by decide, hFF.mp ha, hFFFF.mp hb⟩

/-- Settles O3: read by fields, a legal head word is assembled, and assembling never answers illegal. -/
theorem illegalExactlyOutsideTheFormats : Obligations.IllegalExactlyOutsideTheFormats := by
  refine ⟨fun w rest => ?_, fun w r r' hr hr' => Row.eq_of_selects hr hr'⟩
  rw [eq_headWord w, legalHead_iff]
  constructor
  · rintro h ⟨op, ho, ha, hb⟩
    rw [ho, decode_headWord op rest ha hb] at h
    exact assemble_ne_illegal op _ _ rest h
  · exact fun h => decode_illegal rest (not_exists.mp h)

/-- Settles O4: fixed words, which the decoder evaluates. -/
theorem sampleWordsDecode : Obligations.SampleWordsDecode := by
  unfold Obligations.SampleWordsDecode
  decide

end Sys2Proof
end

section
/-! The part of the invariant that the encoder engine carries, and the operations of the transport, which leave the engine
alone. -/

namespace Sys2Proof.Machine

/-- What `State.Inv` says of the encoder engine: encoders, axes, pending events, settings and the guard. -/
structure State.EngineOk (s : State) : Prop where
  arrays : s.ArraysOk
  encoders : s.EncodersOk
  binding : s.BindingOk
  pending : s.PendingOk
  settings : s.SettingsOk
  guard : s.guard = false

theorem State.Inv.engineOk {s : State} (h : s.Inv) : s.EngineOk :=
  ⟨h.arrays, h.encoders, h.binding, h.pending, h.settings, h.guard⟩

theorem State.EngineOk.inv {s : State} (h : s.EngineOk) (hb : s.BuffersOk) (ht : s.TransmitOk) (hr : s.ReaderOk) :
    s.Inv :=
  ⟨hb, ht, hr, h.arrays, h.encoders, h.binding, h.pending, h.settings, h.guard⟩

/-- It depends on the engine, the parameters and the guard alone. -/
theorem State.EngineOk.congr {s t : State} (h : s.EngineOk) (hc : t.cfg = s.cfg) (he : SameEngine s t)
    (hg : t.guard = s.guard) : t.EngineOk := by
  obtain ⟨⟨hencs, huniv, hmsg, -⟩, ⟨haxes, hpend⟩, hset⟩ := he
  obtain ⟨h1, h2, h3, h4, h5, h6⟩ := h
  simp only [State.ArraysOk, State.EncodersOk, State.BindingOk, State.PendingOk, State.SettingsOk, State.enc, State.axis,
    State.setting] at h1 h2 h3 h4 h5
  constructor <;>
    simp only [State.ArraysOk, State.EncodersOk, State.BindingOk, State.PendingOk, State.SettingsOk, State.enc,
      State.axis, State.setting, hc, hencs, huniv, hmsg, haxes, hpend, hset, hg] <;> assumption

/-- The operations that work on the encoder engine (41, 42, 43 section 2). -/
def worksOnEngine : Instr → Bool
  | .encEvent _ _ _ _ | .executeRealtime | .settingWrite _ _ | .settingsRestore => true
  | .putByte _ | .getByte | .txCount | .rxCount | .rxFree | .rxOverflow | .resumeInput | .isrRx _ _ _ | .isrTx
  | .isrRxErr _ _ | .chanTxDone | .settingRead _ => false

/-- Every other operation leaves the engine and the guard alone. -/
theorem exec_sameEngine {i : Instr} {s t : State} (hi : worksOnEngine i = false) (h : exec i s = .next t) :
    SameEngine s t ∧ t.guard = s.guard := by
  have same : SameEngine s s ∧ s.guard = s.guard := ⟨⟨⟨rfl, rfl, rfl, rfl⟩, ⟨rfl, rfl⟩, rfl⟩, rfl⟩
  cases i with
  | putByte d => rw [(execPutByte_frame h).1]; exact same
  | getByte => rw [execGetByte_frame h]; exact same
  | resumeInput => rw [execResumeInput_frame h]; exact same
  | isrRx d ovr fe => rw [execIsrRx_frame (ovr := ovr) (fe := fe) h]; exact same
  | isrTx => rw [execIsrTx_frame h]; exact same
  | settingRead id => rw [execSettingRead_frame h]; exact same
  | txCount | rxCount | rxFree | rxOverflow | isrRxErr | chanTxDone => cases h; exact same
  | encEvent | executeRealtime | settingWrite | settingsRestore => contradiction

/-- No operation writes the parameters (00_scope R19). -/
theorem exec_cfg {i : Instr} {s t : State} (h : exec i s = .next t) : t.cfg = s.cfg := by
  cases i with
  | putByte d => rw [(execPutByte_frame h).1]
  | getByte => rw [execGetByte_frame h]
  | resumeInput => rw [execResumeInput_frame h]
  | isrRx d ovr fe => rw [execIsrRx_frame (ovr := ovr) (fe := fe) h]
  | isrTx => rw [execIsrTx_frame h]
  | encEvent e ev p v => rw [execEncEvent_frame h]
  | executeRealtime => rw [execExecuteRealtime_frame h]
  | settingRead id => rw [execSettingRead_frame h]
  | settingWrite id v => rw [execSettingWrite_frame h]
  | txCount | rxCount | rxFree | rxOverflow | isrRxErr | chanTxDone | settingsRestore => cases h; rfl

/-! ### The transport's own parts of the invariant -/

/-- txie follows the transmit buffer (40 R166): PUT_BYTE sets it with a byte queued, ISR_TX clears it with the last one
sent, and no other operation touches either. -/
theorem exec_keeps_transmitOk {i : Instr} {s t : State} (hs : s.TransmitOk) (h : exec i s = .next t) : t.TransmitOk := by
  cases i with
  | putByte d =>
    replace h : execPutByte d s = .next t := h
    unfold execPutByte at h
    split at h
    · cases h; exact hs
    · split at h
      · cases h; rw [State.waitForSpace_eq]; split <;> exact hs
      · next hfull =>
        cases h
        have hne : ringNext s.tx.head s.cfg.txCap ≠ s.tx.tail := by simpa [State.txFull, ringFull] using hfull
        simpa [State.TransmitOk, State.enqueueTx, State.txEmpty, Ring.push, ringEmpty] using hne
  | isrTx =>
    replace h : execIsrTx s = .next t := h
    unfold execIsrTx at h
    split at h
    · next hempty => cases h; simpa [State.TransmitOk, State.txEmpty] using hempty
    · next hempty =>
      cases h
      have hie : s.txie = true := by rw [hs]; simpa using hempty
      unfold State.quietIfEmpty
      split
      · next he => simpa [State.TransmitOk, State.txEmpty] using he
      · next he => simpa [State.TransmitOk, State.txEmpty, State.sendByte, hie] using he
  | getByte => rw [execGetByte_frame h]; exact hs
  | resumeInput => rw [execResumeInput_frame h]; exact hs
  | isrRx d ovr fe => rw [execIsrRx_frame (ovr := ovr) (fe := fe) h]; exact hs
  | encEvent e ev p v => rw [execEncEvent_frame h]; exact hs
  | executeRealtime => rw [execExecuteRealtime_frame h]; exact hs
  | settingRead id => rw [execSettingRead_frame h]; exact hs
  | settingWrite id v => rw [execSettingWrite_frame h]; exact hs
  | txCount | rxCount | rxFree | rxOverflow | isrRxErr | chanTxDone | settingsRestore => cases h; exact hs

/-- The reader is redirected exactly during an interception, whose snapshot was taken outside one (10_state R37, R39). -/
theorem exec_keeps_readerOk {i : Instr} {s t : State} (hs : s.ReaderOk) (h : exec i s = .next t) : t.ReaderOk := by
  cases i with
  | isrRx d ovr fe =>
    replace h : execIsrRx d ovr fe s = .next t := h
    unfold execIsrRx at h
    split at h
    · next hint =>
      cases h
      have hb : s.rx.backup = false := by simp only [State.intercepts, Bool.and_eq_true] at hint; simpa using hint.2
      exact ⟨iff_of_true rfl rfl, fun _ => hb⟩
    · split at h
      · cases h; exact hs
      · cases h; unfold State.enqueueRx; split <;> exact hs
  | resumeInput =>
    replace h : execResumeInput s = .next t := h
    unfold execResumeInput at h
    split at h
    · next hb =>
      cases h
      have hbak : s.bak.backup = false := hs.2 hb
      exact ⟨by simp [hbak], by simp [hbak]⟩
    · next hb => cases h; exact ⟨by simpa using hb, fun h => absurd h hb⟩
  | putByte d => rw [(execPutByte_frame h).1]; exact hs
  | getByte => rw [execGetByte_frame h]; exact hs
  | isrTx => rw [execIsrTx_frame h]; exact hs
  | encEvent e ev p v => rw [execEncEvent_frame h]; exact hs
  | executeRealtime => rw [execExecuteRealtime_frame h]; exact hs
  | settingRead id => rw [execSettingRead_frame h]; exact hs
  | settingWrite id v => rw [execSettingWrite_frame h]; exact hs
  | txCount | rxCount | rxFree | rxOverflow | isrRxErr | chanTxDone | settingsRestore => cases h; exact hs

end Sys2Proof.Machine
end

section
/-! ENC_EVENT and the settings operations keep the engine's part of the invariant: click handling rebinds within the
rules of R45, R46 and R53, and the rest of an event moves one encoder and marks its own axis. -/

namespace Sys2Proof.Machine

/-! ### What the rest of an event does, after its click -/

/-- The axes are as before, or the axis of encoder `e` is marked, in its event set but for lock and reset (10_state R58). -/
def State.MarksAxisOf (e : Nat) (s t : State) : Prop :=
  (t.axes = s.axes ∧ t.pendingAxes = s.pendingAxes) ∨
  ∃ (k : Nat) (f : AxisEvents → AxisEvents), (s.enc e).axis = some k ∧ (∀ x, (f x).lock = x.lock ∧ (f x).reset = x.reset) ∧
    t.axes = s.axes.modify k (fun x => { x with event := f x.event }) ∧
    t.pendingAxes = s.pendingAxes ||| (1#16 <<< k)

/-- Encoder `e` moves, and its axis is marked at most; no binding changes. -/
structure State.Moves (e : Nat) (s t : State) : Prop where
  cfg : t.cfg = s.cfg
  universal : t.universal = s.universal
  message : t.modeMsgPending = s.modeMsgPending
  settings : t.settings = s.settings
  guard : t.guard = s.guard ∨ t.guard = false
  encs : ∃ f : Encoder → Encoder, (∀ x : Encoder, x.Keeps (f x)) ∧ t.encs = s.encs.modify e f
  axes : s.MarksAxisOf e t

theorem State.Moves.refl (e : Nat) (s : State) : s.Moves e s where
  cfg := rfl
  universal := rfl
  message := rfl
  settings := rfl
  guard := .inl rfl
  encs := ⟨id, fun _ => ⟨rfl, rfl, rfl⟩, (modify_same _ _ _ default rfl).symm⟩
  axes := .inl ⟨rfl, rfl⟩

/-- A further change of the encoder alone. -/
theorem State.Moves.modEnc {e : Nat} {s t : State} (h : s.Moves e t) (g : Encoder → Encoder)
    (hg : ∀ x : Encoder, x.Keeps (g x)) : s.Moves e (t.modEnc e g) := by
  obtain ⟨h1, h2, h3, h4, h5, ⟨f, hf, he⟩, h7⟩ := h
  refine ⟨h1, h2, h3, h4, h5, ⟨fun x => g (f x), fun x => ?_, ?_⟩, h7⟩
  · obtain ⟨f1, f2, f3⟩ := hf x
    obtain ⟨g1, g2, g3⟩ := hg (f x)
    exact ⟨g1.trans f1, g2.trans f2, g3.trans f3⟩
  · rw [State.modEnc_encs, he, modify_modify]

theorem State.Moves.setEncPosition {e : Nat} {s t : State} (h : s.Moves e t) (p : I32) : s.Moves e (t.setEncPosition e p) :=
  h.modEnc _ (fun _ => ⟨rfl, rfl, rfl⟩)

/-- Outputs and the ratchet are no part of it. -/
theorem State.Moves.outputs {e : Nat} {s t u : State} (h : s.Moves e t)
    (hu : u = { t with rapidLevel := u.rapidLevel, out := u.out }) : s.Moves e u := by
  rw [hu]
  exact ⟨h.cfg, h.universal, h.message, h.settings, h.guard, h.encs, h.axes⟩

/-- A mark of the encoder's own axis, where none of its axis is marked yet. -/
theorem State.Moves.trans_mark {e k : Nat} {s t : State} (h : s.Moves e t) (ha : t.axes = s.axes)
    (hp : t.pendingAxes = s.pendingAxes) (hk : (s.enc e).axis = some k) {f : AxisEvents → AxisEvents}
    (hf : ∀ x, (f x).lock = x.lock ∧ (f x).reset = x.reset) : s.Moves e (t.markAxis k f) where
  cfg := h.cfg
  universal := h.universal
  message := h.message
  settings := h.settings
  guard := .inr rfl
  encs := h.encs
  axes := .inr ⟨k, f, hk, hf, congrArg (·.modify k (fun x => { x with event := f x.event })) ha,
    congrArg (· ||| (1#16 <<< k)) hp⟩

/-- MPG_MARK (41 R188) after the velocity is recorded. -/
theorem State.Moves.mpgMark {e : Nat} {s t : State} (h : s.Moves e t) (ha : t.axes = s.axes)
    (hp : t.pendingAxes = s.pendingAxes) (hx : (t.enc e).axis = (s.enc e).axis) (p : I32) (v : U32) :
    s.Moves e (t.mpgMark e p v) := by
  unfold State.mpgMark
  split
  · exact h.setEncPosition p
  · next k hk =>
    exact (h.trans_mark ha hp (hx ▸ hk) (fun x => by split <;> exact ⟨rfl, rfl⟩)).setEncPosition p

/-- Position-changed handling (41 R180). -/
theorem State.handlePosition_moves {s t : State} {e : Nat} {p : I32} {v : U32} (h : s.handlePosition e p v = .ok t) :
    s.Moves e t := by
  have hvel : s.Moves e (s.modEnc e (fun x => { x with velocity := v })) :=
    (State.Moves.refl e s).modEnc _ (fun _ => ⟨rfl, rfl, rfl⟩)
  have hx : ((s.modEnc e (fun x => { x with velocity := v })).enc e).axis = (s.enc e).axis :=
    State.enc_modEnc_keep s e e _ (fun x => x.axis) (fun _ => rfl)
  unfold State.handlePosition at h
  dsimp only at h
  split at h
  · obtain ⟨nOld, nNew, -, -, rfl⟩ := State.fineSteps_ok h
    exact (hvel.outputs rfl).setEncPosition p
  · obtain ⟨nOld, nNew, -, -, rfl⟩ := State.fineSteps_ok h
    exact (hvel.outputs rfl).setEncPosition p
  · cases h
    unfold State.rapidRatchet
    dsimp only
    split
    · exact (hvel.outputs (State.turnRatchet_frame _ _)).setEncPosition p
    · exact hvel
  · cases h; exact hvel.mpgMark rfl rfl hx p v
  · cases h; exact hvel.mpgMark rfl rfl hx p v
  · cases h; exact hvel

/-- Non-movement events (41 R190 to R193). -/
theorem State.handleNonMovement_moves (s : State) (e : Nat) (ev : EncEvents) : s.Moves e (s.handleNonMovement e ev) := by
  have hrefl := State.Moves.refl e s
  unfold State.handleNonMovement
  split
  · next hev =>
    split
    · unfold State.overrideReset
      dsimp only
      split <;> exact (hrefl.setEncPosition 0).outputs rfl
    · split
      · cases hk : (s.enc e).axis with
        | none => unfold State.mpgEvents; rw [hk]; exact hrefl
        | some k =>
          rw [State.mpgEvents_eq_markAxis hk (by simpa using hev)]
          exact hrefl.trans_mark rfl rfl hk (fun _ => ⟨rfl, rfl⟩)
      · exact hrefl
  · exact hrefl

/-! ### It keeps the engine's invariant -/

theorem Encoder.Keeps.ok {n : Nat} {x y : Encoder} (h : x.Keeps y) (hx : x.Ok n) : y.Ok n := by
  obtain ⟨hm, ha, he⟩ := h
  unfold Encoder.Ok at hx ⊢
  rw [hm, ha, he]
  exact hx

/-- The bound axis of a well-formed encoder exists (10_state R46). -/
theorem Encoder.Ok.axis_lt {n k : Nat} {x : Encoder} (hx : x.Ok n) (hk : x.axis = some k) : k < n := by
  obtain ⟨-, h⟩ := hx
  rw [hk] at h
  cases hm : x.mode with
  | universal => rw [hm] at h; exact h.elim
  | feedRate | rapidRate | spindleRPM => rw [hm] at h; cases h
  | mpg => rw [hm] at h; obtain ⟨c, hc, he⟩ := h; cases he; exact hc
  | mpgAxis j => rw [hm] at h; obtain ⟨hj, he⟩ := h; cases he; exact hj

theorem State.Moves.enc {e : Nat} {s t : State} (h : s.Moves e t) (e' : Nat) : (s.enc e').Keeps (t.enc e') := by
  obtain ⟨f, hf, he⟩ := h.encs
  unfold State.enc
  rw [he, getD_modify]
  split
  · exact hf _
  · exact ⟨rfl, rfl, rfl⟩

theorem getLsbD_bit (k j : Nat) : (1#16 <<< k).getLsbD j = decide (j = k ∧ j < 16) := by
  rw [BitVec.getLsbD_shiftLeft, Bool.eq_iff_iff]
  simp only [Bool.and_eq_true, decide_eq_true_eq, Bool.not_eq_true', decide_eq_false_iff_not, BitVec.getLsbD_one]
  omega

theorem getLsbD_setBit (m : BitVec 16) (k j : Nat) :
    (m ||| (1#16 <<< k)).getLsbD j = (m.getLsbD j || decide (j = k ∧ j < 16)) := by
  rw [BitVec.getLsbD_or, getLsbD_bit]

/-- Only event sets of axes change. -/
theorem State.MarksAxisOf.keeps {e : Nat} {s t : State} (h : s.MarksAxisOf e t) (j : Nat) :
    (s.axis j).KeepsAllButEvent (t.axis j) := by
  rcases h with ⟨ha, -⟩ | ⟨k, f, -, -, ha, -⟩
  · rw [State.axis_congr ha]; rfl
  · unfold State.axis
    rw [ha, getD_modify]
    split <;> rfl

/-- Marking an existing axis keeps the pending mask and the event sets consistent (10_state R56, R58). -/
theorem State.MarksAxisOf.pendingOk {e : Nat} {s t : State} (h : s.MarksAxisOf e t) (hc : t.cfg = s.cfg)
    (hn : s.cfg.nAxis ≤ 16) (hk : ∀ k, (s.enc e).axis = some k → k < s.cfg.nAxis) (hp : s.PendingOk) : t.PendingOk := by
  obtain ⟨hhigh, hclear, hnever⟩ := hp
  have hkeep := h.keeps
  rcases h with ⟨ha, hm⟩ | ⟨k, f, hx, hf, ha, hm⟩
  · unfold State.PendingOk
    simp only [State.axis_congr ha, hm, hc]
    exact ⟨hhigh, hclear, hnever⟩
  · have hkn := hk k hx
    have haxis (j : Nat) : t.axis j =
        if k = j ∧ j < s.axes.length then { s.axis j with event := f (s.axis j).event } else s.axis j := by
      unfold State.axis
      rw [ha, getD_modify]
    unfold State.PendingOk
    rw [hc, hm]
    refine ⟨fun j hj => ?_, fun j hj hbit => ?_, fun j hj => ?_⟩
    · rw [getLsbD_setBit, hhigh j hj]
      simp only [Bool.false_or, decide_eq_false_iff_not]
      omega
    · rw [getLsbD_setBit, Bool.or_eq_false_iff, decide_eq_false_iff_not] at hbit
      rw [haxis, if_neg (by omega)]
      exact hclear j hj hbit.1
    · obtain ⟨h1, h2, h3⟩ := hnever j hj
      rw [haxis]
      split
      · exact ⟨(hf _).1.trans h1, (hf _).2.trans h2, h3⟩
      · exact ⟨h1, h2, h3⟩

/-- What moves one encoder and marks its axis keeps the engine's invariant. -/
theorem State.Moves.engineOk {e : Nat} {s t : State} (h : s.Moves e t) (hn : s.cfg.nAxis ≤ 16) (he : e < s.cfg.nEnc)
    (hs : s.EngineOk) : t.EngineOk := by
  obtain ⟨⟨hle, hla, hls⟩, ⟨hok, huniv, hmsg⟩, ⟨hback, hexcl⟩, hpend, hset, hg⟩ := hs
  have hmode (e' : Nat) : (t.enc e').mode = (s.enc e').mode := (h.enc e').1
  have haxis (e' : Nat) : (t.enc e').axis = (s.enc e').axis := (h.enc e').2.1
  have henc (k : Nat) : (t.axis k).enc = (s.axis k).enc := by rw [h.axes.keeps k]
  constructor
  case arrays =>
    unfold State.ArraysOk
    obtain ⟨f, -, hf⟩ := h.encs
    rw [h.cfg, h.settings, hf, List.length_modify]
    refine ⟨hle, ?_, hls⟩
    rcases h.axes with ⟨ha, -⟩ | ⟨k, f, -, -, ha, -⟩
    · rw [ha, hla]
    · rw [ha, List.length_modify, hla]
  case encoders =>
    unfold State.EncodersOk
    rw [h.cfg, h.universal, h.message]
    simp only [hmode]
    exact ⟨fun e' he' => (h.enc e').ok (hok e' he'), huniv, hmsg⟩
  case binding =>
    unfold State.BindingOk
    rw [h.cfg]
    simp only [hmode, haxis, henc]
    exact ⟨hback, hexcl⟩
  case pending => exact h.axes.pendingOk h.cfg hn (fun k hk => (hok e he).axis_lt hk) hpend
  case settings =>
    unfold State.SettingsOk
    simp only [State.setting_congr h.settings, h.cfg]
    exact hset
  case guard => exact h.guard.elim (·.trans hg) id

/-! ### Clicks -/

theorem Encoder.Ok.override {n : Nat} {x : Encoder} (hx : x.Ok n) (hm : isOverride x.mode = true) : x.axis = none := by
  obtain ⟨-, h⟩ := hx
  cases hmode : x.mode with
  | feedRate | rapidRate | spindleRPM => rw [hmode] at h; exact h
  | universal | mpg | mpgAxis => rw [hmode] at hm; cases hm

/-- UNIVERSAL_CYCLE stays inside the override modes (41 R176). -/
theorem isOverride_nextTarget (m : Mode) : isOverride (nextTarget m) = isOverride m := by cases m <;> rfl

theorem isMpg_nextTarget (m : Mode) : isMpg (nextTarget m) = isMpg m := by cases m <;> rfl

theorem Encoder.ok_of_override {n : Nat} {x : Encoder} (he : x.event = ⟨false, false, false⟩) (ha : x.axis = none)
    (hm : isOverride x.mode = true) : x.Ok n := by
  refine ⟨he, ?_⟩
  cases hmode : x.mode with
  | feedRate | rapidRate | spindleRPM => exact ha
  | universal | mpg | mpgAxis => rw [hmode] at hm; cases hm

theorem State.universalCycle_engineOk {s : State} {e : Nat} (hu : s.universal = some e) (hs : s.EngineOk) :
    (s.universalCycle e).EngineOk := by
  obtain ⟨⟨hle, hla, hls⟩, ⟨hok, huniv, -⟩, ⟨hback, hexcl⟩, hpend, hset, hg⟩ := hs
  obtain ⟨hlt, hover⟩ := huniv e hu
  have henc (e' : Nat) : (s.universalCycle e).enc e' =
      if e = e' ∧ e' < s.encs.length then { s.enc e' with mode := nextTarget (s.enc e').mode } else s.enc e' :=
    State.enc_modEnc s e e' _
  have hmpg (e' : Nat) : isMpg ((s.universalCycle e).enc e').mode = isMpg (s.enc e').mode := by
    rw [henc]; split
    · exact isMpg_nextTarget _
    · rfl
  have haxis (e' : Nat) : ((s.universalCycle e).enc e').axis = (s.enc e').axis := by rw [henc]; split <;> rfl
  have hself : (s.universalCycle e).enc e = { s.enc e with mode := nextTarget (s.enc e).mode } := by
    rw [henc, if_pos ⟨rfl, hle ▸ hlt⟩]
  have hother (e' : Nat) (hne : e' ≠ e) : (s.universalCycle e).enc e' = s.enc e' := by
    rw [henc, if_neg (fun h => hne h.1.symm)]
  have hselfOver : isOverride ((s.universalCycle e).enc e).mode = true := by
    rw [hself]; exact (isOverride_nextTarget _).trans hover
  constructor
  case arrays => exact ⟨(List.length_modify ..).trans hle, hla, hls⟩
  case encoders =>
    refine ⟨fun e' he' => ?_, fun u hu' => ?_, fun _ => by rw [State.universalCycle]; simp [hu]⟩
    · by_cases hne : e' = e
      · subst hne
        refine Encoder.ok_of_override ?_ ((haxis e').trans ((hok e' he').override hover)) hselfOver
        rw [hself]; exact (hok e' he').1
      · rw [hother e' hne]; exact hok e' he'
    · obtain rfl : e = u := Option.some.inj (hu.symm.trans hu')
      exact ⟨hlt, hselfOver⟩
  case binding =>
    unfold State.BindingOk
    simp only [hmpg, haxis]
    refine ⟨hback, fun e1 e2 h1 h2 hm => ?_⟩
    have hne : e1 ≠ e := by rintro rfl; rw [hm] at hselfOver; cases hselfOver
    rw [hother e1 hne] at hm
    exact hexcl e1 e2 h1 h2 hm
  case pending => exact hpend
  case settings => exact hset
  case guard => exact hg

/-- The axis an MPG (all axes) encoder at axis `c` moves to (41 R177). -/
def State.nextAxis (s : State) (c : Nat) : Nat := (c + 1) % s.cfg.nAxis

theorem State.mpgCursor_enc {s : State} {e c : Nat} (hc : (s.enc e).axis = some c) (he : e < s.encs.length) (e' : Nat) :
    (s.mpgCursor e).enc e' =
      if e' = e then { s.enc e' with axis := some (s.nextAxis c), position := 0 } else s.enc e' := by
  rw [State.mpgCursor_eq s e c hc]
  unfold State.enc
  rw [modify_modify, getD_modify]
  by_cases h : e' = e
  · subst h
    rw [if_pos ⟨rfl, he⟩, if_pos rfl]
    rfl
  · rw [if_neg (fun x => h x.1.symm), if_neg h]

theorem State.mpgCursor_axis {s : State} {e c : Nat} (hc : (s.enc e).axis = some c)
    (hn : s.nextAxis c < s.axes.length) (hcl : c < s.axes.length) (k : Nat) :
    (s.mpgCursor e).axis k =
      if k = s.nextAxis c then { s.axis k with enc := some e, position := 0 }
      else if k = c then { s.axis k with enc := none } else s.axis k := by
  rw [State.mpgCursor_eq s e c hc]
  unfold State.axis
  change ((List.modify (s.axes.modify c _) (s.nextAxis c) _).modify (s.nextAxis c) _).getD k default = _
  rw [modify_modify, getD_modify, getD_modify, List.length_modify]
  by_cases h1 : k = s.nextAxis c
  · rw [if_pos ⟨h1.symm, h1 ▸ hn⟩, if_pos h1]
    split <;> rfl
  · rw [if_neg (fun h => h1 h.1.symm), if_neg h1]
    by_cases h2 : k = c
    · rw [if_pos ⟨h2.symm, h2 ▸ hcl⟩, if_pos h2]
    · rw [if_neg (fun h => h2 h.1.symm), if_neg h2]

/-- An MPG (all axes) encoder is bound to an axis that exists (10_state R46). -/
theorem State.EngineOk.axis_of_mpg {s : State} {e : Nat} (hs : s.EngineOk) (he : e < s.cfg.nEnc)
    (hm : (s.enc e).mode = .mpg) : ∃ c, c < s.cfg.nAxis ∧ (s.enc e).axis = some c := by
  have h := (hs.encoders.1 e he).2
  rw [hm] at h
  exact h

/-- The cursor moves the back-reference with the axis of its encoder, the only one in an MPG mode (41 R177, 70 R301). -/
theorem State.mpgCursor_back {s : State} {e k e' : Nat} (hs : s.EngineOk) (he : e < s.cfg.nEnc)
    (hm : (s.enc e).mode = .mpg) (hk : k < s.cfg.nAxis) :
    ((s.mpgCursor e).axis k).enc = some e' ↔
      e' < s.cfg.nEnc ∧ ((s.mpgCursor e).enc e').axis = some k ∧ isMpg (s.enc e').mode = true := by
  obtain ⟨c, hcn, hc⟩ := hs.axis_of_mpg he hm
  obtain ⟨⟨hle, hla, -⟩, -, ⟨hback, hexcl⟩, -, -, -⟩ := hs
  have hn : s.nextAxis c < s.cfg.nAxis := Nat.mod_lt _ (by omega)
  rw [State.mpgCursor_axis hc (hla ▸ hn) (hla ▸ hcn), State.mpgCursor_enc hc (hle ▸ he)]
  have hold := hback k e' hk
  by_cases hee : e' = e
  · subst hee
    rw [hc] at hold
    by_cases h1 : k = s.nextAxis c
    · simp [h1, he, hm, isMpg]
    · by_cases h2 : k = c
      · simp [h2, h2 ▸ h1, Ne.symm (h2 ▸ h1)]
      · simp [h1, h2, Ne.symm h1, hold, Ne.symm h2]
  · have hno : ¬ (e' < s.cfg.nEnc ∧ (s.enc e').axis = some k ∧ isMpg (s.enc e').mode = true) :=
      fun h => hee (hexcl e e' he h.1 hm h.2.2)
    rw [if_neg hee, iff_false_right hno]
    split
    · simpa using Ne.symm hee
    · split
      · simp
      · rw [hold]; exact hno

/-- The cursor rebinds an MPG (all axes) encoder to its next axis (41 R177). -/
theorem State.mpgCursor_engineOk {s : State} {e : Nat} (he : e < s.cfg.nEnc) (hm : (s.enc e).mode = .mpg)
    (hs : s.EngineOk) : (s.mpgCursor e).EngineOk := by
  have hcursor (k e' : Nat) (hk : k < s.cfg.nAxis) := State.mpgCursor_back (e' := e') hs he hm hk
  obtain ⟨c, hcn, hc⟩ := hs.axis_of_mpg he hm
  obtain ⟨⟨hle, hla, hls⟩, ⟨hok, huniv, hmsg⟩, ⟨-, hexcl⟩, ⟨hhigh, hclear, hnever⟩, hset, hg⟩ := hs
  have hn : s.nextAxis c < s.cfg.nAxis := Nat.mod_lt _ (by omega)
  have henc := State.mpgCursor_enc hc (hle ▸ he)
  have hmode (e' : Nat) : ((s.mpgCursor e).enc e').mode = (s.enc e').mode := by rw [henc]; split <;> rfl
  have hevent (k : Nat) : ((s.mpgCursor e).axis k).event = (s.axis k).event ∧
      ((s.mpgCursor e).axis k).flags = (s.axis k).flags := by
    rw [State.mpgCursor_axis hc (hla ▸ hn) (hla ▸ hcn)]
    split
    · exact ⟨rfl, rfl⟩
    · split <;> exact ⟨rfl, rfl⟩
  have hframe := State.mpgCursor_eq s e c hc
  constructor
  case arrays =>
    rw [hframe]
    exact ⟨by simpa using hle, by simpa using hla, hls⟩
  case encoders =>
    unfold State.EncodersOk
    simp only [hmode]
    rw [State.mpgCursor_frame]
    refine ⟨fun e' he' => ?_, huniv, hmsg⟩
    change Encoder.Ok s.cfg.nAxis ((s.mpgCursor e).enc e')
    rw [henc]
    split
    · next h =>
      subst h
      refine ⟨(hok e' he').1, ?_⟩
      rw [hm]
      exact ⟨_, hn, rfl⟩
    · exact hok e' he'
  case binding =>
    have hcfg : (s.mpgCursor e).cfg = s.cfg := by rw [State.mpgCursor_frame]
    unfold State.BindingOk
    rw [hcfg]
    simp only [hmode]
    exact ⟨hcursor, hexcl⟩
  case pending =>
    unfold State.PendingOk
    simp only [hevent]
    rw [State.mpgCursor_frame]
    exact ⟨hhigh, hclear, hnever⟩
  case settings => rw [hframe]; exact hset
  case guard => rw [hframe]; exact hg

theorem State.handleClick_engineOk {s : State} {e : Nat} (ev : EncEvents) (he : e < s.cfg.nEnc) (hs : s.EngineOk) :
    (s.handleClick e ev).2.EngineOk := by
  unfold State.handleClick
  split
  · next h => exact State.universalCycle_engineOk (by simp only [Bool.and_eq_true, beq_iff_eq] at h; exact h.2) hs
  · split
    · next h => exact State.mpgCursor_engineOk he (by simp only [Bool.and_eq_true, beq_iff_eq] at h; exact h.2) hs
    · exact hs

/-! ### Whole operations -/

/-- After its click, an encoder event moves its encoder. -/
theorem State.takeEncEvent_moves {s t : State} {e : Nat} {ev : EncEvents} {p : I32} {v : U32}
    (h : s.takeEncEvent e ev p v = .ok t) : (s.handleClick e ev).2.Moves e t := by
  unfold State.takeEncEvent at h
  dsimp only at h
  split at h
  · exact State.handlePosition_moves h
  · cases h; exact State.handleNonMovement_moves _ e _

/-- An encoder event of a known encoder, before its event set is consumed. -/
theorem State.takeEncEvent_engineOk {s t : State} {e : Nat} {ev : EncEvents} {p : I32} {v : U32}
    (h : s.takeEncEvent e ev p v = .ok t) (hn : s.cfg.nAxis ≤ 16) (he : e < s.cfg.nEnc) (hs : s.EngineOk) : t.EngineOk := by
  have hcfg : (s.handleClick e ev).2.cfg = s.cfg := by rw [State.handleClick_frame]
  exact (State.takeEncEvent_moves h).engineOk (hcfg ▸ hn) (hcfg ▸ he) (State.handleClick_engineOk ev he hs)

/-- Consuming an event set that is empty changes nothing. -/
theorem State.consumeEvents_of_none {s : State} {e : Nat} (h : (s.enc e).event = ⟨false, false, false⟩) :
    s.consumeEvents e = s := by
  have hsame : s.encs.modify e (fun x => { x with event := ⟨false, false, false⟩ }) = s.encs :=
    modify_same _ _ _ default (by rw [← h]; rfl)
  rw [State.consumeEvents, State.modEnc, hsame]

/-- An ENC_EVENT with a next state names an encoder, and either does nothing or takes the event and consumes its set. -/
theorem execEncEvent_next {e : Nat} {ev : BitVec 3} {p : I32} {v : U32} {s t : State}
    (h : execEncEvent e ev p v s = .next t) :
    e < s.cfg.nEnc ∧ (t = s ∨ ∃ u, s.takeEncEvent e (eventsOfBits ev) p v = .ok u ∧ t = u.consumeEvents e) := by
  unfold execEncEvent raiseFault outcomeOf at h
  split at h
  · cases h
  · next he =>
    refine ⟨Nat.lt_of_not_le he, ?_⟩
    split at h
    · cases h; exact .inl rfl
    · cases hx : s.takeEncEvent e (eventsOfBits ev) p v with
      | error f => rw [hx] at h; cases h
      | ok u => rw [hx] at h; cases h; exact .inr ⟨u, rfl, rfl⟩

theorem execEncEvent_engineOk {e : Nat} {ev : BitVec 3} {p : I32} {v : U32} {s t : State} (hn : s.cfg.nAxis ≤ 16)
    (h : execEncEvent e ev p v s = .next t) (hs : s.EngineOk) : t.EngineOk := by
  obtain ⟨he, rfl | ⟨u, hu, rfl⟩⟩ := execEncEvent_next h
  · exact hs
  · have hok := State.takeEncEvent_engineOk hu hn he hs
    have hcfg : u.cfg = s.cfg := by rw [State.takeEncEvent_frame hu]
    have hnone : (u.enc e).event = ⟨false, false, false⟩ := (hok.encoders.1 e (hcfg ▸ he)).1
    rw [State.consumeEvents_of_none hnone]
    exact hok

/-- Only the settings and the results change, and the settings keep their size and stay modes. -/
theorem State.EngineOk.withSettings {s t : State} (hs : s.EngineOk)
    (ht : t = { s with settings := t.settings, res0 := t.res0, res1 := t.res1 })
    (hl : t.settings.length = s.cfg.nEnc) (hm : t.SettingsOk) : t.EngineOk := by
  have harr : t.ArraysOk := by rw [ht]; exact ⟨hs.arrays.1, hs.arrays.2.1, hl⟩
  rw [ht] at hm harr ⊢
  exact ⟨harr, hs.encoders, hs.binding, hs.pending, hm, hs.guard⟩

/-- A valid value keeps the stored mode a mode (43 R251). -/
theorem settingSet_mode_le {p : Params} {f : SettingField} {v : U32} {r : Settings} (hv : settingValid p f v = true)
    (hr : r.mode.toNat ≤ 4 + p.nAxis) : (settingSet r f v).mode.toNat ≤ 4 + p.nAxis := by
  cases f with
  | mode => simpa [settingValid, settingSet] using hv
  | cpr | cpd | dclick => exact hr

theorem execSettingWrite_engineOk {id : Nat} {v : U32} {s t : State} (h : execSettingWrite id v s = .next t)
    (hs : s.EngineOk) : t.EngineOk := by
  have same : SameEngine s s := ⟨⟨rfl, rfl, rfl, rfl⟩, ⟨rfl, rfl⟩, rfl⟩
  unfold execSettingWrite at h
  split at h
  · cases h; exact hs.congr rfl same rfl
  · next e f hid =>
    split at h
    · next hvalid =>
      cases h
      refine hs.withSettings rfl ((List.length_modify ..).trans hs.arrays.2.2) (fun e' he' => ?_)
      change ((s.modSetting e (fun r => settingSet r f v)).setting e').mode.toNat ≤ 4 + s.cfg.nAxis
      rw [State.setting_modSetting]
      split
      · exact settingSet_mode_le hvalid (hs.settings e' he')
      · exact hs.settings e' he'
    · cases h; exact hs.congr rfl same rfl

theorem execSettingsRestore_engineOk {s t : State} (h : execSettingsRestore s = .next t) (hs : s.EngineOk) :
    t.EngineOk := by
  cases h
  refine hs.withSettings rfl List.length_replicate (fun e he => ?_)
  have hrec : (List.replicate s.cfg.nEnc Config.restoredSettings).getD e default = Config.restoredSettings :=
    getD_replicate _ _ _ _ he
  exact (congrArg (·.mode.toNat) hrec).trans_le (Nat.zero_le _)

end Sys2Proof.Machine
end

section
/-! EXECUTE_REALTIME keeps the engine's part of the invariant, and with the operations of the transport so does every
step (42, 10_state). -/

namespace Sys2Proof.Machine

theorem getD_range_map {α : Type} (n j : Nat) (f : Nat → α) (d : α) :
    ((List.range n).map f).getD j d = if j < n then f j else d := by
  rw [List.getD_eq_getElem?_getD, List.getElem?_map]
  by_cases hj : j < n <;> simp [hj]

/-! ### The state after the actions, entry by entry -/

theorem State.afterActions_axis (s : State) {k : Nat} (hk : k < s.cfg.nAxis) :
    s.afterActions.axis k =
      if s.pendingAxes.getLsbD k then s.axisAfter s.tickAnswers.1 k else s.axis k :=
  (getD_range_map _ _ _ _).trans (if_pos hk)

theorem State.afterActions_enc (s : State) {e : Nat} (he : e < s.cfg.nEnc) :
    s.afterActions.enc e =
      if s.encoderZeroed s.tickAnswers.1 e then { s.enc e with position := 0 } else s.enc e :=
  (getD_range_map _ _ _ _).trans (if_pos he)

theorem State.afterActions_axis_enc (s : State) {k : Nat} (hk : k < s.cfg.nAxis) :
    (s.afterActions.axis k).enc = (s.axis k).enc := by
  rw [s.afterActions_axis hk]; split <;> rfl

theorem State.afterActions_enc_keeps (s : State) {e : Nat} (he : e < s.cfg.nEnc) :
    (s.enc e).Keeps (s.afterActions.enc e) := by
  rw [s.afterActions_enc he]; split <;> exact ⟨rfl, rfl, rfl⟩

theorem State.afterActions_engineOk {s : State} (hs : s.EngineOk) : s.afterActions.EngineOk := by
  obtain ⟨⟨-, -, hls⟩, ⟨hok, huniv, hmsg⟩, ⟨hback, hexcl⟩, ⟨-, hclear, hnever⟩, hset, -⟩ := hs
  have hmode (e : Nat) (he : e < s.cfg.nEnc) : (s.afterActions.enc e).mode = (s.enc e).mode :=
    (s.afterActions_enc_keeps he).1
  have haxis (e : Nat) (he : e < s.cfg.nEnc) : (s.afterActions.enc e).axis = (s.enc e).axis :=
    (s.afterActions_enc_keeps he).2.1
  constructor
  case arrays => exact ⟨by simp [State.afterActions], by simp [State.afterActions], hls⟩
  case encoders =>
    refine ⟨fun e he => (s.afterActions_enc_keeps he).ok (hok e he), fun u hu => ?_, hmsg⟩
    obtain ⟨hlt, hover⟩ := huniv u hu
    exact ⟨hlt, by rw [hmode u hlt]; exact hover⟩
  case binding =>
    refine ⟨fun k e hk => ?_, fun e e' he he' hm hm' => ?_⟩
    · rw [s.afterActions_axis_enc hk, hback k e hk]
      exact and_congr_right fun he => by rw [hmode e he, haxis e he]
    · rw [hmode e he] at hm
      rw [hmode e' he'] at hm'
      exact hexcl e e' he he' hm hm'
  case pending =>
    refine ⟨fun k _ => BitVec.getLsbD_zero, fun k hk _ => ?_, fun k hk => ?_⟩
    · rw [s.afterActions_axis hk]
      split
      · rfl
      · next hbit => exact hclear k hk (by simpa using hbit)
    · obtain ⟨h1, h2, h3⟩ := hnever k hk
      rw [s.afterActions_axis hk]
      split
      · exact ⟨rfl, rfl, h3⟩
      · exact ⟨h1, h2, h3⟩
  case settings => exact hset
  case guard => rfl

/-! ### The batched move -/

theorem State.accumulate_length {s u : State} {ds ts : List (Nat × I32)} (h : s.accumulate ds = .ok (ts, u)) :
    u.axes.length = s.axes.length := by
  induction ds generalizing s ts with
  | nil => cases h; rfl
  | cons x rest ih =>
    obtain ⟨k, d⟩ := x
    rw [State.accumulate] at h
    split at h
    · cases h
    · split at h
      · cases h
      · next hx => cases h; exact (ih hx).trans (List.length_modify ..)

theorem State.consume_length (s : State) (c : List (Nat × Nat)) : (s.consume c).axes.length = s.axes.length := by
  induction c generalizing s with
  | nil => rfl
  | cons x rest ih => obtain ⟨k, e⟩ := x; exact (ih _).trans (List.length_modify ..)

theorem State.buildCommand_length {s t : State} {ds : List (Nat × I32)} {f : U32} {cmd : MotionCmd}
    (h : s.buildCommand ds f = .ok (cmd, t)) : t.axes.length = s.axes.length := by
  unfold State.buildCommand at h
  split at h
  · have hd : s.drawRelative.2.axes = s.axes := by rw [State.drawRelative_frame]
    unfold State.absMove at h
    generalize s.drawRelative = x at h hd
    obtain ⟨rel, u⟩ := x
    cases rel
    · dsimp only at h
      split at h
      · cases h
      · next hx => cases h; exact (State.accumulate_length hx).trans (congrArg _ hd)
    · cases h; exact congrArg _ hd
  · cases h; rfl

theorem State.move_length {s t : State} {m : List Nat} (h : s.move m = .ok t) : t.axes.length = s.axes.length := by
  unfold State.move at h
  dsimp only at h
  split at h
  · cases h; rfl
  · split at h
    · cases h
    · split at h
      · cases h; rfl
      · split at h
        · cases h
        · next hb =>
          cases h
          rw [State.sendMotion_frame]
          exact (State.consume_length _ _).trans (State.buildCommand_length hb)

theorem State.move_engineOk {s t : State} {m : List Nat} (h : s.move m = .ok t) (hs : s.EngineOk) : t.EngineOk := by
  have haxis := (State.move_entries h).2
  have hlen := State.move_length h
  have hframe := State.move_frame h
  have henc (e : Nat) : t.enc e = s.enc e := State.enc_congr (by rw [hframe]) e
  have hcfg : t.cfg = s.cfg := by rw [hframe]
  have hback (k : Nat) : (t.axis k).enc = (s.axis k).enc := by rw [haxis]
  have hevent (k : Nat) : (t.axis k).event = (s.axis k).event ∧ (t.axis k).flags = (s.axis k).flags := by
    rw [haxis]; exact ⟨rfl, rfl⟩
  obtain ⟨⟨hle, hla, hls⟩, henco, hbind, hpend, hset, hg⟩ := hs
  constructor
  case arrays => unfold State.ArraysOk; rw [hlen, hframe]; exact ⟨hle, hla, hls⟩
  case encoders =>
    unfold State.EncodersOk
    simp only [henc]
    rw [hframe]
    exact henco
  case binding =>
    unfold State.BindingOk
    simp only [henc, hback, hcfg]
    exact hbind
  case pending =>
    unfold State.PendingOk
    simp only [hevent]
    rw [hframe]
    exact hpend
  case settings => rw [hframe]; exact hset
  case guard => rw [hframe]; exact hg

/-! ### The tick -/

theorem State.announceMode_engineOk {s : State} (hs : s.EngineOk) : s.announceMode.EngineOk := by
  rw [State.announceMode_frame]
  obtain ⟨harr, ⟨hok, huniv, -⟩, hbind, hpend, hset, hg⟩ := hs
  exact ⟨harr, ⟨hok, huniv, fun h => absurd h Bool.false_ne_true⟩, hbind, hpend, hset, hg⟩

/-- A tick that drains takes the actions and then moves; one that does not only draws (42 R212 to R220). -/
theorem State.drain_cases {s t : State} (ha : s.ArraysOk) (h : s.drain = .ok t) :
    t = { s with env := t.env } ∨ s.afterActions.move (moveSet s.drawMachineState.2.snapshot) = .ok t := by
  unfold State.drain at h
  split at h
  · cases h; exact .inl rfl
  · dsimp only at h
    rw [State.clearPending_allActions s ha] at h
    split at h
    · split at h
      · next hm =>
        rw [List.isEmpty_iff] at hm
        cases h
        exact .inr (by rw [hm]; rfl)
      · exact .inr h
    · cases h; exact .inl (State.drawMachineState_frame s)

theorem execExecuteRealtime_engineOk {s t : State} (h : execExecuteRealtime s = .next t) (hs : s.EngineOk) :
    t.EngineOk := by
  have hm := State.announceMode_engineOk hs
  have same (u : State) : SameEngine u (u.result 0) := ⟨⟨rfl, rfl, rfl, rfl⟩, ⟨rfl, rfl⟩, rfl⟩
  unfold execExecuteRealtime outcomeOf at h
  cases hx : s.announceMode.drain with
  | error f => rw [hx] at h; cases h
  | ok u =>
    rw [hx] at h
    cases h
    have hu : u.EngineOk := by
      rcases State.drain_cases hm.arrays hx with hu | hu
      · rw [hu]; exact hm.congr rfl ⟨⟨rfl, rfl, rfl, rfl⟩, ⟨rfl, rfl⟩, rfl⟩ rfl
      · exact State.move_engineOk hu (State.afterActions_engineOk hm)
    exact hu.congr rfl (same u) rfl

/-! ### Every operation -/

theorem exec_engineOk {i : Instr} {s t : State} (hn : s.cfg.nAxis ≤ 16) (h : exec i s = .next t) (hs : s.EngineOk) :
    t.EngineOk := by
  cases i with
  | encEvent e ev p v => exact execEncEvent_engineOk hn h hs
  | executeRealtime => exact execExecuteRealtime_engineOk h hs
  | settingWrite id v => exact execSettingWrite_engineOk h hs
  | settingsRestore => exact execSettingsRestore_engineOk h hs
  | putByte | getByte | txCount | rxCount | rxFree | rxOverflow | resumeInput | isrRx | isrTx | isrRxErr | chanTxDone
  | settingRead =>
    obtain ⟨hsame, hg⟩ := exec_sameEngine rfl h
    exact hs.congr (exec_cfg h) hsame hg

theorem exec_keeps_inv {i : Instr} {s t : State} (hs : s.Inv) (h : exec i s = .next t) : t.Inv :=
  (exec_engineOk (Params.nAxis_pos hs.buffers.1).2 h hs.engineOk).inv (exec_keeps_buffersOk hs.buffers h)
    (exec_keeps_transmitOk hs.transmit h) (exec_keeps_readerOk hs.reader h)

/-- Taking an offer changes nothing the invariant speaks of. -/
theorem State.Inv.takeOffer {s : State} (hs : s.Inv) (later : List Agent) (rest : Streams) :
    State.Inv { s with sched := later, streams := rest } :=
  ⟨hs.buffers, hs.transmit, hs.reader, hs.arrays, hs.encoders, hs.binding, hs.pending, hs.settings, hs.guard⟩

/-- Settles O10: a step with a next state runs one operation, and each part of the invariant is kept by every operation. -/
theorem stepKeepsTheInvariant : Obligations.StepKeepsTheInvariant := by
  intro s t hs h
  obtain ⟨i, later, rest, -, -, -, hexec⟩ := step_next h
  exact exec_keeps_inv (hs.takeOffer later rest) hexec

end Sys2Proof.Machine
end

section
/-! The offer of the scheduled agent and how it is judged (60_exceptions R274 to R276, R280), and which operations fault. -/

namespace Sys2Proof.Machine

/-! ### The next step from its offer -/

/-- What an offer makes of the step. -/
def Offer.outcome : Offer → Host.Outcome State Fault Refusal
  | .run i t => exec i t
  | .fault f => .fault f
  | .refused r => .refused r

theorem step_eq_outcome (s : State) : step s = s.nextOffer.outcome := by
  unfold step
  cases s.nextOffer <;> rfl

section Offer

variable {s : State} {a : Agent} {later : List Agent}

/-- With nothing recorded, the step is that of the scheduled agent's offer. -/
theorem step_of_sched (hf : s.fault = none) (hr : s.refused = false) (hs : s.sched = a :: later) :
    step s = (s.offerOf a later).outcome := by
  have hn : s.nextOffer = s.offerOf a later := by unfold State.nextOffer; simp [hf, hr, hs]
  rw [step_eq_outcome, hn]

theorem State.offerOf_illegal {w : Word} (hd : decode (s.streams.ofAgent a) = .illegal w) :
    s.offerOf a later = .fault (.illegalOperation w) := by
  unfold State.offerOf; rw [hd]

theorem State.offerOf_truncated {w : Word} (hd : decode (s.streams.ofAgent a) = .truncated w) :
    s.offerOf a later = .fault (.truncatedOperation w) := by
  unfold State.offerOf; rw [hd]

theorem State.offerOf_refused {i : Instr} {rest : List Word} {r : Refusal}
    (hd : decode (s.streams.ofAgent a) = .ok i rest) (hr : s.admission a i = some r) :
    s.offerOf a later = .refused r := by
  unfold State.offerOf; rw [hd]; dsimp only; rw [hr]

theorem State.offerOf_admitted {i : Instr} {rest : List Word} (hd : decode (s.streams.ofAgent a) = .ok i rest)
    (hr : s.admission a i = none) : s.offerOf a later = .run i (s.takeOffer a later rest) := by
  unfold State.offerOf; rw [hd]; dsimp only; rw [hr]

end Offer

/-! ### Admission -/

theorem State.heldOperation_iff (s : State) (i : Instr) :
    s.heldOperation i = true ↔ (s.putBlocked = true → i = .putByte s.heldByte) := by
  unfold State.heldOperation
  cases s.putBlocked <;> simp

theorem State.admission_wrongAgent {s : State} {a : Agent} {i : Instr} (h : i.agent ≠ a) :
    s.admission a i = some .wrongAgent := if_pos h

theorem State.admission_blocked {s : State} {i : Instr} (hi : i.agent = .main) (hb : s.putBlocked = true)
    (hne : i ≠ .putByte s.heldByte) : s.admission .main i = some .blocked := by
  have hheld : s.heldOperation i = false := by
    rw [← Bool.not_eq_true, s.heldOperation_iff]
    exact fun h => hne (h hb)
  unfold State.admission
  rw [if_neg (not_not_intro hi), if_pos ⟨rfl, hheld⟩]

/-- An agent's own operation that no held PUT_BYTE blocks is admitted exactly where it is enabled. -/
theorem State.admission_own {s : State} {a : Agent} {i : Instr} (hi : i.agent = a)
    (hb : a = .main → s.putBlocked = true → i = .putByte s.heldByte) :
    s.admission a i = if s.enabled i = true then none else some .notEnabled := by
  have hheld : ¬ (a = .main ∧ s.heldOperation i = false) := by
    rintro ⟨ha, h⟩
    rw [← Bool.not_eq_true, s.heldOperation_iff] at h
    exact h (hb ha)
  unfold State.admission
  rw [if_neg (not_not_intro hi), if_neg hheld]
  cases s.enabled i <;> rfl

/-- Settles O5: an own, unblocked, enabled operation is admitted. -/
theorem stepRunsTheOfferedOperation : Obligations.StepRunsTheOfferedOperation := by
  intro s a later i rest hf hr hs hd hi hb he
  have hadm : s.admission a i = none := (State.admission_own hi hb).trans (if_pos he)
  rw [step_of_sched hf hr hs, State.offerOf_admitted hd hadm]
  rfl

/-- Settles O6: decode faults come from the stream alone; the refusals in the order of `State.admission`. -/
theorem offersAreJudgedInOrder : Obligations.OffersAreJudgedInOrder := by
  intro s a later hf hr hs
  rw [step_of_sched hf hr hs]
  refine ⟨fun w hd => ?_, fun w hd => ?_, fun i rest hd hi => ?_, fun i rest hd hi ha hb hne => ?_⟩
  · rw [State.offerOf_illegal hd, Offer.outcome]
  · rw [State.offerOf_truncated hd, Offer.outcome]
  · rw [State.offerOf_refused hd (State.admission_wrongAgent hi), Offer.outcome]
  · subst ha
    rw [State.offerOf_refused hd (State.admission_blocked hi hb hne), Offer.outcome]

/-! ### Faults of the meanings -/

theorem ncount_error {e : Nat} {p : I32} {cpr : U32} {f : Fault} (h : ncount e p cpr = .error f) :
    f = .divideByZero e ∨ f = .arithOverflow e := by
  unfold ncount at h
  split at h
  · cases h; exact .inl rfl
  · split at h <;> cases h
    exact .inr rfl

theorem State.fineSteps_error {s : State} {e : Nat} {plus minus : Byte} {p : I32} {f : Fault}
    (h : s.fineSteps e plus minus p = .error f) : f = .divideByZero e ∨ f = .arithOverflow e := by
  unfold State.fineSteps at h
  split at h
  · next hold => cases h; exact ncount_error hold
  · split at h
    · next hnew => cases h; exact ncount_error hnew
    · cases h

theorem State.takeEncEvent_error {s : State} {e : Nat} {ev : EncEvents} {p : I32} {v : U32} {f : Fault}
    (h : s.takeEncEvent e ev p v = .error f) : f = .divideByZero e ∨ f = .arithOverflow e := by
  unfold State.takeEncEvent at h
  dsimp only at h
  split at h
  · unfold State.handlePosition at h
    dsimp only at h
    split at h
    · exact State.fineSteps_error h
    · exact State.fineSteps_error h
    all_goals cases h
  · cases h

theorem outcomeOf_ne_refused (r : Except Fault State) (x : Refusal) : outcomeOf r ≠ .refused x := by
  cases r <;> exact nofun

theorem outcomeOf_map_fault {r : Except Fault State} {g : State → State} {f : Fault}
    (h : outcomeOf (r.map g) = .fault f) : r = .error f := by
  cases r with
  | error f' => cases h; rfl
  | ok t => cases h

theorem execEncEvent_ne_refused (e : Nat) (ev : BitVec 3) (p : I32) (v : U32) (s : State) (r : Refusal) :
    execEncEvent e ev p v s ≠ .refused r := by
  unfold execEncEvent
  split
  · exact nofun
  · split
    · exact nofun
    · exact outcomeOf_ne_refused _ r

theorem execEncEvent_fault {e : Nat} {ev : BitVec 3} {p : I32} {v : U32} {s : State} {f : Fault}
    (h : execEncEvent e ev p v s = .fault f) : f = .badOperand e ∨ f = .divideByZero e ∨ f = .arithOverflow e := by
  unfold execEncEvent at h
  split at h
  · cases h; exact .inl rfl
  · split at h
    · cases h
    · exact .inr (State.takeEncEvent_error (outcomeOf_map_fault h))

theorem State.axisDelta_fault {s : State} {k e : Nat} {f : Fault} (h : s.axisDelta k e = .error f) :
    ∃ k, f = .arithOverflow k := by
  unfold State.axisDelta at h
  split at h
  · cases h; exact ⟨k, rfl⟩
  · split at h <;> cases h
    exact ⟨k, rfl⟩

theorem State.deltas_fault {s : State} {c : List (Nat × Nat)} {f : Fault} (h : s.deltas c = .error f) :
    ∃ k, f = .arithOverflow k := by
  induction c with
  | nil => cases h
  | cons x rest ih =>
    obtain ⟨k, e⟩ := x
    rw [State.deltas] at h
    split at h
    · next hd => cases h; exact State.axisDelta_fault hd
    · split at h
      · next hd => cases h; exact ih hd
      · cases h

theorem State.accumulate_fault {s : State} {ds : List (Nat × I32)} {f : Fault} (h : s.accumulate ds = .error f) :
    ∃ k, f = .arithOverflow k := by
  induction ds generalizing s with
  | nil => cases h
  | cons x rest ih =>
    obtain ⟨k, d⟩ := x
    rw [State.accumulate] at h
    split at h
    · cases h; exact ⟨k, rfl⟩
    · split at h
      · next ha => cases h; exact ih ha
      · cases h

theorem State.buildCommand_fault {s : State} {ds : List (Nat × I32)} {feed : U32} {f : Fault}
    (h : s.buildCommand ds feed = .error f) : ∃ k, f = .arithOverflow k := by
  unfold State.buildCommand State.absMove at h
  split at h
  · split at h
    · cases h
    · split at h
      · next ha => cases h; exact State.accumulate_fault ha
      · cases h
  · cases h

theorem State.move_fault {s : State} {m : List Nat} {f : Fault} (h : s.move m = .error f) :
    ∃ k, f = .arithOverflow k := by
  unfold State.move at h
  dsimp only at h
  split at h
  · cases h
  · split at h
    · next hd => cases h; exact State.deltas_fault hd
    · split at h
      · cases h
      · split at h
        · next hb => cases h; exact State.buildCommand_fault hb
        · cases h

theorem execExecuteRealtime_fault {s : State} {f : Fault} (h : execExecuteRealtime s = .fault f) :
    ∃ k, f = .arithOverflow k := by
  have hd := outcomeOf_map_fault h
  unfold State.drain at hd
  dsimp only at hd
  split at hd
  · cases hd
  · split at hd
    · split at hd
      · cases hd
      · exact State.move_fault hd
    · cases hd

/-- The operations with a plain meaning always answer a next state. -/
theorem exec_next_of_not_faulting {i : Instr} (s : State) (he : ∀ e ev p v, i ≠ .encEvent e ev p v)
    (hr : i ≠ .executeRealtime) : ∃ t, exec i s = .next t := by
  cases i with
  | encEvent e ev p v => exact absurd rfl (he e ev p v)
  | executeRealtime => exact absurd rfl hr
  | putByte d => simp only [exec, execPutByte]; split_ifs <;> exact ⟨_, rfl⟩
  | getByte => simp only [exec, execGetByte]; split <;> [skip; split] <;> exact ⟨_, rfl⟩
  | resumeInput => simp only [exec, execResumeInput]; split <;> exact ⟨_, rfl⟩
  | isrRx d ovr fe => simp only [exec, execIsrRx]; split_ifs <;> exact ⟨_, rfl⟩
  | isrTx => simp only [exec, execIsrTx]; split <;> exact ⟨_, rfl⟩
  | settingRead id => simp only [exec, execSettingRead]; split <;> exact ⟨_, rfl⟩
  | settingWrite id v => simp only [exec, execSettingWrite]; split <;> [skip; split] <;> exact ⟨_, rfl⟩
  | txCount | rxCount | rxFree | rxOverflow | isrRxErr | chanTxDone | settingsRestore => exact ⟨_, rfl⟩

/-- Settles O9: of the two operations that do not always answer a next state, each with the faults of its parts. -/
theorem onlyTwoOperationsFault : Obligations.OnlyTwoOperationsFault := by
  intro i s
  by_cases hi : (∀ e ev p v, i ≠ .encEvent e ev p v) ∧ i ≠ .executeRealtime
  · obtain ⟨t, ht⟩ := exec_next_of_not_faulting s hi.1 hi.2
    rw [ht]
    exact ⟨fun _ => nofun, fun _ => nofun⟩
  · cases i with
    | encEvent e ev p v =>
      exact ⟨execEncEvent_ne_refused e ev p v s, fun f h => .inl ⟨e, ev, p, v, rfl, execEncEvent_fault h⟩⟩
    | executeRealtime =>
      exact ⟨outcomeOf_ne_refused _, fun f h => .inr ⟨rfl, execExecuteRealtime_fault h⟩⟩
    | _ => exact absurd ⟨nofun, nofun⟩ hi

/-! ### Interrupts and stops -/

theorem step_eq_exec_of_own {s : State} {a : Agent} {later : List Agent} {i : Instr} {rest : List Word}
    (hf : s.fault = none) (hr : s.refused = false) (hs : s.sched = a :: later)
    (hd : decode (s.streams.ofAgent a) = .ok i rest) (hi : i.agent = a) (ha : a ≠ .main) :
    step s = if s.enabled i = true then exec i (s.takeOffer a later rest) else .refused .notEnabled := by
  have hadm := State.admission_own (s := s) hi (fun h => absurd h ha)
  rw [step_of_sched hf hr hs]
  split_ifs at hadm ⊢
  · rw [State.offerOf_admitted hd hadm, Offer.outcome]
  · rw [State.offerOf_refused hd hadm, Offer.outcome]

/-- Settles O7: an offered ISR_TX or CHAN_TX_DONE is refused exactly where `State.enabled` denies it, as no meaning
refuses. -/
theorem transmitStepsOnlyWhileEnabled : Obligations.TransmitStepsOnlyWhileEnabled := by
  intro s later rest hf hr
  have never (i : Instr) (t : State) : exec i t ≠ .refused .notEnabled := (onlyTwoOperationsFault i t).1 _
  refine ⟨fun hs hd => ?_, fun hs hd => ?_⟩
  · rw [step_eq_exec_of_own (a := .sisr) hf hr hs hd rfl nofun]
    simp only [State.enabled, State.txReadyPending, Bool.and_eq_true]
    split_ifs with h <;> simp [h, never]
  · rw [step_eq_exec_of_own (a := .chan) hf hr hs hd rfl nofun]
    simp only [State.enabled, Bool.not_eq_true']
    split_ifs with h <;> simp [h, never]

/-- A recorded fault is what every step answers (10_state R63). -/
theorem step_of_fault {s : State} {f : Fault} (h : s.fault = some f) : step s = .fault f := by
  have hn : s.nextOffer = .fault f := by unfold State.nextOffer; rw [h]
  rw [step_eq_outcome, hn, Offer.outcome]

theorem step_of_refused {s : State} (hf : s.fault = none) (h : s.refused = true) : step s = .refused .runEnded := by
  have hn : s.nextOffer = .refused .runEnded := by unfold State.nextOffer; rw [hf, h]; rfl
  rw [step_eq_outcome, hn, Offer.outcome]

/-- Marking a fault records it, whether it is new or the one already recorded. -/
theorem State.mark_step_fault {s : State} {f : Fault} (h : step s = .fault f) :
    s.mark (step s) = { s with fault := some f } := by
  rw [h, State.mark]
  cases hf : s.fault with
  | none => rfl
  | some g =>
    rw [step_of_fault hf] at h
    cases h
    exact congrArg (fun x => ({ s with fault := x } : State)) hf

/-- Settles O8: what is recorded decides every later step. -/
theorem stopsKeepNoWriteAndStick : Obligations.StopsKeepNoWriteAndStick := by
  intro s
  refine ⟨fun f h => ?_, fun r h => ?_⟩
  · have hmark := State.mark_step_fault h
    have hagain : step (s.mark (step s)) = .fault f := step_of_fault (by rw [hmark])
    exact ⟨hmark, hagain, by rw [State.mark_step_fault hagain, hmark]⟩
  · have hf : s.fault = none := by
      cases hf : s.fault with
      | none => rfl
      | some f => rw [step_of_fault hf] at h; cases h
    rw [h]
    exact ⟨rfl, step_of_refused hf rfl⟩

end Sys2Proof.Machine
end

section
/-! What every operation appends to the history and to no other, what it leaves of the encoder bindings, and what the
steps of other agents than MAIN leave to MAIN (10_state R31, R64, 43 R254, 42 R230, 70 R318). -/

namespace Sys2Proof.Machine

/-! ### Outputs -/

/-- The outputs of an operation (00_scope R17, 42 R230). -/
def IsOutputOf (p : Params) : Instr → OutEvent → Prop
  | .putByte _, x | .isrTx, x => ∃ b, x = .txByte b
  | .isrRx d _ _, x => x = .rtRx d ∧ p.rtClass.getLsbD d.toNat = true
  | .encEvent _ _ _ _, x => IsEncoderOutput p x
  | .executeRealtime, x => IsTickOutput p x
  | .getByte, _ | .txCount, _ | .rxCount, _ | .rxFree, _ | .rxOverflow, _ | .resumeInput, _ | .isrRxErr _ _, _
  | .chanTxDone, _ | .settingRead _, _ | .settingWrite _ _, _ | .settingsRestore, _ => False

/-- Every operation appends its own outputs only. -/
theorem exec_out {i : Instr} {s t : State} (h : exec i s = .next t) : Appends (IsOutputOf s.cfg i) s.out t.out := by
  cases i with
  | putByte d =>
    replace h : execPutByte d s = .next t := h
    unfold execPutByte at h
    split at h
    · cases h; exact Appends.one _ ⟨d, rfl⟩
    · split at h <;> cases h
      · rw [State.waitForSpace_eq]; split <;> exact Appends.refl _ _
      · exact Appends.refl _ _
  | isrTx =>
    replace h : execIsrTx s = .next t := h
    unfold execIsrTx at h
    split at h <;> cases h
    · exact Appends.refl _ _
    · rw [State.quietIfEmpty_frame]; exact Appends.one _ ⟨_, rfl⟩
  | isrRx d ovr fe =>
    replace h : execIsrRx d ovr fe s = .next t := h
    unfold execIsrRx at h
    split at h
    · cases h; exact Appends.refl _ _
    · split at h
      · next hrt => cases h; exact Appends.one _ ⟨rfl, hrt⟩
      · cases h; rw [State.enqueueRx_frame]; exact Appends.refl _ _
  | encEvent e ev p v => exact execEncEvent_out h
  | executeRealtime => exact execExecuteRealtime_out h
  | getByte => rw [execGetByte_frame h]; exact Appends.refl _ _
  | resumeInput => rw [execResumeInput_frame h]; exact Appends.refl _ _
  | settingRead id => rw [execSettingRead_frame h]; exact Appends.refl _ _
  | settingWrite id v => rw [execSettingWrite_frame h]; exact Appends.refl _ _
  | txCount | rxCount | rxFree | rxOverflow | isrRxErr | chanTxDone | settingsRestore => cases h; exact Appends.refl _ _

/-- Settles O16: the operation of the step writes no parameter and appends its outputs. -/
theorem stepExtendsHistoryOnly : Obligations.StepExtendsHistoryOnly := by
  intro s t h
  obtain ⟨i, later, rest, -, -, -, hexec⟩ := step_next h
  have hcfg := exec_cfg hexec
  obtain ⟨es, hes, -⟩ := exec_out hexec
  exact ⟨hcfg, es, hes⟩

/-- Settles O56: a real-time byte among the outputs of an operation names its route. -/
theorem realtimeByteRoutes : Obligations.RealtimeByteRoutes := by
  intro i s t es h hes
  have hout (x : OutEvent) (hx : x ∈ es) : IsOutputOf s.cfg i x := (exec_out h).mem hes hx
  refine ⟨fun b hb => ?_, fun b hb => ?_⟩
  · have hx := hout _ hb
    cases i with
    | isrRx d ovr fe =>
      obtain ⟨hd, hclass⟩ := hx
      cases hd
      exact ⟨hclass, ovr, fe, rfl⟩
    | putByte | isrTx => obtain ⟨_, hx⟩ := hx; cases hx
    | encEvent => rcases hx with ⟨_, _, hx⟩ | ⟨_, hx⟩ <;> cases hx
    | executeRealtime => rcases hx with hx | ⟨_, hx⟩ | ⟨_, _, hx⟩ | ⟨_, hx⟩ <;> cases hx
    | getByte | txCount | rxCount | rxFree | rxOverflow | resumeInput | isrRxErr | chanTxDone | settingRead
    | settingWrite | settingsRestore => exact hx.elim
  · have hx := hout _ hb
    cases i with
    | encEvent e ev p v =>
      rcases hx with ⟨b', hb', hx⟩ | ⟨_, hx⟩ <;> cases hx
      exact .inl ⟨⟨e, ev, p, v, rfl⟩, hb'⟩
    | executeRealtime =>
      rcases hx with hx | ⟨_, hx⟩ | ⟨_, _, hx⟩ | ⟨_, hx⟩ <;> cases hx
      exact .inr ⟨rfl, rfl⟩
    | isrRx => cases hx.1
    | putByte | isrTx => obtain ⟨_, hx⟩ := hx; cases hx
    | getByte | txCount | rxCount | rxFree | rxOverflow | resumeInput | isrRxErr | chanTxDone | settingRead
    | settingWrite | settingsRestore => exact hx.elim

/-! ### The entries an encoder event and a tick change -/

theorem State.Moves.enc_ne {e e' : Nat} {s t : State} (h : s.Moves e t) (hne : e' ≠ e) : t.enc e' = s.enc e' := by
  obtain ⟨f, -, he⟩ := h.encs
  unfold State.enc
  rw [he, getD_modify, if_neg (fun x => hne x.1.symm)]

/-- An encoder event keeps every other encoder, a mode but the universal encoder's, an axis but an MPG (all axes)
encoder's, and of each axis what neither its back-reference nor its tracking nor its events is. -/
theorem execEncEvent_entries {e : Nat} {ev : BitVec 3} {p : I32} {v : U32} {s t : State}
    (h : execEncEvent e ev p v s = .next t) :
    (∀ e', e' ≠ e → t.enc e' = s.enc e') ∧
    (s.universal ≠ some e → (t.enc e).mode = (s.enc e).mode) ∧
    ((s.enc e).mode ≠ .mpg → (t.enc e).axis = (s.enc e).axis) ∧
    (∀ k, t.axis k = { s.axis k with enc := (t.axis k).enc, position := (t.axis k).position,
                                     event := (t.axis k).event }) := by
  obtain ⟨-, rfl | ⟨w, hw, rfl⟩⟩ := execEncEvent_next h
  · exact ⟨fun _ _ => rfl, fun _ => rfl, fun _ => rfl, fun _ => rfl⟩
  · obtain ⟨hother, hmode, haxis, hax⟩ := State.handleClick_entries s e (eventsOfBits ev)
    have hmoves := State.takeEncEvent_moves hw
    generalize (s.handleClick e (eventsOfBits ev)).2 = u at hother hmode haxis hax hmoves
    have hce (e' : Nat) : (w.enc e').mode = ((w.consumeEvents e).enc e').mode ∧
        (w.enc e').axis = ((w.consumeEvents e).enc e').axis := by
      unfold State.consumeEvents
      rw [State.enc_modEnc]
      split <;> exact ⟨rfl, rfl⟩
    obtain ⟨hkm, hka, -⟩ := hmoves.enc e
    refine ⟨fun e' he => ?_, fun hu => ?_, fun hm => ?_, fun k => ?_⟩
    · rw [State.consumeEvents, State.enc_modEnc_ne _ _ (Ne.symm he), hmoves.enc_ne he, hother e' he]
    · rw [← (hce e).1, hkm, hmode hu]
    · rw [← (hce e).2, hka, haxis hm]
    · change w.axis k = { s.axis k with enc := (w.axis k).enc, position := (w.axis k).position,
                                        event := (w.axis k).event }
      rw [hmoves.axes.keeps k, hax k]

/-- The guard is as before, or released by a guarded section (10_state R62). -/
theorem execEncEvent_guard {e : Nat} {ev : BitVec 3} {p : I32} {v : U32} {s t : State}
    (h : execEncEvent e ev p v s = .next t) : t.guard = s.guard ∨ t.guard = false := by
  obtain ⟨-, rfl | ⟨w, hw, rfl⟩⟩ := execEncEvent_next h
  · exact .inl rfl
  · have hg := (State.takeEncEvent_moves hw).guard
    rw [State.handleClick_frame] at hg
    exact hg

theorem State.clearPending_encs (s : State) : s.clearPending.encs = s.encs := by rw [State.clearPending_frame]

theorem mem_moveSet {n : Nat} {m : BitVec 16} {g : Nat → AxisEvents} {k : Nat}
    (h : k ∈ moveSet ((maskAxes n m).map (fun j => (j, g j)))) : k ∈ maskAxes n m := by
  unfold moveSet at h
  obtain ⟨x, hx, rfl⟩ := List.mem_map.mp h
  obtain ⟨j, hj, rfl⟩ := List.mem_map.mp (List.mem_filter.mp hx).1
  exact hj

/-- What a tick may change of the entries: it zeroes tracked positions at most, keeps every back-reference, and leaves the
axes that are not flagged; the guard is as before or released. -/
structure TickEntries (s t : State) : Prop where
  enc : ∀ e, t.enc e = s.enc e ∨ t.enc e = { s.enc e with position := 0 }
  back : ∀ k, (t.axis k).enc = (s.axis k).enc
  axis : ∀ k, k ∉ maskAxes s.cfg.nAxis s.pendingAxes → t.axis k = s.axis k
  guard : t.guard = s.guard ∨ t.guard = false

theorem TickEntries.refl (s : State) : TickEntries s s := ⟨fun _ => .inl rfl, fun _ => rfl, fun _ _ => rfl, .inl rfl⟩

/-- The actions of a tick whose gate opens, whatever the sizes of the arrays. -/
theorem State.allActions_clearPending_entries (s : State) :
    TickEntries s (s.clearPending.allActions s.snapshot) := by
  obtain ⟨hother, hback, henc⟩ := State.allActions_entries s.clearPending s.snapshot
  refine ⟨fun e => ?_, fun k => ?_, fun k hk => ?_, .inr (by rw [State.allActions_frame, State.clearPending_frame])⟩
  · rw [← State.enc_congr s.clearPending_encs]; exact henc e
  · rw [(hback k).1, State.axis_clearPending]; split <;> rfl
  · rw [hother k (by simpa [State.snapshot] using hk), State.axis_clearPending,
      if_neg (fun h => hk ((mem_maskAxes _ _ k).mpr h.1))]

/-- The batched move of axes that are all flagged. -/
theorem TickEntries.move {s u t : State} {m : List Nat} (h : TickEntries s u) (hm : u.move m = .ok t)
    (hflag : ∀ k, k ∈ m → k ∈ maskAxes s.cfg.nAxis s.pendingAxes) : TickEntries s t := by
  obtain ⟨hother, hkeep⟩ := State.move_entries hm
  have hframe := State.move_frame hm
  refine ⟨fun e => ?_, fun k => ?_, fun k hk => ?_, by rw [hframe]; exact h.guard⟩
  · rw [State.enc_congr (s := u) (t := t) (by rw [hframe])]; exact h.enc e
  · rw [hkeep k]; exact h.back k
  · rw [hother k (fun hkm => hk (hflag k hkm))]; exact h.axis k hk

theorem State.drain_entries {s t : State} (h : s.drain = .ok t) : TickEntries s t := by
  unfold State.drain at h
  split at h
  · cases h; exact TickEntries.refl s
  · have hd := State.drawMachineState_frame s
    generalize s.drawMachineState = x at h hd
    obtain ⟨st, u⟩ := x
    dsimp only at h hd
    have hdrawn {v : State} (hv : TickEntries u v) : TickEntries s v := by
      rw [hd] at hv
      exact ⟨hv.enc, hv.back, hv.axis, hv.guard⟩
    split at h
    · have hactions := State.allActions_clearPending_entries u
      split at h
      · cases h; exact hdrawn hactions
      · exact hdrawn (hactions.move h fun k hk => mem_moveSet hk)
    · cases h; exact hdrawn (TickEntries.refl _)

theorem execExecuteRealtime_entries {s t : State} (h : execExecuteRealtime s = .next t) : TickEntries s t := by
  unfold execExecuteRealtime outcomeOf at h
  cases hx : s.announceMode.drain with
  | error f => rw [hx] at h; cases h
  | ok u =>
    rw [hx] at h
    cases h
    have hd := State.drain_entries hx
    rw [State.announceMode_frame] at hd
    exact ⟨hd.enc, hd.back, hd.axis, hd.guard⟩

/-- Settles O17: outside the engine nothing is rebound; an encoder event rebinds by its click alone, a tick not at all. -/
theorem bindingsAreFixedForTheSession : Obligations.BindingsAreFixedForTheSession := by
  intro s t h
  obtain ⟨i, later, rest, -, -, -, hexec⟩ := step_next h
  have same (hencs : t.encs = s.encs) : (∀ e, s.universal ≠ some e → (t.enc e).mode = (s.enc e).mode) ∧
      (∀ e, (s.enc e).mode ≠ .mpg → (t.enc e).axis = (s.enc e).axis) :=
    ⟨fun e _ => by rw [State.enc_congr hencs], fun e _ => by rw [State.enc_congr hencs]⟩
  cases i with
  | encEvent e ev p v =>
    obtain ⟨hother, hmode, haxis, -⟩ := execEncEvent_entries hexec
    refine ⟨by rw [execEncEvent_frame hexec], fun e' hu => ?_, fun e' hm => ?_⟩
    · by_cases he : e' = e
      · subst he; exact hmode hu
      · rw [hother e' he]; rfl
    · by_cases he : e' = e
      · subst he; exact haxis hm
      · rw [hother e' he]; rfl
  | executeRealtime =>
    have henc := (execExecuteRealtime_entries hexec).enc
    refine ⟨by rw [execExecuteRealtime_frame hexec], fun e _ => ?_, fun e _ => ?_⟩
    · rcases henc e with h | h <;> rw [h] <;> rfl
    · rcases henc e with h | h <;> rw [h] <;> rfl
  | settingWrite id v =>
    have hf := execSettingWrite_frame hexec
    exact ⟨by rw [hf], same (by rw [hf])⟩
  | settingsRestore => cases hexec; exact ⟨rfl, same rfl⟩
  | putByte | getByte | txCount | rxCount | rxFree | rxOverflow | resumeInput | isrRx | isrTx | isrRxErr | chanTxDone
  | settingRead =>
    obtain ⟨⟨⟨hencs, huniv, -⟩, -⟩, -⟩ := exec_sameEngine rfl hexec
    exact ⟨huniv, same hencs⟩

/-! ### What other agents leave to MAIN -/

/-- Settles O18: none of the frames of these operations names a result register or the held PUT_BYTE. -/
theorem interruptStepsLeaveResultsAndNeverHold : Obligations.InterruptStepsLeaveResultsAndNeverHold := by
  intro i s t hi h
  have same : SameResults s s ∧ SameBlocked s s := ⟨⟨rfl, rfl⟩, ⟨rfl, rfl⟩⟩
  cases i with
  | isrRx d ovr fe => rw [execIsrRx_frame (ovr := ovr) (fe := fe) h]; exact same
  | isrTx => rw [execIsrTx_frame h]; exact same
  | isrRxErr | chanTxDone => cases h; exact same
  | encEvent e ev p v => rw [execEncEvent_frame h]; exact same
  | putByte | getByte | txCount | rxCount | rxFree | rxOverflow | resumeInput | executeRealtime | settingRead
  | settingWrite | settingsRestore => exact absurd rfl hi

/-- ISR_TX never raises the transmit count. -/
theorem execIsrTx_txCount_le {s t : State} (hb : s.BuffersOk) (h : execIsrTx s = .next t) : t.txCount ≤ s.txCount := by
  obtain ⟨hw, ⟨-, -, hh, ht⟩, -, -⟩ := hb
  unfold execIsrTx at h
  split at h <;> cases h
  · exact Nat.le_refl _
  · next hempty =>
    have hne : s.tx.head ≠ s.tx.tail := by simpa [State.txEmpty, ringEmpty] using hempty
    rw [State.quietIfEmpty_frame]
    exact Nat.le_of_succ_le (ringCount_drop (Params.txCap_ok hw) hh ht hne).ge

/-- ISR_RX raises the receive count, or drops it to 0 with an interception; it never clears the overflow flag. -/
theorem execIsrRx_rxCount {s t : State} {d : Byte} {ovr fe : Bool} (hb : s.BuffersOk)
    (h : execIsrRx d ovr fe s = .next t) :
    (s.rxCount ≤ t.rxCount ∨ t.rxCount = 0) ∧ (s.rx.overflow = true → t.rx.overflow = true) := by
  obtain ⟨hw, -, ⟨-, -, hh, ht⟩, -⟩ := hb
  unfold execIsrRx at h
  split at h
  · cases h; exact ⟨.inr ((ringCount_zero_iff hh hh).mpr rfl), id⟩
  · split at h
    · cases h; exact ⟨.inl (Nat.le_refl _), id⟩
    · cases h
      unfold State.enqueueRx
      split
      · exact ⟨.inl (Nat.le_refl _), fun _ => rfl⟩
      · next hfull =>
        rw [Bool.not_eq_true] at hfull
        exact ⟨.inl (Nat.le_of_succ_le (ringCount_push (Params.rxCap_ok hw) hh ht hfull).ge), id⟩

/-- Settles O20: of the operations of other agents only ISR_TX and ISR_RX move an index. -/
theorem countsGoStaleInOneDirection : Obligations.CountsGoStaleInOneDirection := by
  intro i s t hb hi h
  cases i with
  | isrTx =>
    refine ⟨execIsrTx_txCount_le hb h, ?_⟩
    rw [execIsrTx_frame h]
    exact ⟨.inl (Nat.le_refl _), id⟩
  | isrRx d ovr fe =>
    refine ⟨?_, execIsrRx_rxCount (ovr := ovr) (fe := fe) hb h⟩
    rw [execIsrRx_frame (ovr := ovr) (fe := fe) h]
    exact Nat.le_refl _
  | encEvent e ev p v => rw [execEncEvent_frame h]; exact ⟨Nat.le_refl _, .inl (Nat.le_refl _), id⟩
  | isrRxErr | chanTxDone => cases h; exact ⟨Nat.le_refl _, .inl (Nat.le_refl _), id⟩
  | putByte | getByte | txCount | rxCount | rxFree | rxOverflow | resumeInput | executeRealtime | settingRead
  | settingWrite | settingsRestore => exact absurd rfl hi

end Sys2Proof.Machine
end

section
/-! Initialization (70_reset_and_hazards R301 to R304): the configuration check in terms of the stored codes, the bindings it
leaves, and the invariant. -/

namespace Sys2Proof.Machine

/-! ### Lists with at most one entry of a kind -/

/-- At most one index below `n` has the property. -/
def UniqueBelow (n : Nat) (P : Nat → Prop) : Prop := ∀ e e', e < n → e' < n → P e → P e' → e = e'

theorem UniqueBelow.mono {n : Nat} {P Q : Nat → Prop} (h : UniqueBelow n P) (hQ : ∀ e, e < n → Q e → P e) :
    UniqueBelow n Q :=
  fun e e' he he' hq hq' => h e e' he he' (hQ e he hq) (hQ e' he' hq')

theorem countP_le_one_iff_pairwise {α : Type} (l : List α) (p : α → Bool) :
    l.countP p ≤ 1 ↔ l.Pairwise (fun a b => ¬ (p a = true ∧ p b = true)) := by
  induction l with
  | nil => simp
  | cons x xs ih =>
    rw [List.countP_cons, List.pairwise_cons, ← ih]
    cases hx : p x with
    | false => simp
    | true =>
      have h0 := List.countP_eq_zero (l := xs) (p := p)
      simp only [if_true, true_and]
      constructor
      · intro h; exact ⟨h0.mp (by omega), by omega⟩
      · rintro ⟨h, -⟩; rw [h0.mpr h]

theorem countP_le_one_iff {α : Type} (l : List α) (p : α → Bool) (d : α) :
    l.countP p ≤ 1 ↔ UniqueBelow l.length (fun e => p (l.getD e d) = true) := by
  rw [countP_le_one_iff_pairwise, List.pairwise_iff_getElem]
  constructor
  · intro h e e' he he' hp hp'
    rw [List.getD_eq_getElem l d he] at hp
    rw [List.getD_eq_getElem l d he'] at hp'
    rcases Nat.lt_trichotomy e e' with hlt | heq | hgt
    · exact absurd ⟨hp, hp'⟩ (h e e' he he' hlt)
    · exact heq
    · exact absurd ⟨hp', hp⟩ (h e' e he' he hgt)
  · rintro h i j hi hj hij ⟨hp, hp'⟩
    rw [← List.getD_eq_getElem l d hi] at hp
    rw [← List.getD_eq_getElem l d hj] at hp'
    exact Nat.ne_of_lt hij (h i j hi hj hp hp')

/-- The first index of a kind is the one index of that kind. -/
theorem findIdx?_eq_some_iff_of_unique {α : Type} {l : List α} {p : α → Bool} {d : α}
    (h : UniqueBelow l.length (fun e => p (l.getD e d) = true)) (e : Nat) :
    l.findIdx? p = some e ↔ e < l.length ∧ p (l.getD e d) = true := by
  rw [List.findIdx?_eq_some_iff_getElem]
  constructor
  · rintro ⟨he, hp, -⟩
    exact ⟨he, by rw [List.getD_eq_getElem l d he]; exact hp⟩
  · rintro ⟨he, hp⟩
    refine ⟨he, List.getD_eq_getElem l d he ▸ hp, fun j hj hpj => ?_⟩
    have hjl : j < l.length := Nat.lt_trans hj he
    rw [← List.getD_eq_getElem l d hjl] at hpj
    exact Nat.ne_of_lt hj (h j e hjl he hpj hp)

theorem firstEncoder_eq_findIdx? (test : Encoder → Bool) (l : List Encoder) : firstEncoder test l = l.findIdx? test := by
  induction l with
  | nil => rfl
  | cons x xs ih => rw [firstEncoder, ih, List.findIdx?_cons]

theorem universalIndex_eq_findIdx? (l : List Mode) : universalIndex l = l.findIdx? (· == .universal) := by
  induction l with
  | nil => rfl
  | cons m ms ih => rw [universalIndex, ih, List.findIdx?_cons]; simp only [beq_iff_eq]

theorem getD_map_of_lt {α β : Type} (l : List α) (f : α → β) (i : Nat) (d : α) (d' : β) (h : i < l.length) :
    (l.map f).getD i d' = f (l.getD i d) := by
  rw [List.getD_eq_getElem _ _ (by simpa using h), List.getElem_map, List.getD_eq_getElem l d h]

/-! ### Mode codes (10_state R44) -/

theorem modeOfCode_eq_some_iff (n v : Nat) (m : Mode) :
    modeOfCode n v = some m ↔ modeCode m = v ∧ v ≤ 4 + n := by
  unfold modeOfCode
  cases m <;> simp only [modeCode] <;> split_ifs <;> simp <;> omega

theorem modeOfCode_isSome_iff (n v : Nat) : (modeOfCode n v).isSome = true ↔ v ≤ 4 + n := by
  constructor
  · intro h
    obtain ⟨m, hm⟩ := Option.isSome_iff_exists.mp h
    exact ((modeOfCode_eq_some_iff n v m).mp hm).2
  · intro h
    unfold modeOfCode
    rw [if_pos h]
    split_ifs <;> rfl

theorem isMpg_iff_four_le (m : Mode) : isMpg m = true ↔ 4 ≤ modeCode m := by
  cases m with
  | universal | feedRate | rapidRate | spindleRPM | mpg => decide
  | mpgAxis k => exact iff_of_true rfl (show 4 ≤ 5 + k by omega)

/-! ### The configuration check -/

/-- The code encoder `e` has in the store. -/
def codeOf (store : List Settings) (e : Nat) : Nat := (store.getD e default).mode.toNat

theorem count_storedModes_le_one_iff (p : Params) (store : List Settings) (m : Mode) :
    (storedModes p store).count (some m) ≤ 1 ↔
      UniqueBelow store.length (fun e => modeCode m = codeOf store e ∧ codeOf store e ≤ 4 + p.nAxis) := by
  rw [storedModes, List.count_eq_countP, List.countP_map, countP_le_one_iff _ _ default]
  simp only [Function.comp, beq_iff_eq, modeOfCode_eq_some_iff, codeOf]

theorem countP_isMpg_le_one_iff (p : Params) (store : List Settings) :
    ((storedModes p store).filterMap id).countP isMpg ≤ 1 ↔
      UniqueBelow store.length (fun e => 4 ≤ codeOf store e ∧ codeOf store e ≤ 4 + p.nAxis) := by
  have hmpg (v : Nat) : ((modeOfCode p.nAxis v).map isMpg).getD false = true ↔ 4 ≤ v ∧ v ≤ 4 + p.nAxis := by
    cases hm : modeOfCode p.nAxis v with
    | none =>
      have hnot : ¬ v ≤ 4 + p.nAxis := by rw [← modeOfCode_isSome_iff, hm]; simp
      simp [hnot]
    | some m =>
      obtain ⟨hcode, hle⟩ := (modeOfCode_eq_some_iff _ _ _).mp hm
      simp [isMpg_iff_four_le, hcode, hle]
  rw [List.countP_filterMap, storedModes, List.countP_map, countP_le_one_iff _ _ default]
  simp only [Function.comp, id, hmpg, codeOf]

theorem count_storedModes_eq_zero_iff (p : Params) (store : List Settings) (m : Mode) :
    (storedModes p store).count (some m) = 0 ↔
      ∀ e, e < store.length → ¬ (modeCode m = codeOf store e ∧ codeOf store e ≤ 4 + p.nAxis) := by
  rw [storedModes, List.count_eq_countP, List.countP_map, List.countP_eq_zero]
  simp only [Function.comp, beq_iff_eq, modeOfCode_eq_some_iff]
  constructor
  · intro h e he
    rw [codeOf, List.getD_eq_getElem _ _ he]
    exact h _ (List.getElem_mem he)
  · intro h r hr
    obtain ⟨e, he, rfl⟩ := List.getElem_of_mem hr
    have := h e he
    rwa [codeOf, List.getD_eq_getElem _ _ he] at this

/-- 70 R301 in terms of the stored codes. -/
theorem bindingsOk_iff (p : Params) (store : List Settings) :
    bindingsOk p store = true ↔
      (∀ e, e < store.length → codeOf store e ≤ 4 + p.nAxis) ∧
      (∀ e e', e < store.length → e' < store.length → codeOf store e = 0 → codeOf store e' = 0 → e = e') ∧
      (∀ e e', e < store.length → e' < store.length → 5 ≤ codeOf store e → codeOf store e = codeOf store e' → e = e') ∧
      (∀ e e', e < store.length → e' < store.length → codeOf store e = 4 → 4 ≤ codeOf store e' → e = e') := by
  have hall : (storedModes p store).all (fun m => m.isSome) = true ↔
      ∀ e, e < store.length → codeOf store e ≤ 4 + p.nAxis := by
    rw [storedModes, List.all_map, List.all_eq_true]
    simp only [Function.comp, modeOfCode_isSome_iff]
    constructor
    · intro h e he
      rw [codeOf, List.getD_eq_getElem _ _ he]
      exact h _ (List.getElem_mem he)
    · intro h r hr
      obtain ⟨e, he, rfl⟩ := List.getElem_of_mem hr
      have := h e he
      rwa [codeOf, List.getD_eq_getElem _ _ he] at this
  unfold bindingsOk
  simp only [Bool.and_eq_true, Bool.or_eq_true, decide_eq_true_eq, beq_iff_eq, List.all_eq_true (l := List.range _),
    List.mem_range, hall, count_storedModes_le_one_iff, count_storedModes_eq_zero_iff, countP_isMpg_le_one_iff, modeCode,
    and_assoc]
  refine and_congr_right fun hle => ?_
  refine and_congr ?_ (and_congr ?_ ?_)
  · exact ⟨fun h e e' he he' h0 h0' => h e e' he he' ⟨h0.symm, hle e he⟩ ⟨h0'.symm, hle e' he'⟩,
      fun h e e' he he' h0 h0' => h e e' he he' h0.1.symm h0'.1.symm⟩
  · constructor
    · intro h e e' he he' h5 heq
      have := hle e he
      exact h (codeOf store e - 5) (by omega) e e' he he' ⟨by omega, hle e he⟩ ⟨by omega, hle e' he'⟩
    · intro h k _ e e' he he' h0 h0'
      exact h e e' he he' (by omega) (by omega)
  · constructor
    · rintro (h | h) e e' he he' h4 h4'
      · exact absurd ⟨h4.symm, hle e he⟩ (h e he)
      · exact h e e' he he' ⟨h4.ge, hle e he⟩ ⟨h4', hle e' he'⟩
    · intro h
      by_cases hmpg : ∃ e, e < store.length ∧ codeOf store e = 4
      · obtain ⟨e, he, h4⟩ := hmpg
        refine .inr fun e1 e2 h1 h2 hm1 hm2 => ?_
        exact (h e e1 he h1 h4 hm1.1).symm.trans (h e e2 he h2 h4 hm2.1)
      · exact .inl fun e he h4 => hmpg ⟨e, he, h4.1.symm⟩

/-- Settles O14: the four conditions are the negations of the four parts of the check. -/
theorem bootRefusesBrokenBindings : Obligations.BootRefusesBrokenBindings := by
  intro p store _ hlen
  have hrefused : State.boot p store = .refused .configRefused ↔ ¬ bindingsOk p store = true := by
    unfold State.boot
    split <;> simp [*]
  dsimp only
  rw [hrefused, bindingsOk_iff, hlen]
  simp only [codeOf, not_and_or, not_forall, not_le, exists_prop, ne_eq]
  simp only [and_comm, and_left_comm, and_assoc]

/-! ### The bindings initialization leaves (70 R302, R303) -/

/-- The mode a stored record names. -/
def bootMode (p : Params) (r : Settings) : Mode := (modeOfCode p.nAxis r.mode.toNat).getD .universal

/-- Whatever initialization accepts passes the check, and is the state of the modes the store names. -/
theorem State.boot_next {p : Params} {store : List Settings} {t : State} (h : State.boot p store = .next t) :
    bindingsOk p store = true ∧ t = bootState p store (store.map (bootMode p)) := by
  unfold State.boot at h
  split at h
  · next hok =>
    cases h
    refine ⟨hok, congrArg _ ?_⟩
    have hall : ∀ r ∈ store, (modeOfCode p.nAxis r.mode.toNat).isSome = true := by
      intro r hr
      obtain ⟨e, he, rfl⟩ := List.getElem_of_mem hr
      have := ((bindingsOk_iff p store).mp hok).1 e he
      rw [codeOf, List.getD_eq_getElem _ _ he] at this
      exact (modeOfCode_isSome_iff _ _).mpr this
    rw [storedModes, List.filterMap_map, ← List.filterMap_eq_map]
    apply List.filterMap_congr
    intro r hr
    obtain ⟨m, hm⟩ := Option.isSome_iff_exists.mp (hall r hr)
    simp [bootMode, hm]
  · cases h

theorem initEncoder_axis_eq_some_iff (m : Mode) (k : Nat) :
    (initEncoder m).axis = some k ↔ (m = .mpg ∧ k = 0) ∨ m = .mpgAxis k := by
  cases m <;> simp [initEncoder, eq_comm]

theorem isMpg_initEncoder (m : Mode) : isMpg (initEncoder m).mode = isMpg m := by cases m <;> rfl

/-- What initialization accepts, entry by entry: the modes are those of the stored codes, encoders and axes follow them,
and no two encoders are universal or bound to one axis. -/
structure BootFacts (p : Params) (store : List Settings) (t : State) : Prop where
  state : t = bootState p store (store.map (bootMode p))
  code : ∀ e, e < store.length → modeCode (bootMode p (store.getD e default)) = codeOf store e
  enc : ∀ e, e < store.length → t.enc e = initEncoder (bootMode p (store.getD e default))
  mpgAlone : ∀ e e', e < store.length → e' < store.length → codeOf store e = 4 → 4 ≤ codeOf store e' → e = e'
  universal : ∀ e, t.universal = some e ↔ e < store.length ∧ codeOf store e = 0
  axis : ∀ k e, k < p.nAxis → ((t.axis k).enc = some e ↔ e < store.length ∧ (t.enc e).axis = some k)
  le : ∀ e, e < store.length → codeOf store e ≤ 4 + p.nAxis

theorem modeCode_injective {m m' : Mode} (h : modeCode m = modeCode m') : m = m' := by
  have h1 := (modeOfCode_eq_some_iff (modeCode m) (modeCode m) m).mpr ⟨rfl, by omega⟩
  have h2 := (modeOfCode_eq_some_iff (modeCode m) (modeCode m) m').mpr ⟨h.symm, by omega⟩
  exact Option.some.inj (h1.symm.trans h2)

theorem State.boot_facts {p : Params} {store : List Settings} {t : State} (h : State.boot p store = .next t) :
    BootFacts p store t := by
  obtain ⟨hok, ht⟩ := State.boot_next h
  obtain ⟨hle, huniv, haxes, hmpg⟩ := (bindingsOk_iff p store).mp hok
  have hcode (e : Nat) (he : e < store.length) : modeCode (bootMode p (store.getD e default)) = codeOf store e := by
    obtain ⟨m, hm⟩ := Option.isSome_iff_exists.mp ((modeOfCode_isSome_iff _ _).mpr (hle e he))
    rw [bootMode, show (store.getD e default).mode.toNat = codeOf store e from rfl, hm]
    exact ((modeOfCode_eq_some_iff _ _ _).mp hm).1
  have henc (e : Nat) (he : e < store.length) : t.enc e = initEncoder (bootMode p (store.getD e default)) := by
    rw [ht]
    exact (getD_map_of_lt _ _ _ default _ (by simpa using he)).trans
      (congrArg initEncoder (getD_map_of_lt _ _ _ default _ he))
  refine ⟨ht, hcode, henc, hmpg, fun e => ?_, fun k e hk => ?_, hle⟩
  · have hiff (e : Nat) (he : e < store.length) :
        ((store.map (bootMode p)).getD e default == Mode.universal) = true ↔ codeOf store e = 0 := by
      rw [getD_map_of_lt _ _ _ default _ he, beq_iff_eq, ← hcode e he]
      exact ⟨fun h => by rw [h]; rfl, fun h => modeCode_injective h⟩
    have huniq : UniqueBelow (store.map (bootMode p)).length
        (fun e => ((store.map (bootMode p)).getD e default == Mode.universal) = true) := by
      rw [List.length_map]
      exact UniqueBelow.mono (P := fun e => codeOf store e = 0) huniv (fun e he h => (hiff e he).mp h)
    rw [ht]
    refine (Eq.congr_left (universalIndex_eq_findIdx? _)).trans ?_
    rw [findIdx?_eq_some_iff_of_unique huniq, List.length_map]
    exact and_congr_right (hiff e)
  · have hget (e : Nat) : (t.encs.getD e default) = t.enc e := rfl
    have hlen : t.encs.length = store.length := by rw [ht]; simp [bootState]
    have huniq : UniqueBelow t.encs.length (fun e => ((t.encs.getD e default).axis == some k) = true) := by
      rw [hlen]
      intro e e' he he' h h'
      simp only [hget, henc e he, henc e' he', beq_iff_eq, initEncoder_axis_eq_some_iff] at h h'
      have hc := hcode e he
      have hc' := hcode e' he'
      rcases h with ⟨h, hk0⟩ | h <;> rcases h' with ⟨h', hk0'⟩ | h' <;>
        (rw [h, modeCode] at hc; rw [h', modeCode] at hc')
      · exact hmpg e e' he he' hc.symm (by omega)
      · exact hmpg e e' he he' hc.symm (by omega)
      · exact (hmpg e' e he' he hc'.symm (by omega)).symm
      · exact haxes e e' he he' (by omega) (by omega)
    have hax : (t.axis k).enc = t.encs.findIdx? (fun x => x.axis == some k) := by
      rw [← firstEncoder_eq_findIdx?, ht]
      exact congrArg Axis.enc ((getD_range_map _ _ _ _).trans (if_pos hk))
    rw [hax, findIdx?_eq_some_iff_of_unique huniq, hlen, hget, beq_iff_eq]

/-- Settles O15: the table of R302 read off `initEncoder`, the back-references from `State.boot_facts`. -/
theorem bootBindsEncodersAndAxes : Obligations.BootBindsEncodersAndAxes := by
  intro p store t _ hlen h
  have hf := State.boot_facts h
  have key (e : Nat) (he : e < p.nEnc) (m : Mode) (hm : codeOf store e = modeCode m) : t.enc e = initEncoder m := by
    rw [← hlen] at he
    rw [hf.enc e he, modeCode_injective ((hf.code e he).trans hm)]
  refine ⟨fun e he => ⟨fun h0 => ?_, fun h1 => ?_, fun h2 => ?_, fun h3 => ?_, fun h4 => ?_, fun k hk => ?_⟩,
    fun hno => ?_, fun k e hk => ?_⟩
  · rw [key e he .universal h0]
    exact ⟨rfl, rfl, (hf.universal e).mpr ⟨hlen ▸ he, h0⟩⟩
  · rw [key e he .feedRate h1]; exact ⟨rfl, rfl⟩
  · rw [key e he .rapidRate h2]; exact ⟨rfl, rfl⟩
  · rw [key e he .spindleRPM h3]; exact ⟨rfl, rfl⟩
  · rw [key e he .mpg h4]; exact ⟨rfl, rfl⟩
  · rw [key e he (.mpgAxis k) hk]; exact ⟨rfl, rfl⟩
  · cases hu : t.universal with
    | none => rfl
    | some e =>
      obtain ⟨he, h0⟩ := (hf.universal e).mp hu
      exact absurd h0 (hno e (hlen ▸ he))
  · rw [hf.axis k e hk, hlen]

/-- Settles O13: the fields of the state of initialization, entry by entry. -/
theorem bootLeavesTheResetValues : Obligations.BootLeavesTheResetValues := by
  intro p store t h
  obtain ⟨-, rfl⟩ := State.boot_next h
  refine ⟨rfl, rfl, rfl, rfl, rfl, rfl, rfl, rfl, rfl, rfl, rfl, rfl, rfl, rfl, rfl, rfl, rfl, rfl, rfl,
    fun _ => ⟨rfl, rfl, rfl⟩, fun e he => ?_, fun k hk => ?_⟩
  · obtain ⟨m, hm⟩ : ∃ m, (bootState p store (store.map (bootMode p))).enc e = initEncoder m :=
      ⟨_, getD_map_of_lt _ _ _ default _ (by simpa [bootState] using he)⟩
    rw [hm]
    cases m <;> exact ⟨rfl, rfl, rfl⟩
  · have hax : (bootState p store (store.map (bootMode p))).axis k = _ := (getD_range_map _ _ _ _).trans (if_pos hk)
    rw [hax]
    exact ⟨rfl, rfl, rfl, rfl, rfl, rfl⟩

/-! ### The invariant after initialization -/

theorem initEncoder_ok {n : Nat} {m : Mode} (hn : 0 < n) (hm : modeCode m ≤ 4 + n) : (initEncoder m).Ok n := by
  cases m with
  | universal | feedRate | rapidRate | spindleRPM => exact ⟨rfl, rfl⟩
  | mpg => exact ⟨rfl, 0, hn, rfl⟩
  | mpgAxis k => exact ⟨rfl, show k < n by rw [modeCode] at hm; omega, rfl⟩

/-- Settles O12: the buffers are empty, and the bindings are those of `State.boot_facts`. -/
theorem bootMeetsTheInvariant : Obligations.BootMeetsTheInvariant := by
  intro p store t hw hlen h
  have hf := State.boot_facts h
  have hn := (Params.nAxis_pos hw).1
  have ht := hf.state
  have hring (c : Nat) (hc : capOk c = true) : Ring.Ok c Ring.initial := by
    have := capOk_two_le hc
    exact ⟨rfl, rfl, show 0 < c by omega, show 0 < c by omega⟩
  have hcfg : t.cfg = p := by rw [ht]; rfl
  have haxis (k : Nat) (hk : k < p.nAxis) : t.axis k = initAxis t.encs k := by
    rw [ht]; exact (getD_range_map _ _ _ _).trans (if_pos hk)
  constructor
  case buffers =>
    rw [ht]
    exact ⟨hw, hring _ (Params.txCap_ok hw), hring _ (Params.rxCap_ok hw), hring _ (Params.rxCap_ok hw)⟩
  case transmit => rw [ht]; rfl
  case reader => rw [ht]; exact ⟨⟨nofun, nofun⟩, fun _ => rfl⟩
  case arrays =>
    rw [ht]
    exact ⟨by simpa [bootState] using hlen, by simp [bootState], hlen⟩
  case encoders =>
    refine ⟨fun e he => ?_, fun u hu => ?_, fun hm => ?_⟩
    · rw [hcfg] at he ⊢
      rw [← hlen] at he
      rw [hf.enc e he]
      exact initEncoder_ok hn (hf.code e he ▸ hf.le e he)
    · obtain ⟨hlt, h0⟩ := (hf.universal u).mp hu
      rw [hcfg, ← hlen, hf.enc u hlt, modeCode_injective (m' := .universal) ((hf.code u hlt).trans h0)]
      exact ⟨hlt, rfl⟩
    · rw [ht] at hm; cases hm
  case binding =>
    have hmpg (e : Nat) (he : e < store.length) : isMpg (t.enc e).mode = true ↔ 4 ≤ codeOf store e := by
      rw [hf.enc e he, isMpg_initEncoder, isMpg_iff_four_le, hf.code e he]
    unfold State.BindingOk
    rw [hcfg, ← hlen]
    refine ⟨fun k e hk => ?_, fun e e' he he' hm hm' => ?_⟩
    · rw [hf.axis k e hk]
      refine and_congr_right fun he => (and_iff_left_of_imp fun hax => ?_).symm
      rw [hf.enc e he, initEncoder_axis_eq_some_iff] at hax
      rw [hf.enc e he, isMpg_initEncoder]
      rcases hax with ⟨hax, -⟩ | hax <;> rw [hax] <;> rfl
    · have h4 : codeOf store e = 4 := by
        rw [hf.enc e he] at hm
        rw [← hf.code e he]
        cases hb : bootMode p (store.getD e default) <;> rw [hb] at hm <;> cases hm
        rfl
      exact (hf.mpgAlone e e' he he' h4 ((hmpg e' he').mp hm')).symm
  case pending =>
    unfold State.PendingOk
    rw [hcfg]
    have hpend : t.pendingAxes = 0 := by rw [ht]; rfl
    refine ⟨fun k _ => by rw [hpend]; exact BitVec.getLsbD_zero, fun k hk _ => ?_, fun k hk => ?_⟩
    · rw [haxis k hk]; rfl
    · rw [haxis k hk]; exact ⟨rfl, rfl, rfl, rfl, rfl⟩
  case settings =>
    have hset : t.settings = store := by rw [ht]; rfl
    intro e he
    rw [hcfg] at he ⊢
    unfold State.setting
    rw [hset]
    exact hf.le e (hlen ▸ he)
  case guard => rw [ht]; rfl

/-- Settles O11: State.reset is what initialization leaves from its own parameters and settings. -/
theorem resetMeetsTheInvariant : Obligations.ResetMeetsTheInvariant :=
  bootMeetsTheInvariant Config.resetParams Config.resetSettings State.reset (by decide) rfl rfl

/-- Settles O25: the empty buffer of initialization with its interrupt disabled, then `exec_keeps_transmitOk`. -/
theorem transmitInterruptFollowsTheBuffer : Obligations.TransmitInterruptFollowsTheBuffer := by
  refine ⟨fun p store t h => ?_, fun s t hs h => ?_⟩
  · rw [(State.boot_next h).2]; rfl
  · obtain ⟨i, later, rest, -, -, -, hexec⟩ := step_next h
    exact exec_keeps_transmitOk (s := { s with sched := later, streams := rest }) hs hexec

end Sys2Proof.Machine
end

section
/-! Transmit: the wait of a full buffer, the interrupt handler and the channel, and the submission order
(40_serial_transport R133, R136, R163 to R165). -/

namespace Sys2Proof.Machine

/-- The wait of a full buffer (R133). -/
theorem execPutByte_of_full {s : State} (d : Byte) (hd : ¬ (!s.putBlocked && s.directLegal) = true)
    (hf : s.txFull = true) : execPutByte d s = .next (s.waitForSpace d) :=
  (if_neg hd).trans (if_pos hf)

/-- Settles O23: one draw, whose answer `State.waitForSpace_eq` takes apart. -/
theorem putByteWaitsWhileFull : Obligations.PutByteWaitsWhileFull := by
  intro d s hb hpath hfull
  refine ⟨State.drawWait_frame s, ?_⟩
  rw [← State.waitForSpace_eq]
  exact execPutByte_of_full d (not_directPath hpath) ((State.txFull_iff hb).mpr hfull)

theorem State.txEmpty_iff (s : State) : s.txEmpty = true ↔ s.tx.head = s.tx.tail := by
  simp [State.txEmpty, ringEmpty]

theorem execIsrTx_of_empty {s : State} (h : s.txEmpty = true) : execIsrTx s = .next { s with txie := false } := if_pos h

theorem execIsrTx_of_queued {s : State} (h : ¬ s.txEmpty = true) :
    execIsrTx s = .next (State.quietIfEmpty (s.txDrop.sendByte (s.txByte s.tx.tail))) := if_neg h

/-- The interrupt is disabled exactly where the buffer is empty (R163). -/
theorem State.quietIfEmpty_eq (s : State) :
    s.quietIfEmpty = { s with txie := if s.tx.tail = s.tx.head then false else s.txie } := by
  unfold State.quietIfEmpty
  by_cases h : s.tx.head = s.tx.tail
  · rw [if_pos (s.txEmpty_iff.mpr h), if_pos h.symm]
  · rw [if_neg (mt s.txEmpty_iff.mp h), if_neg (Ne.symm h)]

/-- Settles O24: the two branches of ISR_TX, and CHAN_TX_DONE as it stands. -/
theorem isrTxSendsOneByteAndChannelFinishes : Obligations.IsrTxSendsOneByteAndChannelFinishes := by
  intro s hb
  refine ⟨rfl, fun hne => ?_, fun heq => execIsrTx_of_empty (s.txEmpty_iff.mpr heq)⟩
  refine (execIsrTx_of_queued (mt s.txEmpty_iff.mp hne)).trans ?_
  rw [State.quietIfEmpty_eq, ← ringNext_eq_mod (Params.txCap_ok hb.1)]
  rfl

/-! ### Submission order -/

/-- The operations that move the transmit buffer or write the channel (00_scope R17). -/
def worksOnTx : Instr → Bool
  | .putByte _ | .isrTx => true
  | .getByte | .txCount | .rxCount | .rxFree | .rxOverflow | .resumeInput | .isrRx _ _ _ | .isrRxErr _ _ | .chanTxDone
  | .encEvent _ _ _ _ | .executeRealtime | .settingRead _ | .settingWrite _ _ | .settingsRestore => false

theorem exec_tx_of_not_worksOnTx {i : Instr} {s t : State} (hi : worksOnTx i = false) (h : exec i s = .next t) :
    t.tx = s.tx := by
  rcases exec_rings h with ⟨htx, -⟩ | ⟨d, rfl, -⟩ | ⟨rfl, -⟩ | ⟨-, htx, -⟩ | ⟨-, htx⟩ | ⟨-, -, -, -, htx, -⟩
  · exact htx
  · cases hi
  · cases hi
  · exact htx
  · exact htx
  · exact htx

theorem IsOutputOf.txByteOf_eq_none {p : Params} {i : Instr} {x : OutEvent} (hi : worksOnTx i = false)
    (h : IsOutputOf p i x) : txByteOf x = none := by
  cases i with
  | putByte | isrTx => cases hi
  | isrRx => rw [h.1]; rfl
  | encEvent => rcases h with ⟨_, _, rfl⟩ | ⟨_, rfl⟩ <;> rfl
  | executeRealtime => rcases h with rfl | ⟨_, rfl⟩ | ⟨_, _, rfl⟩ | ⟨_, rfl⟩ <;> rfl
  | getByte | txCount | rxCount | rxFree | rxOverflow | resumeInput | isrRxErr | chanTxDone | settingRead
  | settingWrite | settingsRestore => exact h.elim

theorem Appends.sentBytes_eq {P : OutEvent → Prop} {a b : List OutEvent} (h : Appends P a b)
    (hP : ∀ x, P x → txByteOf x = none) : sentBytes b = sentBytes a := by
  obtain ⟨es, rfl, hes⟩ := h
  have hnil : sentBytes es = [] := List.filterMap_eq_nil_iff.mpr fun x hx => hP x (hes x hx)
  unfold sentBytes at *
  rw [List.filterMap_append, hnil, List.append_nil]

theorem sentBytes_append_txByte (out : List OutEvent) (b : Byte) : sentBytes (out ++ [.txByte b]) = sentBytes out ++ [b] :=
  List.filterMap_append

theorem acceptedByte_of_not_worksOnTx {i : Instr} (t : State) (hi : worksOnTx i = false) : acceptedByte i t = [] := by
  cases i with
  | putByte => cases hi
  | _ => rfl

theorem acceptedByte_putByte_accepted {d : Byte} {t : State} (hb : t.putBlocked = false) (hr : t.res0 = 1) :
    acceptedByte (.putByte d) t = [d] := if_pos ⟨hb, hr⟩

/-- A PUT_BYTE that waits is held or ends with result 0, so it is not accepted (R133). -/
theorem acceptedByte_waitForSpace (s : State) (d : Byte) : acceptedByte (.putByte d) (s.waitForSpace d) = [] := by
  refine if_neg fun ⟨hb, hr⟩ => ?_
  rw [State.waitForSpace_eq] at hb hr
  split at hb
  · cases hb
  · next hw =>
    rw [if_neg hw] at hr
    have h01 : (0 : I32) = 1 := hr
    exact absurd h01 (by decide)

theorem State.txQueue_congr {s t : State} (h : t.tx = s.tx) (hc : t.cfg = s.cfg) : t.txQueue = s.txQueue := by
  have hbyte : t.txByte = s.txByte := by unfold State.txByte; rw [h]
  unfold State.txQueue State.txCount
  rw [hbyte, h, hc]

theorem State.txQueue_of_empty {s : State} (hb : s.BuffersOk) (h : s.tx.head = s.tx.tail) : s.txQueue = [] :=
  slots_empty _ hb.2.1.2.2.1 hb.2.1.2.2.2 h

/-- The bytes submitted so far, sent or still queued, in order. -/
def State.submitted (s : State) : List Byte := sentBytes s.out ++ s.txQueue

/-- Each operation submits exactly the byte it accepts. -/
theorem exec_submitted {i : Instr} {s t : State} (hb : s.BuffersOk) (h : exec i s = .next t) :
    t.submitted = s.submitted ++ acceptedByte i t := by
  unfold State.submitted
  cases i with
  | putByte d =>
    by_cases hd : (!s.putBlocked && s.directLegal) = true
    · obtain ⟨hput, hidx, -, -⟩ := (directPath_iff s).mp hd
      cases (execPutByte_of_direct d hd).symm.trans h
      have hq : ((s.sendByte d).result 1).txQueue = [] := State.txQueue_of_empty (s := (s.sendByte d).result 1) hb hidx
      rw [acceptedByte_putByte_accepted (t := (s.sendByte d).result 1) hput rfl, hq, State.txQueue_of_empty hb hidx,
        List.append_nil, List.append_nil]
      exact sentBytes_append_txByte s.out d
    · by_cases hf : s.txFull = true
      · cases (execPutByte_of_full d hd hf).symm.trans h
        have hframe : (s.waitForSpace d).tx = s.tx ∧ (s.waitForSpace d).cfg = s.cfg ∧ (s.waitForSpace d).out = s.out := by
          rw [State.waitForSpace_eq]; split <;> exact ⟨rfl, rfl, rfl⟩
        obtain ⟨htx, hcfg, hout⟩ := hframe
        rw [acceptedByte_waitForSpace, List.append_nil, hout, State.txQueue_congr htx hcfg]
      · cases (execPutByte_of_not_full d hd hf).symm.trans h
        have hq : (s.enqueueTx d).txQueue = s.txQueue ++ [d] := State.txQueue_push d hb (by simpa using hf)
        rw [acceptedByte_putByte_accepted rfl rfl, hq, List.append_assoc]
        rfl
  | isrTx =>
    have hacc : acceptedByte .isrTx t = [] := rfl
    rw [hacc, List.append_nil]
    by_cases he : s.txEmpty = true
    · cases (execIsrTx_of_empty he).symm.trans h; rfl
    · cases (execIsrTx_of_queued he).symm.trans h
      rw [State.quietIfEmpty_eq, State.txQueue_drop hb (by simpa using he)]
      change sentBytes (s.out ++ [.txByte (s.txByte s.tx.tail)]) ++ s.txDrop.txQueue = _
      rw [sentBytes_append_txByte, List.append_assoc]
      rfl
  | getByte | txCount | rxCount | rxFree | rxOverflow | resumeInput | isrRx | isrRxErr | chanTxDone | encEvent
  | executeRealtime | settingRead | settingWrite | settingsRestore =>
    have hsent := (exec_out h).sentBytes_eq fun x => IsOutputOf.txByteOf_eq_none rfl
    rw [acceptedByte_of_not_worksOnTx _ rfl, List.append_nil, hsent,
      State.txQueue_congr (exec_tx_of_not_worksOnTx rfl h) (exec_cfg h)]

theorem runAccepting_submitted {is : List Instr} {s t : State} {bs : List Byte} (hb : s.BuffersOk)
    (h : runAccepting is s = some (bs, t)) : t.submitted = s.submitted ++ bs := by
  induction is generalizing s bs with
  | nil => cases h; rw [List.append_nil]
  | cons i is ih =>
    rw [runAccepting] at h
    split at h
    · next u hu =>
      obtain ⟨⟨bs', t'⟩, hr, heq⟩ := Option.map_eq_some_iff.mp h
      cases heq
      rw [ih (exec_keeps_buffersOk hb hu) hr, exec_submitted hb hu, List.append_assoc]
    · cases h
    · cases h

/-- Settles O26: nothing is submitted at first, and each operation submits what it accepts. -/
theorem bytesLeaveInSubmissionOrder : Obligations.BytesLeaveInSubmissionOrder := by
  intro is s t bs hb hout hidx h
  have hs : s.submitted = [] := by
    unfold State.submitted
    rw [hout, State.txQueue_of_empty hb hidx]
    rfl
  have ht := runAccepting_submitted hb h
  rw [hs, List.nil_append] at ht
  exact ht

end Sys2Proof.Machine
end

section
/-! Receive: the answers of GET_BYTE and of the counts, the three ends of a received byte, the queue, and the handshake
(40_serial_transport sections 2 to 5). -/

namespace Sys2Proof.Machine

/-! ### GET_BYTE -/

theorem State.rxEmpty_iff (s : State) : s.rxEmpty = true ↔ s.rx.head = s.rx.tail := by
  simp [State.rxEmpty, ringEmpty]

theorem execGetByte_of_null {s : State} (h : s.reader = .null) : execGetByte s = .next (s.result Config.noData) := by
  unfold execGetByte; rw [h]

theorem execGetByte_of_empty {s : State} (h : s.rxEmpty = true) : execGetByte s = .next (s.result Config.noData) := by
  unfold execGetByte
  split
  · rfl
  · rw [if_pos h]

theorem execGetByte_of_queued {s : State} (hr : s.reader = .normal) (h : ¬ s.rxEmpty = true) :
    execGetByte s = .next (s.rxDrop.result (zext32 (s.rxByte s.rx.tail))) := by
  unfold execGetByte; rw [hr]; exact if_neg h

/-- Settles O27: the branches of GET_BYTE, with the mask of 10_state R35 as a remainder. -/
theorem getByteReadsTheOldest : Obligations.GetByteReadsTheOldest := by
  intro s hb
  refine ⟨fun h => ?_, fun hr hne => ?_⟩
  · rcases h with h | h
    · exact execGetByte_of_null h
    · exact execGetByte_of_empty (s.rxEmpty_iff.mpr h)
  · rw [← ringNext_eq_mod (Params.rxCap_ok hb.1)]
    exact execGetByte_of_queued hr (mt s.rxEmpty_iff.mp hne)

/-! ### Counts -/

theorem natCast_ringCount {c : Nat} (h t : Nat) (hc : 0 < c) : (ringCount h t c : Int) = ((h : Int) - t) % c :=
  Int.toNat_of_nonneg (Int.emod_nonneg _ (by omega))

theorem countResult_eq_ofInt (n : Nat) : countResult n = BitVec.ofInt 32 n := (BitVec.ofInt_natCast 32 n).symm

theorem State.BuffersOk.rxCount_lt {s : State} (hb : s.BuffersOk) : s.rxCount < s.cfg.rxCap :=
  ringCount_lt hb.2.2.1.2.2.1 hb.2.2.1.2.2.2

theorem State.BuffersOk.txCount_lt {s : State} (hb : s.BuffersOk) : s.txCount < s.cfg.txCap :=
  ringCount_lt hb.2.1.2.2.1 hb.2.1.2.2.2

theorem State.BuffersOk.natCast_rxCount {s : State} (hb : s.BuffersOk) :
    (s.rxCount : Int) = ((s.rx.head : Int) - s.rx.tail) % s.cfg.rxCap :=
  natCast_ringCount _ _ (by have := hb.rxCount_lt; omega)

theorem State.BuffersOk.natCast_txCount {s : State} (hb : s.BuffersOk) :
    (s.txCount : Int) = ((s.tx.head : Int) - s.tx.tail) % s.cfg.txCap :=
  natCast_ringCount _ _ (by have := hb.txCount_lt; omega)

theorem State.BuffersOk.natCast_rxFree {s : State} (hb : s.BuffersOk) :
    (s.rxFree : Int) = (s.cfg.rxCap : Int) - 1 - ((s.rx.head : Int) - s.rx.tail) % s.cfg.rxCap := by
  have := hb.rxCount_lt
  rw [← hb.natCast_rxCount, State.rxFree]
  omega

/-- Settles O28: a count below the capacity is its own integer value. -/
theorem countsAndFlagAreReported : Obligations.CountsAndFlagAreReported := by
  intro s hb
  rw [← hb.natCast_txCount, ← hb.natCast_rxFree, ← hb.natCast_rxCount]
  simp only [← countResult_eq_ofInt]
  exact ⟨rfl, rfl, rfl, rfl⟩

theorem State.rxFull_iff {s : State} (hb : s.BuffersOk) :
    s.rxFull = true ↔ (s.rx.head + 1) % s.cfg.rxCap = s.rx.tail := by
  rw [State.rxFull, ringFull, beq_iff_eq, ringNext_eq_mod (Params.rxCap_ok hb.1)]

theorem State.rxFull_iff_count {s : State} (hb : s.BuffersOk) : s.rxFull = true ↔ s.rxCount = s.cfg.rxCap - 1 :=
  ringFull_iff (Params.rxCap_ok hb.1) hb.2.2.1.2.2.1 hb.2.2.1.2.2.2

theorem State.rxCount_eq_zero_iff {s : State} (hb : s.BuffersOk) : s.rxCount = 0 ↔ s.rx.head = s.rx.tail :=
  ringCount_zero_iff hb.2.2.1.2.2.1 hb.2.2.1.2.2.2

/-- Settles O29: full is `C - 1` bytes and empty is none (10_state R35). -/
theorem freeSpaceMatchesFullAndEmpty : Obligations.FreeSpaceMatchesFullAndEmpty := by
  intro s hb
  have htx := hb.txCount_lt
  have hrx := hb.rxCount_lt
  have hcap := capOk_two_le (Params.rxCap_ok hb.1)
  rw [← State.rxFull_iff hb, State.rxFull_iff_count hb, ← State.rxCount_eq_zero_iff hb, State.rxFree]
  omega

/-! ### ISR_RX -/

theorem execIsrRx_of_intercepts {s : State} {d : Byte} (ovr fe : Bool) (h : s.intercepts d = true) :
    execIsrRx d ovr fe s = .next s.intercept := if_pos h

theorem execIsrRx_of_realtime {s : State} {d : Byte} (ovr fe : Bool) (hi : ¬ s.intercepts d = true)
    (h : s.isRealtime d = true) : execIsrRx d ovr fe s = .next (s.emit (.rtRx d)) :=
  (if_neg hi).trans (if_pos h)

theorem execIsrRx_of_plain {s : State} {d : Byte} (ovr fe : Bool) (hi : ¬ s.intercepts d = true)
    (h : s.isRealtime d = false) : execIsrRx d ovr fe s = .next (s.enqueueRx d) :=
  (if_neg hi).trans (if_neg (by simpa using h))

theorem State.not_intercepts {s : State} {d : Byte} (h : d ≠ s.cfg.toolAck ∨ s.rx.backup = true) :
    ¬ s.intercepts d = true := by
  rcases h with h | h <;> simp [State.intercepts, h]

theorem State.enqueueRx_of_full {s : State} (d : Byte) (h : s.rxFull = true) :
    s.enqueueRx d = { s with rx := { s.rx with overflow := true } } := if_pos h

theorem State.enqueueRx_of_room {s : State} (d : Byte) (h : ¬ s.rxFull = true) : s.enqueueRx d = s.rxPush d := if_neg h

/-- Settles O30: the tool acknowledge outside an interception is intercepted. -/
theorem toolAcknowledgeIntercepts : Obligations.ToolAcknowledgeIntercepts := by
  intro s ovr fe hb
  exact execIsrRx_of_intercepts ovr fe (by simp [State.intercepts, hb])

/-- Settles O31: the remaining branches of ISR_RX, the last of which is one push. -/
theorem receivedByteIsDispatchedQueuedOrDropped : Obligations.ReceivedByteIsDispatchedQueuedOrDropped := by
  intro d ovr fe s hb hd
  have hi := State.not_intercepts hd
  refine ⟨fun hrt => execIsrRx_of_realtime ovr fe hi hrt, fun hrt hfull => ?_, fun hrt hroom => ?_⟩
  · rw [← State.enqueueRx_of_full d ((State.rxFull_iff hb).mpr hfull)]
    exact execIsrRx_of_plain ovr fe hi hrt
  · have hf : ¬ s.rxFull = true := mt (State.rxFull_iff hb).mp hroom
    refine ⟨s.rxPush d, (execIsrRx_of_plain ovr fe hi hrt).trans (congrArg _ (State.enqueueRx_of_room d hf)), ?_⟩
    exact ⟨s.rx.toRing.push_read_head _ d, fun _ ha => s.rx.toRing.push_read_ne _ d ha,
      Ring.push_head (Params.rxCap_ok hb.1) s.rx.toRing d, rfl, rfl, rfl, ⟨rfl, rfl⟩, ⟨rfl, rfl⟩,
      ⟨rfl, rfl, fun _ => rfl⟩, ⟨rfl, rfl⟩, ⟨rfl, rfl, rfl, rfl, fun _ => rfl⟩, rfl,
      ⟨⟨rfl, rfl, rfl, rfl⟩, ⟨rfl, rfl⟩, rfl⟩, ⟨rfl, rfl, rfl, rfl, rfl⟩, rfl, rfl, rfl⟩

/-- Settles O32: acknowledged, with no effect. -/
theorem receiveErrorChangesNothing : Obligations.ReceiveErrorChangesNothing := fun _ _ _ => rfl

/-- Settles O33: the two branches of RESUME_INPUT. -/
theorem resumeRestoresTheSnapshot : Obligations.ResumeRestoresTheSnapshot :=
  fun _ => ⟨fun h => if_pos h, fun h => if_neg (by simp [h])⟩

/-! ### The receive queue -/

theorem State.rxQueue_length (s : State) : s.rxQueue.length = s.rxCount := slots_length _ _ _ _

theorem State.rxQueue_eq_nil_iff {s : State} (hb : s.BuffersOk) : s.rxQueue = [] ↔ s.rx.head = s.rx.tail := by
  rw [← List.length_eq_zero_iff, s.rxQueue_length, State.rxCount_eq_zero_iff hb]

/-- A byte the handler queues: neither real-time nor intercepted (R156, R157). -/
def State.IsPlain (s : State) (d : Byte) : Prop :=
  s.cfg.rtClass.getLsbD d.toNat = false ∧ (d ≠ s.cfg.toolAck ∨ s.rx.backup = true)

/-- With room left a plain byte is pushed. -/
theorem exec_isrRx_push {s : State} {d : Byte} (ovr fe : Bool) (hd : s.IsPlain d) (hf : ¬ s.rxFull = true) :
    exec (.isrRx d ovr fe) s = .next (s.rxPush d) :=
  (execIsrRx_of_plain ovr fe (State.not_intercepts hd.2) hd.1).trans (congrArg _ (State.enqueueRx_of_room d hf))

/-- GET_BYTE of a queue that is not empty takes its first byte. -/
theorem exec_getByte_of_cons {s : State} {b : Byte} {q : List Byte} (hb : s.BuffersOk) (hr : s.reader = .normal)
    (hq : s.rxQueue = b :: q) :
    exec .getByte s = .next (s.rxDrop.result (zext32 b)) ∧ s.rxDrop.rxQueue = q := by
  have he : ¬ s.rxEmpty = true := fun he => by
    rw [(State.rxQueue_eq_nil_iff hb).mpr (s.rxEmpty_iff.mp he)] at hq
    cases hq
  obtain ⟨hhead, htail⟩ := List.cons.inj (hq.symm.trans (State.rxQueue_drop hb (by simpa using he)))
  exact ⟨hhead ▸ execGetByte_of_queued hr he, htail.symm⟩

/-- Settles O34: a push joins the end of the queue, a read takes its front. -/
theorem receiveQueueIsFirstInFirstOut : Obligations.ReceiveQueueIsFirstInFirstOut := by
  intro s hb
  refine ⟨fun d ovr fe t hd hrt hroom h => ?_, fun b q hr hq => ?_⟩
  · have hf : ¬ s.rxFull = true := mt (State.rxFull_iff hb).mp hroom
    cases (exec_isrRx_push ovr fe ⟨hrt, hd⟩ hf).symm.trans h
    exact State.rxQueue_push d hb (by simpa using hf)
  · obtain ⟨hexec, hrest⟩ := exec_getByte_of_cons hb hr hq
    exact ⟨_, hexec, rfl, hrest⟩

theorem State.BuffersOk.rxPush {s : State} (hb : s.BuffersOk) (d : Byte) : (s.rxPush d).BuffersOk :=
  ⟨hb.1, hb.2.1, Ring.ok_push (Params.rxCap_ok hb.1) hb.2.2.1 d, hb.2.2.2⟩

theorem State.BuffersOk.rxDrop {s : State} (hb : s.BuffersOk) (a : I32) : (s.rxDrop.result a).BuffersOk :=
  ⟨hb.1, hb.2.1, Ring.ok_drop (Params.rxCap_ok hb.1) hb.2.2.1, hb.2.2.2⟩

/-- Plain bytes that fit are all queued, in order, and change nothing but the buffer's storage and head. -/
theorem runOps_received {bs : List Byte} {s : State} (hb : s.BuffersOk)
    (hroom : s.rxQueue.length + bs.length ≤ s.cfg.rxCap - 1) (hplain : ∀ b, b ∈ bs → s.IsPlain b) :
    ∃ t, runOps (bs.map (fun b => .isrRx b false false)) s = some t ∧ t.BuffersOk ∧ t.rxQueue = s.rxQueue ++ bs ∧
      t.reader = s.reader ∧ t.rx.overflow = s.rx.overflow := by
  induction bs generalizing s with
  | nil => exact ⟨s, rfl, hb, (List.append_nil _).symm, rfl, rfl⟩
  | cons b bs ih =>
    rw [List.length_cons] at hroom
    have hf : ¬ s.rxFull = true := by
      rw [State.rxFull_iff_count hb, ← s.rxQueue_length]
      omega
    have hq : (s.rxPush b).rxQueue = s.rxQueue ++ [b] := State.rxQueue_push b hb (by simpa using hf)
    obtain ⟨t, hrun, htb, htq, htr, hto⟩ := ih (s := s.rxPush b) (hb.rxPush b)
      (by rw [hq, List.length_append, List.length_singleton]; simpa [Nat.add_assoc, Nat.add_comm 1] using hroom)
      (fun x hx => hplain x (List.mem_cons_of_mem _ hx))
    refine ⟨t, ?_, htb, by rw [htq, hq, List.append_assoc]; rfl, htr, hto⟩
    rw [List.map_cons, runOps, exec_isrRx_push false false (hplain b List.mem_cons_self) hf]
    exact hrun

/-- As many reads as there are bytes queued answer these bytes and empty the buffer. -/
theorem readBytes_queue {q : List Byte} {s : State} (hb : s.BuffersOk) (hr : s.reader = .normal) (hq : s.rxQueue = q) :
    ∃ u, readBytes q.length s = some (q.map (fun b => b.setWidth 32), u) ∧ u.rx.head = u.rx.tail ∧
      u.rx.overflow = s.rx.overflow := by
  induction q generalizing s with
  | nil => exact ⟨s, rfl, (State.rxQueue_eq_nil_iff hb).mp hq, rfl⟩
  | cons b q ih =>
    obtain ⟨hexec, hrest⟩ := exec_getByte_of_cons hb hr hq
    obtain ⟨u, hread, hu, huo⟩ := ih (s := s.rxDrop.result (zext32 b)) (hb.rxDrop _) hr hrest
    refine ⟨u, ?_, hu, huo⟩
    rw [List.length_cons, readBytes, hexec]
    dsimp only
    rw [hread]
    rfl

/-- Settles O35: what `runOps_received` queues, `readBytes_queue` reads. -/
theorem receivedBytesAreReadBackInOrder : Obligations.ReceivedBytesAreReadBackInOrder := by
  intro s bs hb hr hidx hlen hplain
  have hempty : s.rxQueue = [] := (State.rxQueue_eq_nil_iff hb).mpr hidx
  obtain ⟨t, hrun, htb, htq, htr, hto⟩ := runOps_received hb (by simpa [hempty] using hlen) hplain
  rw [hempty, List.nil_append] at htq
  obtain ⟨u, hread, hu, huo⟩ := readBytes_queue htb (htr.trans hr) htq
  exact ⟨t, u, hrun, hread, hu, huo.trans hto⟩

/-! ### The handshake -/

/-- An interception is active that snapshotted `r` (R150, R151). -/
def State.Suspended (r : RxBuffer) (s : State) : Prop := s.rx.backup = true ∧ s.bak = r ∧ s.reader = .null

/-- Only RESUME_INPUT ends it: a further tool acknowledge is not intercepted (R153), and queued bytes leave the snapshot
alone. -/
theorem exec_keeps_suspended {i : Instr} {s t : State} {r : RxBuffer} (hs : s.Suspended r) (hi : i ≠ .resumeInput)
    (h : exec i s = .next t) : t.Suspended r := by
  cases i with
  | resumeInput => exact absurd rfl hi
  | isrRx d ovr fe =>
    have hn : ¬ s.intercepts d = true := State.not_intercepts (.inr hs.1)
    by_cases hrt : s.isRealtime d = true
    · cases (execIsrRx_of_realtime ovr fe hn hrt).symm.trans h; exact hs
    · cases (execIsrRx_of_plain ovr fe hn (by simpa using hrt)).symm.trans h
      unfold State.enqueueRx
      split <;> exact hs
  | putByte d => rw [(execPutByte_frame h).1]; exact hs
  | getByte => rw [execGetByte_frame h]; exact hs
  | isrTx => rw [execIsrTx_frame h]; exact hs
  | encEvent e ev p v => rw [execEncEvent_frame h]; exact hs
  | executeRealtime => rw [execExecuteRealtime_frame h]; exact hs
  | settingRead id => rw [execSettingRead_frame h]; exact hs
  | settingWrite id v => rw [execSettingWrite_frame h]; exact hs
  | txCount | rxCount | rxFree | rxOverflow | isrRxErr | chanTxDone | settingsRestore => cases h; exact hs

theorem runOps_keeps_suspended {is : List Instr} {s t : State} {r : RxBuffer} (hs : s.Suspended r)
    (hi : ∀ i, i ∈ is → i ≠ .resumeInput) (h : runOps is s = some t) : t.Suspended r := by
  induction is generalizing s with
  | nil => cases h; exact hs
  | cons i is ih =>
    rw [runOps] at h
    split at h
    · next u hu =>
      exact ih (exec_keeps_suspended hs (hi i List.mem_cons_self) hu) (fun j hj => hi j (List.mem_cons_of_mem _ hj)) h
    · cases h
    · cases h

/-- Settles O36: the interception suspends with the buffer before it as snapshot, and the suspension lasts until the
resume. -/
theorem resumeBringsBackThePreHandshakeBuffer : Obligations.ResumeBringsBackThePreHandshakeBuffer := by
  intro s t u is ovr fe hb h hi hrun
  cases (toolAcknowledgeIntercepts s ovr fe hb).symm.trans h
  obtain ⟨hbackup, hbak, hreader⟩ := runOps_keeps_suspended (r := s.rx) ⟨rfl, rfl, rfl⟩ hi hrun
  exact ⟨⟨_, execGetByte_of_null hreader, rfl, rfl⟩,
    ⟨_, (resumeRestoresTheSnapshot u).1 hbackup, hbak, rfl, rfl⟩⟩

end Sys2Proof.Machine
end

section
/-! The settings operations (43_settings) by encoder and field, and the pseudo-operations (30_encoding R118). -/

namespace Sys2Proof.Machine

/-! ### Fields by their offset (43 R250) -/

/-- The offset of a field inside an encoder's stride. -/
def SettingField.offset : SettingField → Nat
  | .mode => 0
  | .cpr => 1
  | .cpd => 2
  | .dclick => 3

theorem settingFieldAt_offset (g : SettingField) : settingFieldAt (SettingField.offset g) = some g := by cases g <;> rfl

theorem exists_offset_eq {f : Nat} (hf : f < 4) : ∃ g, f = SettingField.offset g := by
  match f, hf with
  | 0, _ => exact ⟨.mode, rfl⟩
  | 1, _ => exact ⟨.cpr, rfl⟩
  | 2, _ => exact ⟨.cpd, rfl⟩
  | 3, _ => exact ⟨.dclick, rfl⟩

theorem decodeSettingId_offset {p : Params} (hp : p.WellFormed = true) {e : Nat} (he : e < p.nEnc) (g : SettingField) :
    decodeSettingId p (p.setBase + e * p.setStride + SettingField.offset g) = some (e, g) := by
  have hlt : SettingField.offset g < 4 := by cases g <;> decide
  rw [decodeSettingId_of_offset p hp _ e _ he hlt rfl, settingFieldAt_offset]
  rfl

theorem settingGet_eq (r : Settings) (g : SettingField) :
    settingGet r g = if SettingField.offset g = 0 then r.mode else if SettingField.offset g = 1 then r.cpr
      else if SettingField.offset g = 2 then r.cpd else r.dclick := by
  cases g <;> rfl

theorem settingSet_eq (r : Settings) (g : SettingField) (v : U32) :
    settingSet r g v =
      { mode := if SettingField.offset g = 0 then v else r.mode
        cpr := if SettingField.offset g = 1 then v else r.cpr
        cpd := if SettingField.offset g = 2 then v else r.cpd
        dclick := if SettingField.offset g = 3 then v else r.dclick } := by
  cases g <;> rfl

/-- 43 R251 by offsets. -/
theorem settingValid_iff (p : Params) (g : SettingField) (v : U32) :
    settingValid p g v = true ↔
      (SettingField.offset g = 0 → v.toNat ≤ 4 + p.nAxis) ∧
      (SettingField.offset g = 3 → 100 ≤ v.toNat ∧ v.toNat ≤ 900) := by
  unfold settingValid
  cases g <;> simp only [Bool.and_eq_true, decide_eq_true_eq] <;>
    simp [SettingField.offset, Config.dclickMin, Config.dclickMax]

/-! ### The operations -/

theorem execSettingRead_handled {s : State} {id e : Nat} {g : SettingField} (h : decodeSettingId s.cfg id = some (e, g)) :
    execSettingRead id s = .next (s.result2 Config.stOk (settingGet (s.setting e) g)) := by
  unfold execSettingRead; rw [h]

theorem execSettingRead_unhandled {s : State} {id : Nat} (h : decodeSettingId s.cfg id = none) :
    execSettingRead id s = .next (s.result2 Config.stUnhandled 0) := by
  unfold execSettingRead; rw [h]

theorem execSettingWrite_valid {s : State} {id e : Nat} {g : SettingField} {v : U32}
    (h : decodeSettingId s.cfg id = some (e, g)) (hv : settingValid s.cfg g v = true) :
    execSettingWrite id v s = .next ((s.modSetting e (fun r => settingSet r g v)).result Config.stOk) := by
  unfold execSettingWrite; rw [h]; exact if_pos hv

theorem execSettingWrite_invalid {s : State} {id e : Nat} {g : SettingField} {v : U32}
    (h : decodeSettingId s.cfg id = some (e, g)) (hv : ¬ settingValid s.cfg g v = true) :
    execSettingWrite id v s = .next (s.result Config.stInvalid) := by
  unfold execSettingWrite; rw [h]; exact if_neg hv

theorem execSettingWrite_unhandled {s : State} {id : Nat} (v : U32) (h : decodeSettingId s.cfg id = none) :
    execSettingWrite id v s = .next (s.result Config.stUnhandled) := by
  unfold execSettingWrite; rw [h]

/-- Settles O57: the two directions of the setting-id map. -/
theorem settingReadAnswersTheField : Obligations.SettingReadAnswersTheField := by
  intro id s hw
  refine ⟨fun e f he hf hid => ?_, fun hno => execSettingRead_unhandled (decodeSettingId_unhandled s.cfg hw id hno)⟩
  obtain ⟨g, rfl⟩ := exists_offset_eq hf
  rw [← settingGet_eq, hid]
  exact execSettingRead_handled (decodeSettingId_offset hw he g)

/-- Settles O58: a handled id by the validity of its value, an unhandled one by the setting-id map. -/
theorem settingWriteStoresValidValues : Obligations.SettingWriteStoresValidValues := by
  intro id v s hw _
  refine ⟨fun e f he hf hid => ?_, fun hno => execSettingWrite_unhandled v (decodeSettingId_unhandled s.cfg hw id hno)⟩
  obtain ⟨g, rfl⟩ := exists_offset_eq hf
  have hdec := decodeSettingId_offset hw he g
  rw [← hid] at hdec
  dsimp only
  rw [← settingValid_iff, ← settingSet_eq]
  refine ⟨fun hv => (execSettingWrite_valid hdec hv).trans ?_, fun hv => execSettingWrite_invalid hdec hv⟩
  rw [State.modSetting, modify_eq_set _ _ _ default]
  rfl

/-- Settles O59: every record below N_ENC is the restored one. -/
theorem settingsRestoreWritesDefaults : Obligations.SettingsRestoreWritesDefaults :=
  fun _ => ⟨_, rfl, fun _ he => getD_replicate _ _ _ _ he, rfl⟩

/-! ### WRITE_STRING and WRITE_LINE -/

theorem Writer.after_held (w : Writer) {t : State} (h : t.putBlocked = true) : w.after t = w := if_pos h

theorem Writer.after_completed (w : Writer) {t : State} (hb : t.putBlocked = false) (h : t.res0 = 1) :
    w.after t = ⟨w.todo.tail, w.ok⟩ := by
  simp [Writer.after, hb, h]

theorem Writer.after_failed (w : Writer) {t : State} (hb : t.putBlocked = false) (h : t.res0 = 0) :
    w.after t = ⟨w.todo, false⟩ := by
  simp [Writer.after, hb, h]

/-- Settles O60: what the writer starts with and offers, and the three ends of its PUT_BYTE. -/
theorem writerPutsTheLine : Obligations.WriterPutsTheLine := by
  intro p text b bs t
  refine ⟨rfl, rfl, rfl, rfl, fun h => Writer.after_held _ h, fun hb h => Writer.after_completed _ hb h,
    fun hb h => ?_, rfl, rfl⟩
  rw [Writer.after_failed _ hb h]
  exact ⟨rfl, rfl⟩

end Sys2Proof.Machine
end

section
/-! Encoder intake (41_encoder_intake): the click first, then the path of the working mode. -/

namespace Sys2Proof.Machine

/-! ### ENC_EVENT from its parts -/

/-- Settles O37: the first two branches of ENC_EVENT. -/
theorem unknownEncoderFaultsAndEmptyEventIsNothing : Obligations.UnknownEncoderFaultsAndEmptyEventIsNothing :=
  fun _ _ _ _ _ => ⟨fun h => if_pos h, fun h => (if_neg (Nat.not_le.mpr h)).trans (if_pos rfl)⟩

theorem execEncEvent_zero {s : State} {e : Nat} (p : I32) (v : U32) (he : e < s.cfg.nEnc) :
    execEncEvent e 0#3 p v s = .next s :=
  (unknownEncoderFaultsAndEmptyEventIsNothing e 0#3 p v s).2 he

theorem execEncEvent_of_ne_zero {s : State} {e : Nat} {ev : BitVec 3} (p : I32) (v : U32) (he : e < s.cfg.nEnc)
    (hev : ev ≠ 0#3) :
    execEncEvent e ev p v s = outcomeOf ((s.takeEncEvent e (eventsOfBits ev) p v).map (fun t => t.consumeEvents e)) :=
  (if_neg (Nat.not_le.mpr he)).trans (if_neg hev)

/-- An event handled first by its click goes on as the event without it, in the state the click leaves (41 R175). -/
theorem State.takeEncEvent_after_click {s c : State} {e : Nat} {ev : EncEvents} (p : I32) (v : U32)
    (h : s.handleClick e ev = ({ ev with click := false }, c)) :
    s.takeEncEvent e ev p v = c.takeEncEvent e { ev with click := false } p v := by
  have hpass : c.handleClick e { ev with click := false } = ({ ev with click := false }, c) :=
    State.handleClick_pass nofun nofun
  unfold State.takeEncEvent
  rw [h, hpass]

/-- So does the whole operation, where the click leaves the encoder without events. -/
theorem execEncEvent_after_click {s c : State} {e : Nat} {ev : BitVec 3} (p : I32) (v : U32) (he : e < s.cfg.nEnc)
    (hcfg : c.cfg = s.cfg) (hclick : ev.getLsbD 1 = true)
    (h : s.handleClick e (eventsOfBits ev) = ({ eventsOfBits ev with click := false }, c))
    (hnone : (c.enc e).event = ⟨false, false, false⟩) :
    execEncEvent e ev p v s = execEncEvent e (ev &&& 0b101) p v c := by
  have hev : ev ≠ 0#3 := by rintro rfl; simp at hclick
  rw [execEncEvent_of_ne_zero p v he hev, State.takeEncEvent_after_click p v h, ← eventsOfBits_without_click]
  by_cases hrest : ev &&& 0b101 = 0#3
  · have htake : c.takeEncEvent e (eventsOfBits (ev &&& 0b101)) p v = .ok c := by rw [hrest]; rfl
    rw [htake, hrest, execEncEvent_zero p v (hcfg ▸ he)]
    exact congrArg _ (State.consumeEvents_of_none hnone)
  · rw [execEncEvent_of_ne_zero p v (hcfg ▸ he) hrest]

/-- Settles O38: the state `c` is `State.universalCycle`. -/
theorem universalClickCyclesFirst : Obligations.UniversalClickCyclesFirst := by
  intro e ev p v s c he harr hclick hu _ hnone hc
  have hcycle : c = s.universalCycle e := by
    rw [hc, State.universalCycle, State.modEnc, modify_eq_set _ _ _ default]
    unfold nextTarget
    rfl
  have hcnone : (c.enc e).event = ⟨false, false, false⟩ := by
    rw [hcycle]
    exact (State.enc_modEnc_keep s e e (fun x => { x with mode := nextTarget x.mode }) (fun x => x.event)
      (fun _ => rfl)).trans hnone
  have hcfg : c.cfg = s.cfg := by rw [hc]
  have key (ev : BitVec 3) (hclick : ev.getLsbD 1 = true) :
      execEncEvent e ev p v s = execEncEvent e (ev &&& 0b101) p v c :=
    execEncEvent_after_click p v he hcfg hclick (hcycle ▸ State.handleClick_universal hclick hu) hcnone
  refine ⟨key ev hclick, ?_⟩
  rintro rfl
  exact (key _ hclick).trans (execEncEvent_zero p v (hcfg ▸ he))

/-- Settles O39: the state is `State.mpgCursor`, entry by entry. -/
theorem mpgClickMovesTheCursorFirst : Obligations.MpgClickMovesTheCursorFirst := by
  intro e c ev p v s he harr hc hclick hu hm hax hnone
  obtain ⟨hle, hla, -⟩ := harr
  have hn : s.nextAxis c < s.axes.length := hla ▸ Nat.mod_lt _ (Nat.zero_lt_of_lt hc)
  have henc := State.mpgCursor_enc hax (hle ▸ he)
  have haxis := State.mpgCursor_axis hax hn (hla ▸ hc)
  have hframe := State.mpgCursor_eq s e c hax
  have hcnone : ((s.mpgCursor e).enc e).event = ⟨false, false, false⟩ := by rw [henc, if_pos rfl]; exact hnone
  have hcfg : (s.mpgCursor e).cfg = s.cfg := by rw [hframe]
  have key (ev : BitVec 3) (hclick : ev.getLsbD 1 = true) :
      execEncEvent e ev p v s = execEncEvent e (ev &&& 0b101) p v (s.mpgCursor e) :=
    execEncEvent_after_click p v he hcfg hclick (State.handleClick_mpg hclick hu hm) hcnone
  refine ⟨s.mpgCursor e, (key 0b010 rfl).trans (execEncEvent_zero p v (hcfg ▸ he)), key ev hclick, by rw [hframe], ?_,
    fun e' hne => ?_, ?_, fun hne => ?_, fun k hkc hkn => ?_, by rw [hframe], by rw [hframe], by rw [hframe]⟩
  · rw [henc, if_pos rfl]; rfl
  · rw [henc, if_neg hne]
  · exact (haxis _).trans (if_pos rfl)
  · exact (haxis c).trans ((if_neg hne).trans (if_pos rfl))
  · exact (haxis k).trans ((if_neg hkn).trans (if_neg hkc))

/-! ### Position-changed events -/

/-- The state after the velocity of a position-changed event is recorded (41 R180). -/
def State.withVelocity (s : State) (e : Nat) (v : U32) : State := s.modEnc e (fun x => { x with velocity := v })

theorem State.withVelocity_mode (s : State) (e : Nat) (v : U32) : ((s.withVelocity e v).enc e).mode = (s.enc e).mode :=
  State.enc_modEnc_keep s e e _ (fun x => x.mode) (fun _ => rfl)

theorem State.withVelocity_axis (s : State) (e : Nat) (v : U32) : ((s.withVelocity e v).enc e).axis = (s.enc e).axis :=
  State.enc_modEnc_keep s e e _ (fun x => x.axis) (fun _ => rfl)

theorem State.withVelocity_position (s : State) (e : Nat) (v : U32) :
    ((s.withVelocity e v).enc e).position = (s.enc e).position :=
  State.enc_modEnc_keep s e e _ (fun x => x.position) (fun _ => rfl)

section Paths

variable {s : State} {e : Nat} (p : I32) (v : U32)

theorem State.handlePosition_feedRate (h : (s.enc e).mode = .feedRate) :
    s.handlePosition e p v =
      (s.withVelocity e v).fineSteps e s.cfg.rtFeedFinePlus s.cfg.rtFeedFineMinus p := by
  have hm := (s.withVelocity_mode e v).trans h
  unfold State.withVelocity at hm
  unfold State.handlePosition
  dsimp only
  rw [hm]
  rfl

theorem State.handlePosition_spindleRPM (h : (s.enc e).mode = .spindleRPM) :
    s.handlePosition e p v =
      (s.withVelocity e v).fineSteps e s.cfg.rtSpindleFinePlus s.cfg.rtSpindleFineMinus p := by
  have hm := (s.withVelocity_mode e v).trans h
  unfold State.withVelocity at hm
  unfold State.handlePosition
  dsimp only
  rw [hm]
  rfl

theorem State.handlePosition_rapidRate (h : (s.enc e).mode = .rapidRate) :
    s.handlePosition e p v = .ok ((s.withVelocity e v).rapidRatchet e p) := by
  have hm := (s.withVelocity_mode e v).trans h
  unfold State.withVelocity at hm
  unfold State.handlePosition
  dsimp only
  rw [hm]
  rfl

theorem State.handlePosition_mpg (h : isMpg (s.enc e).mode = true) :
    s.handlePosition e p v = .ok ((s.withVelocity e v).mpgMark e p v) := by
  rw [← s.withVelocity_mode e v] at h
  unfold State.withVelocity at h
  unfold State.handlePosition
  dsimp only
  cases hm : ((s.modEnc e (fun x => { x with velocity := v })).enc e).mode with
  | mpg | mpgAxis => rfl
  | universal | feedRate | rapidRate | spindleRPM => rw [hm] at h; cases h

/-- A position event whose click is not handled first is its path, with the event set consumed. -/
theorem execEncEvent_of_position {ev : BitVec 3} (he : e < s.cfg.nEnc) (hpos : ev.getLsbD 0 = true)
    (hu : ev.getLsbD 1 = true → s.universal ≠ some e) (hm : ev.getLsbD 1 = true → (s.enc e).mode ≠ .mpg) :
    execEncEvent e ev p v s = outcomeOf ((s.handlePosition e p v).map (fun t => t.consumeEvents e)) := by
  have hev : ev ≠ 0#3 := by rintro rfl; simp at hpos
  have htake : s.takeEncEvent e (eventsOfBits ev) p v = s.handlePosition e p v := by
    unfold State.takeEncEvent
    rw [State.handleClick_pass (ev := eventsOfBits ev) hu hm]
    exact if_pos hpos
  rw [execEncEvent_of_ne_zero p v he hev, htake]

/-- The encoder after its velocity, its position and its event set are written, as one update. -/
theorem State.moved_encs (s : State) (e : Nat) (p : I32) (v : U32) :
    ((s.withVelocity e v).setEncPosition e p |>.consumeEvents e).encs =
      s.encs.set e { s.enc e with position := p, velocity := v, event := ⟨false, false, false⟩ } := by
  change List.modify (List.modify (s.encs.modify e _) e _) e _ = _
  rw [modify_modify, modify_modify, modify_eq_set _ _ _ default]
  rfl

end Paths

/-! ### Fine steps -/

/-- The steps between two counts are all plus or all minus (41 R183). -/
theorem replicate_steps (a b : Int) (x y : OutEvent) :
    List.replicate (b - a).toNat x ++ List.replicate (a - b).toNat y =
      if a ≤ b then List.replicate (b - a).toNat x else List.replicate (a - b).toNat y := by
  split
  · rw [show (a - b).toNat = 0 by omega]; simp
  · rw [show (b - a).toNat = 0 by omega]; simp

/-- FINE_STEPS where neither count faults (41 R183). -/
theorem State.fineSteps_eq {s : State} {e : Nat} {plus minus : Byte} {p : I32} (hcpr : (s.setting e).cpr ≠ 0)
    (hold : InInt32 ((s.enc e).position.toInt * 100)) (hnew : InInt32 (p.toInt * 100)) :
    let nOld := normalized (s.enc e).position (s.setting e).cpr
    let nNew := normalized p (s.setting e).cpr
    s.fineSteps e plus minus p = .ok (State.setEncPosition { s with
      out := s.out ++ (if nOld ≤ nNew then List.replicate (nNew - nOld).toNat (.rtCmd plus)
        else List.replicate (nOld - nNew).toNat (.rtCmd minus)) } e p) := by
  intro nOld nNew
  unfold State.fineSteps
  rw [ncount_ok e hcpr hold]
  dsimp only
  rw [ncount_ok e hcpr hnew]
  dsimp only
  rw [← replicate_steps, ← List.append_assoc]
  rfl

/-- Settles O40: the path is FINE_STEPS of either mode. -/
theorem fineStepsOneCommandAUnit : Obligations.FineStepsOneCommandAUnit := by
  intro e ev p v s plus minus he _ hpos hu hmode hcpr hold hnew
  have hm : (s.enc e).mode ≠ .mpg := by
    rcases hmode with ⟨h, -⟩ | ⟨h, -⟩ <;> rw [h] <;> exact nofun
  have hpath : s.handlePosition e p v = (s.withVelocity e v).fineSteps e plus minus p := by
    rcases hmode with ⟨h, rfl, rfl⟩ | ⟨h, rfl, rfl⟩
    · exact State.handlePosition_feedRate p v h
    · exact State.handlePosition_spindleRPM p v h
  have hsteps := State.fineSteps_eq (s := s.withVelocity e v) (plus := plus) (minus := minus) hcpr
    (by rw [s.withVelocity_position]; exact hold) hnew
  dsimp only at hsteps
  rw [s.withVelocity_position] at hsteps
  refine (execEncEvent_of_position p v he hpos hu (fun _ => hm)).trans ?_
  rw [hpath, hsteps]
  dsimp only
  rw [← s.moved_encs e p v]
  rfl

/-- Settles O41: the first count that faults decides. -/
theorem normalizedCountFaults : Obligations.NormalizedCountFaults := by
  intro e ev p v s he _ hpos hu hmode
  have hm : (s.enc e).mode ≠ .mpg := by rcases hmode with h | h <;> rw [h] <;> exact nofun
  have hexec := execEncEvent_of_position p v he hpos hu (fun _ => hm)
  have hfault (f : Fault) (hf : ∀ plus minus, (s.withVelocity e v).fineSteps e plus minus p = .error f) :
      exec (.encEvent e ev p v) s = .fault f := by
    refine hexec.trans ?_
    rcases hmode with h | h
    · rw [State.handlePosition_feedRate p v h, hf]; rfl
    · rw [State.handlePosition_spindleRPM p v h, hf]; rfl
  have hsetting : (s.withVelocity e v).setting e = s.setting e := rfl
  refine ⟨fun hcpr => hfault _ fun plus minus => ?_, fun hcpr hover => hfault _ fun plus minus => ?_⟩
  · unfold State.fineSteps
    rw [hsetting, ncount_zero e _ hcpr]
  · unfold State.fineSteps
    rw [hsetting, s.withVelocity_position]
    by_cases hold : InInt32 ((s.enc e).position.toInt * 100)
    · rw [ncount_ok e hcpr hold, ncount_overflow e hcpr (hover.resolve_left (not_not_intro hold))]
    · rw [ncount_overflow e hcpr hold]

/-! ### The rapid ratchet -/

theorem State.turnRatchet_low {s : State} {d : Int} (hd : d < 0) (hl : s.rapidLevel ≠ .low) :
    s.turnRatchet d = s.setRapidLevel (towardLow s.rapidLevel) := if_pos ⟨hd, hl⟩

theorem State.turnRatchet_default {s : State} {d : Int} (hd : 0 < d) (hl : s.rapidLevel ≠ .default) :
    s.turnRatchet d = s.setRapidLevel (towardDefault s.rapidLevel) :=
  (if_neg (by omega)).trans (if_pos ⟨hd, hl⟩)

theorem State.turnRatchet_stay {s : State} {d : Int}
    (h : d = 0 ∨ (d < 0 ∧ s.rapidLevel = .low) ∨ (0 < d ∧ s.rapidLevel = .default)) : s.turnRatchet d = s := by
  unfold State.turnRatchet
  rcases h with rfl | ⟨hd, hl⟩ | ⟨hd, hl⟩
  · rfl
  · rw [if_neg (fun x => x.2 hl), if_neg (by omega)]
  · rw [if_neg (by omega), if_neg (fun x => x.2 hl)]

/-- A rapid position event that turns the ratchet: the turned state with the anchor moved. -/
theorem execEncEvent_rapid {s : State} {e : Nat} {ev : BitVec 3} (p : I32) (v : U32) (he : e < s.cfg.nEnc)
    (hpos : ev.getLsbD 0 = true) (hu : ev.getLsbD 1 = true → s.universal ≠ some e) (hm : (s.enc e).mode = .rapidRate) :
    execEncEvent e ev p v s = .next (State.consumeEvents ((s.withVelocity e v).rapidRatchet e p) e) := by
  refine (execEncEvent_of_position p v he hpos hu (fun _ => by rw [hm]; exact nofun)).trans ?_
  rw [State.handlePosition_rapidRate p v hm]
  rfl

theorem State.rapidRatchet_reached {s : State} {e : Nat} {p : I32}
    (h : s.detentReached e (p.toInt - (s.enc e).position.toInt) = true) :
    s.rapidRatchet e p = (s.turnRatchet (p.toInt - (s.enc e).position.toInt)).setEncPosition e p := if_pos h

theorem State.rapidRatchet_below {s : State} {e : Nat} {p : I32}
    (h : ¬ s.detentReached e (p.toInt - (s.enc e).position.toInt) = true) : s.rapidRatchet e p = s := if_neg h

/-- Settles O42: below the detent the velocity alone; at it, the turn of the ratchet by direction and level. -/
theorem rapidRatchetMovesOneLevel : Obligations.RapidRatchetMovesOneLevel := by
  intro e ev p v s he _ hpos hu hm
  dsimp only
  have hexec := execEncEvent_rapid p v he hpos hu hm
  have hdet : (s.withVelocity e v).detentReached e (p.toInt - ((s.withVelocity e v).enc e).position.toInt) = true ↔
      ((s.setting e).cpd.toNat : Int) ≤ (p.toInt - (s.enc e).position.toInt).natAbs := by
    rw [s.withVelocity_position, Int.ofNat_le]
    exact decide_eq_true_iff
  refine ⟨fun hlt => ?_, fun hge => ?_⟩
  · refine hexec.trans (congrArg _ ?_)
    rw [State.rapidRatchet_below (mt hdet.mp (by omega))]
    have hencs : ((s.withVelocity e v).consumeEvents e).encs =
        s.encs.set e { s.enc e with velocity := v, event := ⟨false, false, false⟩ } := by
      change List.modify (s.encs.modify e _) e _ = _
      rw [modify_modify, modify_eq_set _ _ _ default]
      rfl
    rw [← hencs]
    rfl
  · rw [State.rapidRatchet_reached (hdet.mpr hge), s.withVelocity_position] at hexec
    generalize hd : p.toInt - (s.enc e).position.toInt = d at hexec
    rw [← s.moved_encs e p v]
    refine ⟨fun hneg hl => hexec.trans ?_, fun hneg hl => hexec.trans ?_, fun hpos' hl => hexec.trans ?_,
      fun hpos' hl => hexec.trans ?_, fun hstay => hexec.trans ?_⟩
    · have hlevel : (s.withVelocity e v).rapidLevel = .default := hl
      rw [State.turnRatchet_low hneg (by rw [hlevel]; exact nofun), hlevel]
      rfl
    · have hlevel : (s.withVelocity e v).rapidLevel = .medium := hl
      rw [State.turnRatchet_low hneg (by rw [hlevel]; exact nofun), hlevel]
      rfl
    · have hlevel : (s.withVelocity e v).rapidLevel = .low := hl
      rw [State.turnRatchet_default hpos' (by rw [hlevel]; exact nofun), hlevel]
      rfl
    · have hlevel : (s.withVelocity e v).rapidLevel = .medium := hl
      rw [State.turnRatchet_default hpos' (by rw [hlevel]; exact nofun), hlevel]
      rfl
    · rw [State.turnRatchet_stay (s := s.withVelocity e v) hstay]
      rfl

/-! ### MPG marks -/

/-- The event of a position change of an MPG encoder (41 R188). -/
def AxisEvents.addMove (v : U32) (x : AxisEvents) : AxisEvents :=
  if v = 0 then { x with stop := true } else { x with posChanged := true }

theorem State.mpgMark_eq {s : State} {e k : Nat} (hk : (s.enc e).axis = some k) (p : I32) (v : U32) :
    s.mpgMark e p v = (s.markAxis k (AxisEvents.addMove v)).setEncPosition e p := by
  unfold State.mpgMark
  rw [hk]
  rfl

/-- Settles O43: MPG_MARK of the bound axis, as updates of one entry each. -/
theorem mpgPositionMarksTheAxis : Obligations.MpgPositionMarksTheAxis := by
  intro e k ev p v s he _ hg _ hpos hu hmode hk
  have hmpg : isMpg (s.enc e).mode = true := by
    rcases hmode with ⟨h, -⟩ | ⟨j, h⟩ <;> rw [h] <;> rfl
  have hm : ev.getLsbD 1 = true → (s.enc e).mode ≠ .mpg := by
    intro hclick
    rcases hmode with ⟨-, hno⟩ | ⟨j, h⟩
    · rw [hno] at hclick; cases hclick
    · rw [h]; exact nofun
  refine (execEncEvent_of_position p v he hpos hu hm).trans ?_
  rw [State.handlePosition_mpg p v hmpg, State.mpgMark_eq ((s.withVelocity_axis e v).trans hk)]
  have haxes : s.axes.modify k (fun x => { x with event := AxisEvents.addMove v x.event }) =
      s.axes.set k { s.axis k with event := AxisEvents.addMove v (s.axis k).event } := modify_eq_set _ _ _ default
  unfold AxisEvents.addMove at haxes
  rw [← s.moved_encs e p v, ← haxes, hg]
  rfl

/-! ### Override resets -/

/-- Without a position change and a click handled first, an override mode is reset. -/
theorem execEncEvent_of_override {s : State} {e : Nat} {ev : BitVec 3} (p : I32) (v : U32) (he : e < s.cfg.nEnc)
    (hpos : ev.getLsbD 0 = false) (hclick : ev.getLsbD 1 = true ∨ ev.getLsbD 2 = true)
    (hu : ev.getLsbD 1 = true → s.universal ≠ some e) (hm : isOverride (s.enc e).mode = true) :
    execEncEvent e ev p v s = .next ((s.overrideReset e).consumeEvents e) := by
  have hne : ev ≠ 0#3 := by rintro rfl; simp at hclick
  have hpass : s.handleClick e (eventsOfBits ev) = (eventsOfBits ev, s) :=
    State.handleClick_pass hu (fun _ h => by rw [h] at hm; cases hm)
  have hreset : s.handleNonMovement e (eventsOfBits ev) = s.overrideReset e := by
    unfold State.handleNonMovement
    rw [if_pos (by simpa [eventsOfBits] using hclick), if_pos hm]
  rw [← hreset]
  exact execEncEvent_of_take he hne (State.takeEncEvent_of_nonMovement p v hpass hpos)

/-- Settles O44: OVERRIDE_RESET of each override mode. -/
theorem overrideResetOnNonMovement : Obligations.OverrideResetOnNonMovement := by
  intro e ev p v s he _ hpos hclick hu
  dsimp only
  have hencs : ((s.resetEncoder e).consumeEvents e).encs =
      s.encs.set e { s.enc e with position := 0, event := ⟨false, false, false⟩ } := by
    change List.modify (s.encs.modify e _) e _ = _
    rw [modify_modify, modify_eq_set _ _ _ default]
    rfl
  have hout (x : OutEvent) : s.out ++ [.counterReset e, x] = s.out ++ [.counterReset e] ++ [x] := by simp
  rw [← hencs, hout, hout, hout]
  refine ⟨fun hm => ?_, fun hm => ?_, fun hm => ?_⟩ <;>
    refine (execEncEvent_of_override p v he hpos hclick hu (by rw [hm]; rfl)).trans (congrArg _ ?_) <;>
    unfold State.overrideReset <;> rw [hm] <;> rfl

/-- Settles O46: the fields by the frame of ENC_EVENT, the entries by its parts. -/
theorem encoderEventFrame : Obligations.EncoderEventFrame := by
  intro e ev p v s t h
  obtain ⟨hother, -, -, haxis⟩ := execEncEvent_entries h
  have hguard := execEncEvent_guard h
  have haxes (k : Nat) : (t.axis k).pos = (s.axis k).pos ∧ (t.axis k).scale = (s.axis k).scale ∧
      (t.axis k).flags = (s.axis k).flags ∧ (t.axis k).nextEvent = (s.axis k).nextEvent := by
    rw [haxis k]; exact ⟨rfl, rfl, rfl, rfl⟩
  refine ⟨?_, ?_, ?_, ?_, ?_, ?_, hguard, hother, haxes⟩ <;> rw [execEncEvent_frame h]
  · exact ⟨⟨rfl, rfl⟩, ⟨rfl, rfl, fun _ => rfl⟩, ⟨rfl, rfl⟩, ⟨rfl, rfl, rfl, rfl, fun _ => rfl⟩,
      ⟨rfl, rfl, rfl, rfl, fun _ => rfl⟩, rfl⟩
  · exact ⟨rfl, rfl⟩
  · exact ⟨rfl, rfl, rfl, rfl, rfl⟩

end Sys2Proof.Machine
end

section
/-! Real-time dispatch (42_realtime_dispatch): the message, the gate, the actions, and the batched move of either strategy
after them. -/

namespace Sys2Proof.Machine

/-! ### The message and the gate -/

theorem State.announceMode_of_pending {s : State} {u : Nat} (h : s.modeMsgPending = true) (hu : s.universal = some u) :
    s.announceMode = { s with out := s.out ++ [.statusMsg (s.enc u).mode], modeMsgPending := false } := by
  have hm : s.messageMode = (s.enc u).mode := by unfold State.messageMode; rw [hu]
  unfold State.announceMode
  rw [if_pos h, hm]
  rfl

theorem State.announceMode_of_none {s : State} (h : s.modeMsgPending = false) : s.announceMode = s :=
  if_neg (by simp [h])

/-- Settles O47: both ticks drain the same state. -/
theorem modeMessageIsEmittedOnce : Obligations.ModeMessageIsEmittedOnce := by
  intro s u h hu
  simp only [exec, execExecuteRealtime]
  rw [State.announceMode_of_pending h hu, State.announceMode_of_none rfl]

theorem State.drain_idle {s : State} (h : s.pendingAxes = 0) : s.drain = .ok s :=
  if_pos (by simp [State.nothingPending, h])

theorem State.drain_closed {s : State} (h : s.pendingAxes ≠ 0) (hg : s.drawMachineState.1 = .other) :
    s.drain = .ok s.drawMachineState.2 := by
  unfold State.drain
  rw [if_neg (by simpa [State.nothingPending] using h)]
  dsimp only
  rw [hg]
  rfl

theorem execExecuteRealtime_of_drain {s t : State} (hm : s.modeMsgPending = false) (h : s.drain = .ok t) :
    execExecuteRealtime s = .next (t.result 0) := by
  unfold execExecuteRealtime
  rw [State.announceMode_of_none hm, h]
  rfl

/-- Settles O48: nothing to drain, or a draw that keeps the gate closed. -/
theorem idleTickAndClosedGateKeepEvents : Obligations.IdleTickAndClosedGateKeepEvents := by
  intro s hm
  refine ⟨fun h => execExecuteRealtime_of_drain hm (State.drain_idle h), fun h hg => ?_⟩
  refine (execExecuteRealtime_of_drain hm (State.drain_closed h hg)).trans ?_
  rw [State.drawMachineState_frame]
  rfl

/-! ### The batched move of axes that contribute -/

section Move

variable {s : State} {m c : List Nat}

/-- With every displacement in range and every velocity 0 the move does nothing (42 R220, R225). -/
theorem State.move_of_zero_feed (hc : s.contrib m = c.map s.bound) (hr : ∀ k, k ∈ c → s.MoveInRange k)
    (hv : ∀ k, k ∈ c → (s.boundEncoder k).velocity = 0) : s.move m = .ok s := by
  have hfeed : s.feed (c.map s.bound) = 0 := by
    rw [State.feed, List.map_map, slowestFeed_eq_zero]
    intro v hmem
    obtain ⟨k, hk, rfl⟩ := List.mem_map.mp hmem
    exact hv k hk
  unfold State.move
  dsimp only
  rw [hc, State.deltas_eq s c hr, hfeed]
  dsimp only
  split
  · rfl
  · rfl

/-- A displacement out of range ends the move (42 R223). -/
theorem State.move_of_deltas_error {f : Fault} (hc : s.contrib m = c.map s.bound) (hne : c ≠ [])
    (hd : s.deltas (c.map s.bound) = .error f) : s.move m = .error f := by
  unfold State.move
  dsimp only
  rw [hc, hd, if_neg (by simpa using hne)]

theorem State.IsSlowest.ne_nil {f : U32} (h : s.IsSlowest c f) : c ≠ [] := by
  obtain ⟨-, ⟨k, hk, -⟩, -⟩ := h
  exact List.ne_nil_of_mem hk

/-- With a feed that is not 0 the strategy decides (42 R220). -/
theorem State.move_of_feed {f : U32} (hc : s.contrib m = c.map s.bound) (hr : ∀ k, k ∈ c → s.MoveInRange k)
    (hf : s.IsSlowest c f) :
    s.move m = (s.buildCommand (s.displacements c) f).map
      (fun b => ((b.2.consume (c.map s.bound)).sendMotion b.1).2) := by
  unfold State.move
  dsimp only
  rw [hc, State.deltas_eq s c hr, State.feed_eq hf, if_neg (by simpa using hf.ne_nil)]
  dsimp only
  rw [if_neg hf.1]
  cases s.buildCommand (s.displacements c) f <;> rfl

end Move

/-! ### A tick that moves nothing -/

/-- Settles O49: after the actions the move has nothing to send. -/
theorem axisZeroScaleAndStop : Obligations.AxisZeroScaleAndStop := by
  intro s hm harr hp hg hquiet
  refine (State.execExecuteRealtime_open hm harr hp hg).trans ?_
  rw [State.move_of_zero_feed s.contrib_afterActions (fun k hk => (hquiet k hk).1) (fun k hk => (hquiet k hk).2)]
  rfl

/-- Settles O54: the lowest displacement out of range, or the lowest target, ends the move. -/
theorem motionOverflowFaults : Obligations.MotionOverflowFaults := by
  intro s u c k hm harr hp hg hu hc hk
  have hopen := State.execExecuteRealtime_open hm harr hp hg
  have hcontrib := s.contrib_afterActions
  have hsorted := s.contributors_sorted
  rw [← hu] at hopen hcontrib
  rw [← hc] at hcontrib hsorted
  refine ⟨fun hlow hover => hopen.trans ?_, fun f hr hf hstrat hrel hlow hover => hopen.trans ?_⟩
  · rw [State.move_of_deltas_error hcontrib (List.ne_nil_of_mem hk) (State.deltas_error u c k hsorted hk hlow hover)]
    rfl
  · have hd := State.drawRelative_frame u
    have hcfg : u.cfg.moveStrategy = .absoluteMove := by rw [hu]; exact hstrat
    have hbuild : u.buildCommand (u.displacements c) f = .error (.arithOverflow k) := by
      have hacc : u.drawRelative.2.accumulate (u.displacements c) = .error (.arithOverflow k) := by
        rw [hd]
        exact State.accumulate_error { u with env := u.drawRelative.2.env } c k hsorted hk (fun j hj => (hr j hj).2) hlow
          hover
      unfold State.buildCommand State.absMove
      rw [hcfg]
      generalize u.drawRelative = x at hrel hacc
      obtain ⟨rel, t⟩ := x
      dsimp only at hrel hacc ⊢
      rw [hrel]
      dsimp only
      rw [hacc]
    rw [State.move_of_feed hcontrib hr hf, hbuild]
    rfl

/-! ### A tick that sends a command -/

/-- The command is passed to the sink after the contributing axes have taken their encoders' positions (42 R224, R228). -/
theorem State.sendMotion_consume (t : State) (l : List (Nat × Nat)) (cmd : MotionCmd) :
    ((t.consume l).sendMotion cmd).2 =
      { t with axes := (t.consume l).axes, env := (t.drawAccept cmd).2.env,
               out := t.out ++ [.motion cmd (t.drawAccept cmd).1] } := by
  have henv : (t.consume l).env = t.env := by rw [State.consume_frame]
  obtain ⟨h1, h2⟩ := State.drawAccept_congr henv cmd
  rw [State.sendMotion_frame, h1, h2, State.consume_frame]

theorem State.afterActions_length (s : State) : s.afterActions.axes.length = s.cfg.nAxis := by
  simp [State.afterActions]

theorem State.consume_axes_eq {s : State} {n : Nat} (hl : s.axes.length = n) (c : List Nat) :
    (s.consume (c.map s.bound)).axes = (List.range n).map (fun k =>
      if k ∈ c then { s.axis k with position := (s.boundEncoder k).position } else s.axis k) :=
  eq_range_map _ n _ default ((State.consume_length _ _).trans hl) fun j hj => s.axis_consume c j (hl ▸ hj)

/-- Settles O51: REL_JOG builds the command from the displacements and leaves the state to the consumption. -/
theorem relativeJogBatchesMovingAxes : Obligations.RelativeJogBatchesMovingAxes := by
  intro s u c f cmd hstrat hm harr hp hg hu hc hr hf hcmd
  refine (State.execExecuteRealtime_open hm harr hp hg).trans ?_
  have hcontrib := s.contrib_afterActions
  have hlen := s.afterActions_length
  have hcfg : u.cfg.moveStrategy = .relativeJog := by rw [hu]; exact hstrat
  rw [← hu] at hlen hcontrib ⊢
  rw [← hc] at hcontrib
  have hbuild : u.buildCommand (u.displacements c) f = .ok (cmd, u) := by
    unfold State.buildCommand
    rw [hcfg, hcmd]
    rfl
  rw [State.move_of_feed hcontrib hr hf, hbuild, ← State.consume_axes_eq hlen c]
  exact congrArg (fun t => Host.Outcome.next (State.result t 0)) (State.sendMotion_consume u (c.map u.bound) cmd)

theorem State.absMove_relative {s : State} {ds : List (Nat × I32)} {f : U32} (h : s.drawRelative.1 = true) :
    s.absMove ds f = .ok (.move true ds f, s.drawRelative.2) := by
  unfold State.absMove
  generalize s.drawRelative = x at h
  obtain ⟨rel, t⟩ := x
  cases h
  rfl

theorem State.absMove_absolute {s v : State} {ds ts : List (Nat × I32)} {f : U32} (h : s.drawRelative.1 = false)
    (ha : s.drawRelative.2.accumulate ds = .ok (ts, v)) : s.absMove ds f = .ok (.move false ts f, v) := by
  unfold State.absMove
  generalize s.drawRelative = x at h ha
  obtain ⟨rel, t⟩ := x
  cases h
  dsimp only at ha ⊢
  rw [ha]

/-- The axes after the command of an absolute move: each contributing axis takes its encoder's position and, in the
absolute mode, its target (42 R224, R226). -/
def State.movedAxis (s : State) (c : List Nat) (rel : Bool) (k : Nat) : Axis :=
  if k ∈ c then
    { s.axis k with
      position := (s.boundEncoder k).position,
      pos := if rel then (s.axis k).pos else BitVec.ofInt 32 ((s.axis k).pos.toInt + s.displacement k) }
  else s.axis k

/-- ABS_MOVE builds the command of its mode (42 R226); consumption then leaves each axis as `State.movedAxis` says. -/
theorem State.absMove_eq {s : State} {c : List Nat} {rel : Bool} (f : U32) (hrel : rel = s.drawRelative.1)
    (hnd : c.Nodup) (hk : ∀ k, k ∈ c → k < s.axes.length)
    (hr : ∀ k, k ∈ c → s.MoveInRange k ∧ (rel = false → InInt32 ((s.axis k).pos.toInt + s.displacement k))) :
    ∃ v, s.absMove (s.displacements c) f = .ok (.move rel (if rel then s.displacements c else s.targets c) f, v) ∧
      v = { s with env := s.drawRelative.2.env, axes := v.axes } ∧ v.axes.length = s.axes.length ∧
      ∀ k, k < s.axes.length → (v.consume (c.map s.bound)).axis k = s.movedAxis c rel k := by
  have hd := State.drawRelative_frame s
  cases rel with
  | true =>
    refine ⟨s.drawRelative.2, State.absMove_relative hrel.symm, by rw [hd], by rw [hd], fun k hk => ?_⟩
    rw [hd]
    exact State.axis_consume { s with env := s.drawRelative.2.env } c k hk
  | false =>
    obtain ⟨v, hacc, hlen, hax⟩ := State.accumulate_eq s.drawRelative.2 c hnd (by rw [hd]; exact hk)
      (by rw [hd]; exact fun k hk => ⟨(hr k hk).1.2, (hr k hk).2 rfl⟩)
    have hframe := State.accumulate_frame hacc
    rw [hd] at hacc hlen hax hframe
    refine ⟨v, State.absMove_absolute hrel.symm (by rw [hd]; exact hacc), hframe, hlen, fun k hk => ?_⟩
    have hbound : c.map s.bound = c.map v.bound := by
      refine List.map_congr_left fun j _ => ?_
      unfold State.bound
      rw [hax j]
      split <;> rfl
    have henc (j : Nat) : v.boundEncoder j = s.boundEncoder j := by
      unfold State.boundEncoder
      rw [State.enc_congr (s := s) (t := v) (by rw [hframe]), hax j]
      split <;> rfl
    rw [hbound, State.axis_consume v c k (hlen ▸ hk), henc, hax k]
    unfold State.movedAxis
    split
    · rfl
    · rfl

/-- Settles O52: ABS_MOVE builds the command of its mode, and the consumption follows. -/
theorem absoluteMoveBatchesMovingAxes : Obligations.AbsoluteMoveBatchesMovingAxes := by
  intro s u c f rel cmd hstrat hm harr hp hg hu hc hrel hr hf hcmd
  refine (State.execExecuteRealtime_open hm harr hp hg).trans ?_
  have hcontrib := s.contrib_afterActions
  have hlen := s.afterActions_length
  have hsorted := s.contributors_sorted
  have hlt (k : Nat) (hk : k ∈ s.contributors) : k < s.cfg.nAxis :=
    List.mem_range.mp (List.mem_filter.mp (List.mem_filter.mp hk).1).1
  have hcfg : u.cfg.moveStrategy = .absoluteMove := by rw [hu]; exact hstrat
  rw [← hu] at hlen hcontrib ⊢
  rw [← hc] at hcontrib hsorted hlt
  obtain ⟨v, habs, hframe, hvlen, hax⟩ := State.absMove_eq f hrel hsorted.nodup (fun k hk => hlen ▸ hlt k hk) hr
  have hbuild : u.buildCommand (u.displacements c) f = .ok (cmd, v) := by
    unfold State.buildCommand
    rw [hcfg, hcmd]
    exact habs
  have haxes : (v.consume (c.map u.bound)).axes = (List.range s.cfg.nAxis).map (u.movedAxis c rel) :=
    eq_range_map _ _ _ default ((State.consume_length _ _).trans (hvlen.trans hlen)) fun k hk => hax k (hlen ▸ hk)
  have hdraw : (v.drawAccept cmd).1 = (u.drawRelative.2.drawAccept cmd).1 ∧
      (v.drawAccept cmd).2.env = (u.drawRelative.2.drawAccept cmd).2.env :=
    State.drawAccept_congr (by rw [hframe]) cmd
  rw [State.move_of_feed hcontrib (fun k hk => (hr k hk).1) hf, hbuild]
  refine (congrArg (fun t => Host.Outcome.next (State.result t 0))
    (State.sendMotion_consume v (c.map u.bound) cmd)).trans ?_
  rw [haxes, hdraw.1, hdraw.2, hframe]
  rfl

end Sys2Proof.Machine
end

section
/-! Real-time dispatch (42_realtime_dispatch): ticks that find position changes only, and the frame of every tick. -/

namespace Sys2Proof.Machine

theorem State.mem_flagged {s : State} {k : Nat} : k ∈ s.flagged ↔ k < s.cfg.nAxis ∧ s.pendingAxes.getLsbD k = true :=
  mem_maskAxes _ _ k

theorem State.afterActions_axis_flagged {s : State} {k : Nat} (hk : k ∈ s.flagged) :
    s.afterActions.axis k = s.axisAfter s.tickAnswers.1 k := by
  obtain ⟨hlt, hbit⟩ := State.mem_flagged.mp hk
  rw [s.afterActions_axis hlt, if_pos hbit]

theorem State.afterActions_axis_unflagged {s : State} {k : Nat} (ha : s.ArraysOk) (hk : k ∉ s.flagged) :
    s.afterActions.axis k = s.axis k := by
  by_cases hlt : k < s.cfg.nAxis
  · rw [s.afterActions_axis hlt, if_neg fun hbit => hk (State.mem_flagged.mpr ⟨hlt, hbit⟩)]
  · have hpast (l : List Axis) (hl : l.length = s.cfg.nAxis) : l.getD k default = default :=
      List.getD_eq_default _ _ (by omega)
    exact (hpast _ s.afterActions_length).trans (hpast _ ha.2.1).symm

/-! ### Ticks that find position changes only -/

section OnlyMovement

variable {s : State}

theorem State.OnlyMovement.of_flagged (h : s.OnlyMovement) {k : Nat} (hk : k ∈ s.flagged) :
    (s.axis k).event.zero = false ∧ (s.axis k).event.scale = false ∧ (s.axis k).event.stop = false := by
  obtain ⟨hlt, hbit⟩ := State.mem_flagged.mp hk
  exact h k hlt hbit

/-- Without a zero event no encoder is zeroed (42 R215). -/
theorem State.OnlyMovement.afterActions_encs (h : s.OnlyMovement) (ha : s.ArraysOk) : s.afterActions.encs = s.encs := by
  have hnot (e : Nat) : s.encoderZeroed s.tickAnswers.1 e = false :=
    List.any_eq_false.mpr fun k hk => by simp [(h.of_flagged hk).1]
  refine (eq_range_map s.encs s.cfg.nEnc _ default ha.1 fun e _ => ?_).symm
  rw [hnot e]
  rfl

/-- A position change alone emits nothing (42 R218). -/
theorem State.OnlyMovement.afterActions_out (h : s.OnlyMovement) : s.afterActions.out = s.out := by
  have hnone : s.flagged.flatMap (s.actionEvents s.tickAnswers.1) = [] := by
    refine List.flatMap_eq_nil_iff.mpr fun k hk => ?_
    obtain ⟨hzero, -, hstop⟩ := h.of_flagged hk
    simp [State.actionEvents, hzero, hstop]
  exact (congrArg (s.out ++ ·) hnone).trans (List.append_nil _)

/-- Of an axis a position change keeps the binding, the last-consumed position and the scale (42 R218). -/
theorem State.OnlyMovement.afterActions_axis (h : s.OnlyMovement) (ha : s.ArraysOk) (k : Nat) :
    (s.afterActions.axis k).enc = (s.axis k).enc ∧ (s.afterActions.axis k).position = (s.axis k).position ∧
      (s.afterActions.axis k).scale = (s.axis k).scale := by
  by_cases hk : k ∈ s.flagged
  · obtain ⟨hzero, hscale, -⟩ := h.of_flagged hk
    rw [State.afterActions_axis_flagged hk]
    simp [State.axisAfter, hzero, hscale]
  · rw [State.afterActions_axis_unflagged ha hk]
    exact ⟨rfl, rfl, rfl⟩

theorem State.OnlyMovement.boundEncoder (h : s.OnlyMovement) (ha : s.ArraysOk) (k : Nat) :
    s.afterActions.boundEncoder k = s.boundEncoder k := by
  unfold State.boundEncoder
  rw [State.enc_congr (h.afterActions_encs ha), (h.afterActions_axis ha k).1]

theorem State.OnlyMovement.moveInRange (h : s.OnlyMovement) (ha : s.ArraysOk) (k : Nat) :
    s.afterActions.MoveInRange k ↔ s.MoveInRange k := by
  obtain ⟨-, hpos, hscale⟩ := h.afterActions_axis ha k
  unfold State.MoveInRange State.displacement
  rw [h.boundEncoder ha k, hpos, hscale]

theorem State.OnlyMovement.hasMoved (h : s.OnlyMovement) (ha : s.ArraysOk) (k : Nat) :
    s.afterActions.hasMoved k = s.hasMoved k := by
  obtain ⟨henc, hpos, -⟩ := h.afterActions_axis ha k
  unfold State.hasMoved
  rw [henc, hpos]
  cases (s.axis k).enc with
  | none => rfl
  | some e => dsimp only; rw [State.enc_congr (h.afterActions_encs ha)]

/-- The contributors are the axes that had moved before the tick (42 R221). -/
theorem State.OnlyMovement.contributors (h : s.OnlyMovement) (ha : s.ArraysOk) : s.contributors = s.movingAxes := by
  unfold State.contributors State.flagged
  rw [List.filter_filter]
  refine List.filter_congr fun k _ => ?_
  rw [h.hasMoved ha k, Bool.and_comm, ← Bool.and_assoc]
  rfl

/-- Where every axis that has moved is in range and reports velocity 0, the actions are the whole tick. -/
theorem State.OnlyMovement.exec_quiet (h : s.OnlyMovement) (ha : s.ArraysOk) (hm : s.modeMsgPending = false)
    (hp : s.pendingAxes ≠ 0) (hg : s.gateWillOpen)
    (hquiet : ∀ k, k ∈ s.movingAxes → s.MoveInRange k ∧ (s.boundEncoder k).velocity = 0) :
    exec .executeRealtime s = .next { s.afterActions with res0 := 0, res1 := 0 } := by
  refine axisZeroScaleAndStop s hm ha hp hg fun k hk => ?_
  obtain ⟨hr, hv⟩ := hquiet k (h.contributors ha ▸ hk)
  exact ⟨(h.moveInRange ha k).mpr hr, by rw [h.boundEncoder ha k]; exact hv⟩

end OnlyMovement

/-- Settles O53: the actions are the whole tick, and they leave encoders and last-consumed positions. -/
theorem zeroFeedSendsNothing : Obligations.ZeroFeedSendsNothing := by
  intro s hm ha hp hg hmove hquiet
  refine ⟨_, hmove.exec_quiet ha hm hp hg fun k hk => ?_, hmove.afterActions_out, hmove.afterActions_encs ha, rfl,
    fun k => (hmove.afterActions_axis ha k).2.1⟩
  obtain ⟨hdelta, hdisp, hv⟩ := hquiet k hk
  exact ⟨⟨hdelta, hdisp⟩, hv⟩

/-! ### The start of one axis -/

section OnlyAxis

variable {s : State} {k : Nat} {ev : AxisEvents}

theorem State.OnlyAxis.flagged (h : s.OnlyAxis k ev) : s.flagged = [k] := by
  obtain ⟨hlt, h16, hmask, -⟩ := h
  have hbit (j : Nat) : s.pendingAxes.getLsbD j = true ↔ j = k := by
    rw [hmask, getLsbD_bit, decide_eq_true_eq]
    omega
  have hmem (j : Nat) : j ∈ s.flagged ↔ j ∈ [k] := by
    rw [State.mem_flagged, hbit, List.mem_singleton]
    exact ⟨fun hj => hj.2, fun hj => ⟨hj ▸ hlt, hj⟩⟩
  exact List.perm_singleton.mp
    ((List.perm_ext_iff_of_nodup (List.nodup_range.filter _) (List.nodup_singleton k)).mpr hmem)

theorem State.OnlyAxis.onlyMovement (h : s.OnlyAxis k ev) (hz : ev.zero = false) (hs : ev.scale = false)
    (ht : ev.stop = false) : s.OnlyMovement := by
  intro j hlt hbit
  have hj : j ∈ s.flagged := State.mem_flagged.mpr ⟨hlt, hbit⟩
  rw [h.flagged, List.mem_singleton] at hj
  obtain ⟨-, -, -, hev⟩ := h
  rw [hj, hev]
  exact ⟨hz, hs, ht⟩

end OnlyAxis

theorem State.mem_movingAxes {s : State} {k : Nat} (h : k ∈ s.movingAxes) : k ∈ s.flagged ∧ s.hasMoved k = true := by
  obtain ⟨hlt, hsel⟩ := List.mem_filter.mp h
  obtain ⟨hsel, hmoved⟩ := Bool.and_eq_true_iff.mp hsel
  exact ⟨List.mem_filter.mpr ⟨hlt, (Bool.and_eq_true_iff.mp hsel).1⟩, hmoved⟩

/-- Settles O50: the axis is the only one flagged and has not moved, so its start is the whole tick. -/
theorem axisStartCapturesTheOrigin : Obligations.AxisStartCapturesTheOrigin := by
  intro s k o now hm ha _ hg honly hrest hstill ho hnow
  have hmove := honly.onlyMovement rfl rfl rfl
  have hflag := honly.flagged
  have hp : s.pendingAxes ≠ 0 := by
    intro h0
    have hk : k ∈ s.flagged := hflag ▸ List.mem_singleton_self k
    simpa [h0] using (State.mem_flagged.mp hk).2
  have hquiet (j : Nat) (hj : j ∈ s.movingAxes) : False := by
    obtain ⟨hj, hmoved⟩ := State.mem_movingAxes hj
    rw [hflag, List.mem_singleton] at hj
    subst hj
    unfold State.hasMoved at hmoved
    cases he : (s.axis j).enc with
    | none => simp [he] at hmoved
    | some e => simp [he, hstill e he] at hmoved
  obtain ⟨-, -, -, hev⟩ := honly
  have hstart : s.starts k = true := by simp [State.starts, hev, hrest]
  have hanswers : s.tickAnswers.1.origin k = o ∧ s.tickAnswers.1.now k = now := by
    unfold State.tickAnswers
    rw [hflag, ho, hnow]
    simp [State.answersFrom, hev, hstart]
  refine ⟨_, hmove.exec_quiet ha hm hp hg fun j hj => (hquiet j hj).elim, rfl, hmove.afterActions_out, rfl, rfl, ?_,
    hmove.afterActions_encs ha, fun j hj => State.afterActions_axis_unflagged ha (by simpa [hflag] using hj)⟩
  refine (State.afterActions_axis_flagged (hflag ▸ List.mem_singleton_self k)).trans ?_
  simp [State.axisAfter, hev, hstart, hanswers]

/-! ### Every tick -/

/-- Settles O55: the fields by the frame of EXECUTE_REALTIME, the entries by its parts. -/
theorem executeRealtimeFrame : Obligations.ExecuteRealtimeFrame := by
  intro s t h
  have hentries := execExecuteRealtime_entries h
  have haxis (k : Nat) (hk : s.cfg.nAxis ≤ k ∨ s.pendingAxes.getLsbD k = false) : t.axis k = s.axis k := by
    refine hentries.axis k fun hmem => ?_
    obtain ⟨hlt, hbit⟩ := (mem_maskAxes _ _ k).mp hmem
    rcases hk with hpast | hclear
    · omega
    · rw [hclear] at hbit; cases hbit
  refine ⟨?_, ?_, ?_, ?_, ?_, ?_, ?_, hentries.guard, hentries.enc, hentries.back, haxis⟩ <;>
    rw [execExecuteRealtime_frame h]
  · exact ⟨⟨rfl, rfl⟩, ⟨rfl, rfl, fun _ => rfl⟩, ⟨rfl, rfl⟩, ⟨rfl, rfl, rfl, rfl, fun _ => rfl⟩,
      ⟨rfl, rfl, rfl, rfl, fun _ => rfl⟩, rfl⟩
  · exact ⟨rfl, rfl, rfl, rfl, rfl⟩

end Sys2Proof.Machine
end
